-- ==== Sys2Proof/Word.lean ====
section
/-! DEFINITION. The plain types of the model: the 32-bit word of a host access and of a command
(00_scope.md R15, 20_memory.md R55), the DMEM byte (10_state.md R28) and the name of a big register
(10_state.md R23). -/

namespace Sys2Proof

/-- A 32-bit host access value, control register or command word. -/
abbrev Word := BitVec 32

/-- One byte of DMEM. -/
abbrev Byte := BitVec 8

/-- The name of a big register `x[0]` to `x[15]` (R23, R87): `NREG` is 16. -/
abbrev Reg := Fin 16

end Sys2Proof
end

