-- ==== Sys2Proof/Syntax.lean ====
section
/-! DEFINITION. The command set as syntax: one constructor per row of the opcode map
(30_encoding.md R81), operands in the assembler's order, destinations first (R89), and the three
pseudo-instructions (R90) as second spellings. -/

namespace Sys2Proof

/-- The thirteen commands. A register operand names one of `x[0]` to `x[15]`; the width of SPLIT and
JOIN is a number that WellFormed holds to the four bits of `imm4` (R79, R91). -/
inductive Instr where
  /-- `NOP` (R98). -/
  | nop
  /-- `MODEXP xd, xb, xe, xm` (R115). -/
  | modexp (rd base exponent modulus : Reg)
  /-- `MODMUL xd, xa, xb, xm` (R118). -/
  | modmul (rd a b modulus : Reg)
  /-- `MODRED xd, xa, xm` (R120). -/
  | modred (rd a modulus : Reg)
  /-- `GCD xd, xa, xb` (R122). -/
  | gcd (rd a b : Reg)
  /-- `XGCD xg, xs, xa, xb` (R124). -/
  | xgcd (g s a b : Reg)
  /-- `MODINV xd, xa, xm` (R126). -/
  | modinv (rd a modulus : Reg)
  /-- `PRIME xd, xa` (R132). -/
  | prime (rd a : Reg)
  /-- `KEYGEN xn, xpub, xpriv, xp, xq` (R141). -/
  | keygen (n pub priv p q : Reg)
  /-- `SPLIT w` (R105). -/
  | split (width : Nat)
  /-- `JOIN w` (R107). -/
  | join (width : Nat)
  /-- `ENCODE xm, xe` (R155). -/
  | encode (modulus exponent : Reg)
  /-- `DECODE xm, xe` (R162). -/
  | decode (modulus exponent : Reg)
  deriving DecidableEq, Repr

/-- `MODSQR xd, xa, xm` (R90). -/
def Instr.modsqr (rd a modulus : Reg) : Instr := .modmul rd a a modulus

/-- `MOD xd, xa, xm` (R90). -/
def Instr.mod (rd a modulus : Reg) : Instr := .modred rd a modulus

/-- `INV xd, xa, xm` (R90). -/
def Instr.inv (rd a modulus : Reg) : Instr := .modinv rd a modulus

end Sys2Proof
end

