-- ==== Sys2Proof/WellFormed.lean ====
section
/-! DEFINITION. Which terms of Instr are commands an assembler may emit. A register operand is one of
x0 to x15 by its type (R87); the one check left is the width of SPLIT and JOIN (R91). -/

namespace Sys2Proof

/-- "The assembler accepts SPLIT and JOIN widths 0 to 15 and encodes them as written; a width outside
0..15 is an assembly error" (R91). The widths 0 and 8 to 15 are well formed: they fail when they run
(R79, R104). -/
def Instr.wellFormed : Instr → Bool
  | .nop => true
  | .modexp _ _ _ _ => true
  | .modmul _ _ _ _ => true
  | .modred _ _ _ => true
  | .gcd _ _ _ => true
  | .xgcd _ _ _ _ => true
  | .modinv _ _ _ => true
  | .prime _ _ => true
  | .keygen _ _ _ _ _ => true
  | .split w => decide (w < 16)
  | .join w => decide (w < 16)
  | .encode _ _ => true
  | .decode _ _ => true

end Sys2Proof
end

