-- ==== Sys2Proof/Decode.lean ====
section
/-! DEFINITION. The command word (30_encoding.md): its one format, the opcode map, the decoder, which
is total on 32-bit words and rejects by name, the encoder, and what the opcode map says of each
command's operands. -/

namespace Sys2Proof

/-! ### The fields of a command word (R75 to R80) -/

/-- `op = cmd[31:26]` (R75). -/
def Word.op (cmd : Word) : BitVec 6 := cmd.extractLsb' 26 6

/-- `rd = cmd[25:22]` (R76). -/
def Word.rd (cmd : Word) : Reg := (cmd.extractLsb' 22 4).toFin

/-- `rs1 = cmd[21:18]` (R77). -/
def Word.rs1 (cmd : Word) : Reg := (cmd.extractLsb' 18 4).toFin

/-- `rs2 = cmd[17:14]` (R77). -/
def Word.rs2 (cmd : Word) : Reg := (cmd.extractLsb' 14 4).toFin

/-- `r3 = cmd[13:10]` (R78). -/
def Word.r3 (cmd : Word) : Reg := (cmd.extractLsb' 10 4).toFin

/-- `r4 = cmd[9:6]` (R78). -/
def Word.r4 (cmd : Word) : Reg := (cmd.extractLsb' 6 4).toFin

/-- `res = cmd[5:4]` (R80). -/
def Word.res (cmd : Word) : BitVec 2 := cmd.extractLsb' 4 2

/-- `imm4 = cmd[3:0]` (R79). -/
def Word.imm4 (cmd : Word) : BitVec 4 := cmd.extractLsb' 0 4

/-! ### The opcode map (R81) -/

/-- The mnemonics of the opcode map. -/
inductive Op where
  | nop | modexp | modmul | modred | gcd | xgcd | modinv | prime | keygen | split | join | encode | decode
  deriving DecidableEq, Repr

/-- One row of the opcode map: a word selects it when `(cmd and mask) = pattern` (R81). -/
structure Row where
  op : Op
  pattern : Word
  mask : Word
  deriving DecidableEq, Repr

/-- "A word `cmd` selects a row when `(cmd and mask) = match`" (R81). -/
def Row.selects (r : Row) (cmd : Word) : Bool := cmd &&& r.mask == r.pattern

/-- The rows of R81, in its order, with its match and mask columns. -/
def opcodeMap : List Row :=
  [ ⟨.nop,    0x00000000#32, 0xFFFFFFFF#32⟩,
    ⟨.modexp, 0x04000000#32, 0xFC0003FF#32⟩,
    ⟨.modmul, 0x08000000#32, 0xFC0003FF#32⟩,
    ⟨.modred, 0x0C000000#32, 0xFC003FFF#32⟩,
    ⟨.gcd,    0x10000000#32, 0xFC003FFF#32⟩,
    ⟨.xgcd,   0x14000000#32, 0xFC0003FF#32⟩,
    ⟨.modinv, 0x18000000#32, 0xFC003FFF#32⟩,
    ⟨.prime,  0x1C000000#32, 0xFC03FFFF#32⟩,
    ⟨.keygen, 0x20000000#32, 0xFC00003F#32⟩,
    ⟨.split,  0x24000000#32, 0xFFFFFFF0#32⟩,
    ⟨.join,   0x28000000#32, 0xFFFFFFF0#32⟩,
    ⟨.encode, 0x2C000000#32, 0xFFC03FFF#32⟩,
    ⟨.decode, 0x30000000#32, 0xFFC03FFF#32⟩ ]

/-- The command a word of a row denotes: the fields the row uses, in the columns of R81. -/
def Op.instr (op : Op) (cmd : Word) : Instr :=
  match op with
  | .nop => .nop
  | .modexp => .modexp cmd.rd cmd.rs1 cmd.rs2 cmd.r3
  | .modmul => .modmul cmd.rd cmd.rs1 cmd.rs2 cmd.r3
  | .modred => .modred cmd.rd cmd.rs1 cmd.rs2
  | .gcd => .gcd cmd.rd cmd.rs1 cmd.rs2
  | .xgcd => .xgcd cmd.rd cmd.r3 cmd.rs1 cmd.rs2
  | .modinv => .modinv cmd.rd cmd.rs1 cmd.rs2
  | .prime => .prime cmd.rd cmd.rs1
  | .keygen => .keygen cmd.rd cmd.r3 cmd.r4 cmd.rs1 cmd.rs2
  | .split => .split cmd.imm4.toNat
  | .join => .join cmd.imm4.toNat
  | .encode => .encode cmd.rs1 cmd.rs2
  | .decode => .decode cmd.rs1 cmd.rs2

/-! ### The decoder (R83) -/

/-- Why a word selects no row of R81. Every one of them is the spec's ILLEGAL (R82, R84, R80). -/
inductive Illegal where
  /-- The opcode is one of 0x0D to 0x3F (R84). -/
  | reservedOpcode
  /-- The opcode is assigned and `res` is not 0 (R80). -/
  | reservedBits
  /-- The opcode is assigned, `res` is 0 and a field its row does not use is not 0 (R82). -/
  | unusedField
  deriving DecidableEq, Repr

/-- The name of the rejection of a word that selects no row. -/
def illegalName (cmd : Word) : Illegal :=
  if 0x0D#6 ≤ cmd.op then .reservedOpcode
  else if cmd.res ≠ 0 then .reservedBits
  else .unusedField

/-- The decoder of R83: the first row the word selects, or ILLEGAL. -/
def decode (cmd : Word) : Except Illegal Instr :=
  match opcodeMap.find? (fun r => r.selects cmd) with
  | some r => .ok (r.op.instr cmd)
  | none => .error (illegalName cmd)

/-- The decoder on a row of spec/opcode_table.json: an instruction of `nbits` bits whose value is `w`,
every bit above them 0. A command is exactly one 32-bit word (R86), written in one access, so a longer
value is no command. -/
def decodeTableWord (nbits w : Nat) : Option Instr :=
  if nbits ≤ 32 ∧ w < 2 ^ 32 then
    match decode (BitVec.ofNat 32 (w % 2 ^ nbits)) with
    | .ok i => some i
    | .error _ => none
  else none

/-! ### The encoder (R75, R89) -/

/-- The command word with the given fields, most significant field first, `res` being 0 (R75, R80). -/
def commandWord (op : BitVec 6) (rd rs1 rs2 r3 r4 : Reg) (imm4 : BitVec 4) : Word :=
  op ++ BitVec.ofFin (w := 4) rd ++ BitVec.ofFin (w := 4) rs1 ++ BitVec.ofFin (w := 4) rs2 ++
    BitVec.ofFin (w := 4) r3 ++ BitVec.ofFin (w := 4) r4 ++ 0#2 ++ imm4

/-- The word a command assembles to (R89), 0 in every field the command does not use (R88). -/
def encode : Instr → Word
  | .nop => commandWord 0x00 0 0 0 0 0 0
  | .modexp rd b e n => commandWord 0x01 rd b e n 0 0
  | .modmul rd a b n => commandWord 0x02 rd a b n 0 0
  | .modred rd a n => commandWord 0x03 rd a n 0 0 0
  | .gcd rd a b => commandWord 0x04 rd a b 0 0 0
  | .xgcd g s a b => commandWord 0x05 g a b s 0 0
  | .modinv rd a m => commandWord 0x06 rd a m 0 0 0
  | .prime rd a => commandWord 0x07 rd a 0 0 0 0
  | .keygen n pub priv p q => commandWord 0x08 n p q pub priv 0
  | .split w => commandWord 0x09 0 0 0 0 0 (BitVec.ofNat 4 w)
  | .join w => commandWord 0x0A 0 0 0 0 0 (BitVec.ofNat 4 w)
  | .encode n k => commandWord 0x0B 0 n k 0 0 0
  | .decode n k => commandWord 0x0C 0 n k 0 0 0

/-! ### What the opcode map says of a command's operands (R81) -/

/-- The row of the opcode map a command belongs to. -/
def Instr.op : Instr → Op
  | .nop => .nop
  | .modexp _ _ _ _ => .modexp
  | .modmul _ _ _ _ => .modmul
  | .modred _ _ _ => .modred
  | .gcd _ _ _ => .gcd
  | .xgcd _ _ _ _ => .xgcd
  | .modinv _ _ _ => .modinv
  | .prime _ _ => .prime
  | .keygen _ _ _ _ _ => .keygen
  | .split _ => .split
  | .join _ => .join
  | .encode _ _ => .encode
  | .decode _ _ => .decode

/-- The big registers a command's row lists as destinations, in the order they are written: `rd`, then
`r3`, then `r4` (R81, R96). -/
def Instr.dests : Instr → List Reg
  | .nop => []
  | .modexp rd _ _ _ => [rd]
  | .modmul rd _ _ _ => [rd]
  | .modred rd _ _ => [rd]
  | .gcd rd _ _ => [rd]
  | .xgcd g s _ _ => [g, s]
  | .modinv rd _ _ => [rd]
  | .prime rd _ => [rd]
  | .keygen n pub priv _ _ => [n, pub, priv]
  | .split _ => []
  | .join _ => []
  | .encode _ _ => []
  | .decode _ _ => []

/-- The big registers a command's row lists as sources, in the order its pseudocode reads them. -/
def Instr.sources : Instr → List Reg
  | .nop => []
  | .modexp _ b e n => [b, e, n]
  | .modmul _ a b n => [a, b, n]
  | .modred _ a n => [a, n]
  | .gcd _ a b => [a, b]
  | .xgcd _ _ a b => [a, b]
  | .modinv _ a m => [a, m]
  | .prime _ a => [a]
  | .keygen _ _ _ p q => [p, q]
  | .split _ => []
  | .join _ => []
  | .encode n k => [n, k]
  | .decode n k => [n, k]

/-- Whether a command is one of the four byte commands, which read the source region and write the
destination region of DMEM (R44, R62). -/
def Instr.usesRegions : Instr → Bool
  | .nop => false
  | .modexp _ _ _ _ => false
  | .modmul _ _ _ _ => false
  | .modred _ _ _ => false
  | .gcd _ _ _ => false
  | .xgcd _ _ _ _ => false
  | .modinv _ _ _ => false
  | .prime _ _ => false
  | .keygen _ _ _ _ _ => false
  | .split _ => true
  | .join _ => true
  | .encode _ _ => true
  | .decode _ _ => true

end Sys2Proof
end

