-- ==== Sys2Proof/Config.lean ====
section
/-! DEFINITION. What one implementation fixes (the three OPEN parameters of 00_scope.md section 4)
and the values the spec leaves free. The parameters are data that State carries, so that a statement
about every state is a statement about every implementation; the free values have no body, so that
nothing can be proved of their value. -/

namespace Sys2Proof

/-- The OPEN parameters `OPW`, `DMEM_SIZE` and `ENGINE_BASE` (R9, R10, R11), held as the number of
steps above their least value, so that every value of this type is legal and every legal value is one
of this type. DESIGN CHOICE (log 2), safe. -/
structure Params where
  /-- `OPW = 64 + 32 * opwSteps`. -/
  opwSteps : Fin 127
  /-- `DMEM_SIZE = 16 + 4 * dmemSteps`. -/
  dmemSteps : Fin 4093
  /-- `ENGINE_BASE = 0x8000 * baseSteps`. -/
  baseSteps : Nat
  deriving DecidableEq, Repr

/-- `OPW`, the width of a big register in bits (R9). -/
def Params.opw (p : Params) : Nat := 64 + 32 * p.opwSteps.val

/-- The number of 32-bit words of a big register, `OPW / 32` (R58). -/
def Params.words (p : Params) : Nat := 2 + p.opwSteps.val

/-- `DMEM_SIZE`, the size of DMEM in bytes (R10). -/
def Params.dmemSize (p : Params) : Nat := 16 + 4 * p.dmemSteps.val

/-- `ENGINE_BASE`, the host address of the register window (R11). -/
def Params.engineBase (p : Params) : Nat := 0x8000 * p.baseSteps

/-- The parameters of `State.reset`: `OPW = 64` and `DMEM_SIZE = 256`, which 95_test_vectors.md
assumes, and `ENGINE_BASE = 0`. DESIGN CHOICE (log 2): the spec leaves all three OPEN. -/
def Params.ofReset : Params := { opwSteps := 0, dmemSteps := 60, baseSteps := 0 }

/-- The word a host read returns where the spec calls the value unspecified (R49, R204): a free value,
applied to the counter `State.draws` (log 5). -/
opaque Config.freeWord : Nat → Word

/-- What the chip computes with where word `word` of big register `reg` is a source and is unspecified
("the chip would compute with some value", R97): a free value, applied to the counter `State.draws`, the
register and the word (log 28). -/
opaque Config.freeRegWord : (draws reg word : Nat) → Word

/-- What the chip computes with where the byte of DMEM at `addr` is a source byte and is unspecified (R97):
a free value, applied to the counter `State.draws` and the address (log 28). -/
opaque Config.freeByte : (draws addr : Nat) → Byte

/-- The randomness source (R46): which element of the candidate set a KEYGEN completion draws, a free
value applied to the counter `State.draws` and taken modulo the size of the set (log 6). -/
opaque Config.drawIndex : Nat → Nat

/-- What a host's key-text parser answers on a two-field text that is not the text of a key, and on two
fields with a trailing newline: the spec leaves the leniency open (R20, N12, D41; log 19). -/
opaque Config.lenientKeyText : List Byte → Option (Nat × Nat)

end Sys2Proof
end

