-- ==== Sys2Proof/Machine/State.lean ====
section
/-! DEFINITION. The state of the machine as plain data: the architectural state of 10_state.md, the
hidden in-flight state (R48), and the model's own fields for what reaches the engine from outside. The
reasons a step can stop (60_exceptions.md R193). The state right after reset. -/

namespace Sys2Proof.Machine

/-- One big register (R23): the unsigned integer it holds and the 32-bit words of it, by number and in
rising order, whose value is unspecified (R49, R58). The bits of an unspecified word are kept 0, so that
equal contents are equal data (log 14); no operation gives them out. -/
structure BigReg where
  val : Nat
  unspec : List Nat
  deriving DecidableEq, Repr

/-- DMEM (R28): the bytes that have a value, by address, addresses strictly rising. A byte that is not
listed is unspecified (R49): it has no value (log 7). -/
abbrev Memory := List Host.Cell

/-- STATUS without BUSY (R37): BUSY is 1 exactly while a command is pending (R38, R48; log 8), so it is
stored once, as `State.pending`. -/
structure Status where
  /-- bit 1, DONE (R39). -/
  done : Bool
  /-- bit 2, ERR (R40). -/
  err : Bool
  /-- bit 3, OVR (R41). -/
  ovr : Bool
  /-- bits 11:8, ERRCODE (R40, R173). -/
  errcode : BitVec 4
  deriving DecidableEq, Repr

/-- The operands a command may read, as they stand at its issue (R93, R96). -/
structure Snapshot where
  x : Vector BigReg 16
  dmem : Memory
  srcAddr : Word
  srcLen : Word
  dstAddr : Word
  dstCap : Word
  deriving DecidableEq, Repr

/-- The command in flight (R48, R93): its word and the snapshot taken at its issue. -/
structure Pending where
  cmd : Word
  snap : Snapshot
  deriving DecidableEq, Repr

/-- One host access: its host address, its width in bytes and, for a write, the value. Only a 4-byte
access at an aligned offset of the window is admitted (R55). -/
inductive Access where
  /-- `MmioRead` of R15, of any width and at any address. -/
  | read (addr width : Nat)
  /-- `MmioWrite` of R15, of any width and at any address. -/
  | write (addr width : Nat) (value : Word)
  deriving DecidableEq, Repr

/-- What comes next from outside the engine (R22, R71, R194; log 4). -/
inductive Input where
  /-- The host's next access. -/
  | host (access : Access)
  /-- The host and the platform leave the engine its step. -/
  | engine
  /-- The platform asserts the power-on reset (R194). -/
  | powerOn
  deriving DecidableEq, Repr

/-- The operand a command read although its value is unspecified (R97). -/
inductive Operand where
  /-- A source big register, some word of which is unspecified. -/
  | reg (r : Reg)
  /-- A source byte of DMEM. -/
  | byte (addr : Nat)
  deriving DecidableEq, Repr

/-- The record of one model fault `UNSPECIFIED_OPERAND` (R97), "naming the command and the operand". -/
structure OperandFault where
  /-- The word of the command that read the operand. -/
  cmd : Word
  operand : Operand
  deriving DecidableEq, Repr

/-- The state of the engine, its in-flight command and its environment. -/
structure State where
  /-- `OPW`, `DMEM_SIZE` and `ENGINE_BASE` (R9, R10, R11): constant, and read through PARAM_OPW and
  PARAM_DMEM (R34). -/
  params : Params
  /-- The big registers `x[0]` to `x[15]` (R23). -/
  x : Vector BigReg 16
  /-- DMEM (R28). -/
  dmem : Memory
  /-- CTRL.IRQ_EN (R35); CTRL.SRST has no storage. -/
  irqEn : Bool
  /-- STATUS.DONE, ERR, OVR and ERRCODE (R37). -/
  status : Status
  /-- LASTCMD (R43). -/
  lastCmd : Word
  /-- SRC_ADDR (R44). -/
  srcAddr : Word
  /-- SRC_LEN (R44). -/
  srcLen : Word
  /-- DST_ADDR (R44). -/
  dstAddr : Word
  /-- DST_CAP (R44). -/
  dstCap : Word
  /-- DST_LEN (R45). -/
  dstLen : Word
  /-- The command in flight (R48); STATUS.BUSY is 1 exactly while there is one (R38). -/
  pending : Option Pending
  /-- THE MODEL'S OWN (log 5): the counter the free values are applied to. -/
  draws : Nat
  /-- THE MODEL'S OWN (log 4): what is still to come from outside, oldest first. -/
  inputs : List Input
  /-- THE MODEL'S OWN (log 15): the value the last host read returned. -/
  readData : Option Word
  /-- THE MODEL'S OWN, asked for by R97 and R193 (log 28): the faults `UNSPECIFIED_OPERAND` recorded so
  far, oldest first; never cleared. A run that has recorded one is not final. -/
  operandFaults : List OperandFault
  deriving DecidableEq, Repr

/-- Reasons the step stops. Of the two model-only outcomes of R193, UNSPECIFIED_OPERAND is a record in
`State.operandFaults` and stops nothing; the other is this. -/
inductive Fault where
  /-- A host access that R55 does not admit, raised by the step when no other agent has a step: "the
  host agent is stuck". Safe: the model stops where some chip would act. -/
  | hostStuck (access : Access)
  deriving DecidableEq, Repr

/-- Reasons to refuse. The spec has none: "the engine has no refusal" (R193). -/
inductive Refusal where
  /-- An instruction the model gives no meaning: raised by no arm of exec as it stands. Safe. -/
  | notModelled (mnemonic : String)
  deriving DecidableEq, Repr

/-- STATUS at reset (R50): every field 0. -/
def Status.zero : Status := { done := false, err := false, ovr := false, errcode := 0 }

/-- The machine right after power-on reset (R50, R196): every control and status register 0, no pending
command, no DMEM byte with a value. DESIGN CHOICE, unsafe (log 1): every big register holds 0, where the
spec says its value is unspecified (R197); the parameters are `Params.ofReset` (log 2). -/
def State.reset : State where
  params := Params.ofReset
  x := Vector.replicate 16 { val := 0, unspec := [] }
  dmem := []
  irqEn := false
  status := Status.zero
  lastCmd := 0
  srcAddr := 0
  srcLen := 0
  dstAddr := 0
  dstCap := 0
  dstLen := 0
  pending := none
  draws := 0
  inputs := []
  readData := none
  operandFaults := []

end Sys2Proof.Machine
end

