-- ==== Sys2Proof/Machine/Flags.lean ====
section
/-! DEFINITION. STATUS, the only flags of the engine (10_state.md R37 to R41, R51), the error codes
(60_exceptions.md R173), CTRL as the host reads it, and the interrupt line. -/

namespace Sys2Proof.Machine

/-- The error codes of R173; the codes 0xC to 0xF are reserved and never produced (R174). -/
inductive ErrCode where
  | none | illegal | invalidArg | notPrimeP | notPrimeQ | noCandidate | divZero | noInverse
  | widthOverflow | byteOverflow | memRange | overlap
  deriving DecidableEq, Repr

/-- The value ERRCODE receives (R173). -/
def ErrCode.code : ErrCode → BitVec 4
  | .none => 0x0
  | .illegal => 0x1
  | .invalidArg => 0x2
  | .notPrimeP => 0x3
  | .notPrimeQ => 0x4
  | .noCandidate => 0x5
  | .divZero => 0x6
  | .noInverse => 0x7
  | .widthOverflow => 0x8
  | .byteOverflow => 0x9
  | .memRange => 0xA
  | .overlap => 0xB

/-- STATUS.BUSY (R38, R48): a command is in flight. -/
def State.busy (s : State) : Bool := s.pending.isSome

/-- STATUS at an issue (R93): ERR, ERRCODE and DONE cleared, OVR kept (R41). -/
def Status.issued (st : Status) : Status := { st with done := false, err := false, errcode := 0 }

/-- STATUS at a completion with code `c` (R95): ERRCODE the code, ERR whether it is not 0, DONE 1, OVR
kept. -/
def Status.completed (st : Status) (c : ErrCode) : Status :=
  { st with done := true, err := decide (c.code ≠ 0), errcode := c.code }

/-- STATUS when a write is dropped (R41): OVR 1. -/
def Status.dropped (st : Status) : Status := { st with ovr := true }

/-- STATUS after a host write of `v` to it (R37): DONE cleared if bit 1 of `v` is 1, OVR if bit 3 is 1;
all other written bits are ignored. -/
def Status.acknowledged (st : Status) (v : Word) : Status :=
  { st with done := st.done && !v.getLsbD 1, ovr := st.ovr && !v.getLsbD 3 }

/-- STATUS as the host reads it (R37): bits 31:12 and 7:4 read 0. -/
def State.statusWord (s : State) : Word :=
  0#20 ++ s.status.errcode ++ 0#4 ++ BitVec.ofBool s.status.ovr ++ BitVec.ofBool s.status.err ++
    BitVec.ofBool s.status.done ++ BitVec.ofBool s.busy

/-- CTRL as the host reads it (R35): IRQ_EN in bit 0; SRST and the reserved bits read 0. -/
def State.ctrlWord (s : State) : Word := 0#31 ++ BitVec.ofBool s.irqEn

/-- The interrupt line (R47, R183): `irq = STATUS.DONE and CTRL.IRQ_EN`. -/
def State.irq (s : State) : Bool := s.status.done && s.irqEn

end Sys2Proof.Machine
end

