-- ==== Sys2Proof/Machine/Ops.lean ====
section
/-! DEFINITION. The named operations over DMEM, the big registers and the command in flight: reading and
writing a byte, a word and a register, issue (40_control.md R93), completion and failure (R95, R176),
soft reset with its abort (70_reset_and_hazards.md R198, R199) and the platform's power-on reset (R196,
R197). Failing with an error code is the one shared operation `raise`: the engine has no trap entry and
no return (60_exceptions.md R169, R179). -/

namespace Sys2Proof.Machine

/-! ### DMEM -/

/-- The value of byte `a`, if it has one (R28, R49). -/
def Memory.read : Memory → Nat → Option Byte
  | [], _ => none
  | c :: m, a => if c.1 = a then some c.2 else Memory.read m a

/-- Byte `a` receives `b` (R15 `MemWrite`); the addresses stay strictly rising. -/
def Memory.write : Memory → Nat → Byte → Memory
  | [], a, b => [(a, b)]
  | c :: m, a, b =>
    if a < c.1 then (a, b) :: c :: m
    else if a = c.1 then (a, b) :: m
    else c :: Memory.write m a b

/-- The bytes `bs` are written from address `a` on, one a byte (R59, R65). -/
def Memory.writeBytes (m : Memory) (a : Nat) : List Byte → Memory
  | [] => m
  | b :: bs => Memory.writeBytes (Memory.write m a b) (a + 1) bs

/-- The bytes of `[a, a + n)` become unspecified (R199); a byte outside DMEM has no entry to lose, so
the region is clipped to DMEM. -/
def Memory.forget (m : Memory) (a n : Nat) : Memory :=
  m.filter (fun c => !(decide (a ≤ c.1) && decide (c.1 < a + n)))

/-- The canonical form: addresses strictly rising. An unlisted byte has no value, so no entry equals
what an unlisted byte reads as. -/
def Memory.wf (m : Memory) : Bool := decide (m.Pairwise (fun c d => c.1 < d.1))

/-- Every listed byte is a byte of a DMEM of `size` bytes (R28). -/
def Memory.inside (size : Nat) (m : Memory) : Bool := m.all (fun c => decide (c.1 < size))

/-- The four bytes of a word, byte lane 0 first: bits [8k+7:8k] are byte `k` (R56). -/
def wordBytes (v : Word) : List Byte :=
  [v.extractLsb' 0 8, v.extractLsb' 8 8, v.extractLsb' 16 8, v.extractLsb' 24 8]

/-- The word whose byte lanes are `b0` to `b3` (R56, R59): byte `k` in bits [7:0]. -/
def bytesWord (b0 b1 b2 b3 : Byte) : Word := b3 ++ b2 ++ b1 ++ b0

/-- The word of the DMEM window at byte `k` (R59); an unspecified byte reads as its lane of the free
word `free` (R49). -/
def Memory.readWord (m : Memory) (k : Nat) (free : Word) : Word :=
  bytesWord
    ((Memory.read m k).getD (free.extractLsb' 0 8))
    ((Memory.read m (k + 1)).getD (free.extractLsb' 8 8))
    ((Memory.read m (k + 2)).getD (free.extractLsb' 16 8))
    ((Memory.read m (k + 3)).getD (free.extractLsb' 24 8))

/-! ### Big registers -/

/-- A register that holds the value `v` in every word (R15 `x[i] <- v`). -/
def BigReg.ofNat (v : Nat) : BigReg := { val := v, unspec := [] }

/-- A register of `words` words, every one of them unspecified (R49). -/
def BigReg.unspecified (words : Nat) : BigReg := { val := 0, unspec := List.range words }

/-- The value of a register as an operand, if every word of it is specified (R58, R97). -/
def BigReg.value? (r : BigReg) : Option Nat := if r.unspec = [] then some r.val else none

/-- Word `j` of a register: bits [32j+31:32j] (R57). -/
def BigReg.word (r : BigReg) (j : Nat) : Word := BitVec.ofNat 32 (r.val / 2 ^ (32 * j))

/-- Bits [32j+31:32j] of a register replaced by `v`, its other bits unchanged (R57); word `j` is then
specified (R58). -/
def BigReg.setWord (r : BigReg) (j : Nat) (v : Word) : BigReg where
  val := r.val % 2 ^ (32 * j) + 2 ^ (32 * j) * (v.toNat + 2 ^ 32 * (r.val / 2 ^ (32 * (j + 1))))
  unspec := r.unspec.filter (fun k => k != j)

/-- The value a register holds when each of its unspecified words is given by `free` (R97): the specified
words keep their bits. -/
def BigReg.fill (r : BigReg) (free : Nat → Word) : Nat :=
  (r.unspec.foldl (fun b j => b.setWord j (free j)) r).val

/-- What a register of `words` words always is: a value below `2^OPW` (R23), and its unspecified words
in rising order, each below `words`, each with its bits kept 0 (log 14). -/
def BigReg.wf (words : Nat) (r : BigReg) : Bool :=
  decide (r.val < 2 ^ (32 * words)) && decide (r.unspec.Pairwise (· < ·)) &&
    r.unspec.all (fun j => decide (j < words) && r.word j == 0)

/-- Big register `r` as it stands. -/
def State.reg (s : State) (r : Reg) : BigReg := s.x.get r

/-- Big register `r` receives `b`. -/
def State.setReg (s : State) (r : Reg) (b : BigReg) : State :=
  { s with x := s.x.set r.val b }

/-- `x[r] <- v` (R15). -/
def State.writeReg (s : State) (r : Reg) (v : Nat) : State := s.setReg r (BigReg.ofNat v)

/-- DMEM receives `m`. -/
def State.setDmem (s : State) (m : Memory) : State := { s with dmem := m }

/-! ### The command in flight -/

/-- The operands as they stand (R93). -/
def State.snapshot (s : State) : Snapshot where
  x := s.x
  dmem := s.dmem
  srcAddr := s.srcAddr
  srcLen := s.srcLen
  dstAddr := s.dstAddr
  dstCap := s.dstCap

/-- Issue of the word `cmd` (R93): LASTCMD records it, ERR, ERRCODE and DONE are cleared, and the
operands are captured. The word is not decoded. -/
def State.issue (s : State) (cmd : Word) : State :=
  { s with
    lastCmd := cmd
    status := s.status.issued
    pending := some { cmd := cmd, snap := s.snapshot } }

/-- The operands a completion reads (R96): the snapshot of the pending command; with none pending, where
the engine has no completion step, the state as it stands (log 26). -/
def State.source (s : State) : Snapshot :=
  match s.pending with
  | some p => p.snap
  | none => s.snapshot

/-- The word of the command in flight, which UNSPECIFIED_OPERAND names (R97); with none pending, the
last one (log 26). -/
def State.commandInFlight (s : State) : Word :=
  match s.pending with
  | some p => p.cmd
  | none => s.lastCmd

/-- The model fault UNSPECIFIED_OPERAND is recorded once for each of `os` (R97), naming the command in
flight and the operand; the command goes on (log 28). -/
def State.record (s : State) (os : List Operand) : State :=
  { s with operandFaults := s.operandFaults ++ os.map (OperandFault.mk s.commandInFlight) }

/-- The end of a completion with code `c` (R95): ERRCODE, ERR and DONE set, BUSY 0. The counter of free
values goes on (log 5). -/
def State.finish (s : State) (c : ErrCode) : State :=
  { s with status := s.status.completed c, pending := none, draws := s.draws + 1 }

/-- The outcome of a step or of a meaning. -/
abbrev Result := Host.Outcome State Fault Refusal

/-- `complete()` (R16, R95): the command's writes stand and the code is NONE. -/
def complete (s : State) : Result := .next (s.finish .none)

/-- `raise ERR(c)` (R16, R95, R176): the command has written nothing; the code is `c`. THE shared
operation of every failure. -/
def raise (c : ErrCode) (s : State) : Result := .next (s.finish c)

/-- The completion of a word that selects no row (R100). -/
def completeIllegal (s : State) : Result := raise .illegal s

/-- The counter of free values goes on (log 5). -/
def State.drawn (s : State) : State := { s with draws := s.draws + 1 }

/-! ### Reset -/

/-- Big register `r` becomes unspecified (R49, R199). -/
def State.forgetReg (s : State) (r : Reg) : State :=
  s.setReg r (BigReg.unspecified s.params.words)

/-- The destinations of the pending command become unspecified (R199): the registers its row names, and,
for a byte command, the destination region as it stood at issue; none for an illegal word. -/
def State.abort (s : State) : State :=
  match s.pending with
  | none => s
  | some p =>
    match decode p.cmd with
    | .error _ => s
    | .ok i =>
      let t := i.dests.foldl State.forgetReg s
      if i.usesRegions then
        t.setDmem (Memory.forget t.dmem p.snap.dstAddr.toNat p.snap.dstCap.toNat)
      else t

/-- Every control and status register 0 and no pending command (R50, R196, R198). -/
def State.clearControl (s : State) : State :=
  { s with
    irqEn := false
    status := Status.zero
    lastCmd := 0
    srcAddr := 0
    srcLen := 0
    dstAddr := 0
    dstCap := 0
    dstLen := 0
    pending := none }

/-- Soft reset (R198): the pending command is aborted, then the control and status registers are
cleared; big registers and DMEM keep their values but for the aborted destinations. -/
def State.softReset (s : State) : State := s.abort.clearControl

/-- The power-on reset asserted by the platform (R194, R196, R197): every control and status register 0,
the pending command discarded, every big-register word and every DMEM byte unspecified. The model's own
fields go on (log 16). -/
def State.powerOnReset (s : State) : State :=
  { s.clearControl with
    x := Vector.replicate 16 (BigReg.unspecified s.params.words)
    dmem := [] }

end Sys2Proof.Machine
end

