-- ==== Sys2Proof/Machine/Operands.lean ====
section
/-! DEFINITION. The operand forms: a source big register (30_encoding.md R87) and the source region of a
byte command (20_memory.md R62), each with the free value of an unspecified operand and the record of the
model fault (40_control.md R97; log 28); the region and overlap checks (R63, R64) and the output commit
(R65). All of them read the snapshot taken at issue (R96). -/

namespace Sys2Proof.Machine

/-! ### Source big registers -/

/-- The value of source register `r`, if it is specified. -/
def Snapshot.value? (n : Snapshot) (r : Reg) : Option Nat := (n.x.get r).value?

/-- The value a command computes with for source register `r`: its value, an unspecified word of it
being a free value (R97). Within one command a register has one value (R96). -/
def State.operand (s : State) (r : Reg) : Nat :=
  (s.source.x.get r).fill (Config.freeRegWord s.draws r.val)

/-- The operand whose reading is to be recorded, if source register `r` is unspecified (R97). -/
def State.missingReg (s : State) (r : Reg) : List Operand :=
  if (s.source.value? r).isSome then [] else [.reg r]

/-- The meaning goes on with the value of source register `r`, in the state that has recorded the fault if
the register is unspecified (R97). -/
def withReg (s : State) (r : Reg) (k : Nat → State → Result) : Result :=
  k (s.operand r) (s.record (s.missingReg r))

/-! ### Regions of DMEM -/

/-- A region reaches past DMEM, the sums unbounded integers (R63). -/
def Snapshot.outOfRange (size : Nat) (n : Snapshot) : Bool :=
  decide (size < n.srcAddr.toNat + n.srcLen.toNat) || decide (size < n.dstAddr.toNat + n.dstCap.toNat)

/-- The source region and the destination region share a byte (R64). -/
def Snapshot.overlapping (n : Snapshot) : Bool :=
  decide (0 < n.srcLen.toNat) && decide (0 < n.dstCap.toNat) &&
    decide (n.srcAddr.toNat < n.dstAddr.toNat + n.dstCap.toNat) &&
    decide (n.dstAddr.toNat < n.srcAddr.toNat + n.srcLen.toNat)

/-- The first two checks of every byte command (R105, R107, R155, R162): the regions, then the overlap. -/
def State.regionError? (s : State) : Option ErrCode :=
  if s.source.outOfRange s.params.dmemSize then some .memRange
  else if s.source.overlapping then some .overlap
  else none

/-- An output of `len` bytes is longer than DST_CAP (R65). -/
def State.tooLong (s : State) (len : Nat) : Bool := decide (s.source.dstCap.toNat < len)

/-- SRC_LEN of the snapshot. -/
def State.sourceLen (s : State) : Nat := s.source.srcLen.toNat

/-! ### Source bytes -/

/-- Source byte `t`, the one at `SRC_ADDR + t` (R62): its value, or a free one where it is unspecified
(R97). -/
def State.sourceByte (s : State) (t : Nat) : Byte :=
  (Memory.read s.source.dmem (s.source.srcAddr.toNat + t)).getD
    (Config.freeByte s.draws (s.source.srcAddr.toNat + t))

/-- The source of a byte command, `SRC_LEN` bytes (R62). -/
def State.sourceBytes (s : State) : List Byte := (List.range s.sourceLen).map s.sourceByte

/-- The unspecified ones among the first `n` source bytes, whose reading is to be recorded (R97). -/
def State.missingBytes (s : State) (n : Nat) : List Operand :=
  ((List.range n).filter fun t =>
    (Memory.read s.source.dmem (s.source.srcAddr.toNat + t)).isNone).map fun t =>
      .byte (s.source.srcAddr.toNat + t)

/-- `f` applied to each byte in order, if it accepts every one. -/
def mapBytes? (f : Byte → Option Byte) : List Byte → Option (List Byte)
  | [] => some []
  | b :: bs =>
    match f b with
    | none => none
    | some c =>
      match mapBytes? f bs with
      | none => none
      | some cs => some (c :: cs)

/-- How many bytes are read by a command that goes through them in order and ends at the first one `f`
does not accept ("when it is first read", R155, R162; logs 12 and 13). -/
def readCount (f : Byte → Option Byte) : List Byte → Nat
  | [] => 0
  | b :: bs =>
    match f b with
    | none => 1
    | some _ => readCount f bs + 1

/-- The meaning goes on with what `f` makes of the source bytes, or fails with `c` at a byte `f` does not
accept, in the state that has recorded the unspecified bytes read (R97). -/
def withSource (s : State) (f : Byte → Option Byte) (c : ErrCode) (k : List Byte → State → Result) :
    Result :=
  match mapBytes? f s.sourceBytes with
  | some out => k out (s.record (s.missingBytes (readCount f s.sourceBytes)))
  | none => raise c (s.record (s.missingBytes (readCount f s.sourceBytes)))

/-! ### Output commit -/

/-- DMEM and DST_LEN after the output `out` (R65): `out[t]` at `DST_ADDR + t`, DST_LEN its length. -/
def State.output (s : State) (out : List Byte) : State :=
  { s with
    dmem := Memory.writeBytes s.dmem s.source.dstAddr.toNat out
    dstLen := BitVec.ofNat 32 out.length }

/-- A successful byte command (R65): the output is written and the command completes. -/
def commit (s : State) (out : List Byte) : Result := complete (s.output out)

end Sys2Proof.Machine
end

