-- ==== Sys2Proof/Machine/Arith.lean ====
section
/-! DEFINITION. Modular arithmetic and primality (42_arith.md): MODEXP, MODMUL, MODRED, GCD, XGCD,
MODINV, PRIME. Each result is the exact value its rule defines (R4, R112); the functions below compute
it by a fast method, and Sys2Proof/Laws/Arith.lean says that the value is the rule's (log 23). Every
meaning reads its source registers in the order of its pseudocode before its own checks (R113). -/

namespace Sys2Proof.Machine

/-! ### The functions -/

/-- `bitlen(v)`: 0 for 0, otherwise the least `k` with `v < 2^k` (R13). -/
def bitlen (v : Nat) : Nat := if v = 0 then 0 else Nat.log2 v + 1

/-- `acc * b^e mod n` by repeated squaring, `e` having at most as many bits as the first argument says
(R114). -/
def powModLoop (n : Nat) : Nat → Nat → Nat → Nat → Nat
  | 0, _, _, acc => acc
  | f + 1, b, e, acc =>
    powModLoop n f (b * b % n) (e / 2) (if e % 2 = 1 then acc * b % n else acc)

/-- `(b ^ e) mod n` for `n >= 1`, with `b^0 = 1` (R115, R116). -/
def powMod (b e n : Nat) : Nat := powModLoop n (bitlen e) (b % n) e (1 % n)

/-- Extended Euclid on remainders `r0`, `r1` with coefficients `s0`, `s1`: the coefficient of the last
remainder that is not 0 (R124). -/
def euclidLoop : Nat → Nat → Nat → Int → Int → Int
  | 0, _, _, s0, _ => s0
  | f + 1, r0, r1, s0, s1 =>
    if r1 = 0 then s0 else euclidLoop f r1 (r0 % r1) s1 (s0 - (r0 / r1 : Nat) * s1)

/-- The coefficient of XGCD (R124): for `b >= 1`, the unique `s` in `[0, b div g)` with
`(a * s) mod b = g mod b`, where `g = gcd(a, b)`. -/
def xgcdCoeff (a b : Nat) : Nat :=
  (euclidLoop (b + 1) a b 1 0 % ((b / Nat.gcd a b : Nat) : Int)).toNat

/-- `inv(a, m)` for `gcd(a, m) = 1` and `m >= 1`: the unique `y` in `[0, m)` with
`(a * y) mod m = 1 mod m` (R17), which is the coefficient of XGCD. -/
def inv (a m : Nat) : Nat := xgcdCoeff a m

/-- No number from `k` up to the square root of `v` divides `v`, the first argument bounding how many
are tried (R129). -/
def noDivisorFrom (v : Nat) : Nat → Nat → Bool
  | 0, _ => true
  | f + 1, k => if v < k * k then true else if v % k = 0 then false else noDivisorFrom v f (k + 1)

/-- `isPrime(v)`, the predicate of trial division (R131). -/
def isPrime (v : Nat) : Bool := decide (2 ≤ v) && noDivisorFrom v v 2

/-! ### The meanings -/

/-- MODEXP (R115): `x[rd] <- (b ^ e) mod n`; DIV_ZERO for modulus 0. -/
def execModexp (rd rb re rn : Reg) (s : State) : Result :=
  withReg s rb fun b s => withReg s re fun e s => withReg s rn fun n s =>
    if n = 0 then raise .divZero s else complete (s.writeReg rd (powMod b e n))

/-- MODMUL (R118): `x[rd] <- (a * b) mod n`, the exact product reduced; DIV_ZERO for modulus 0. -/
def execModmul (rd ra rb rn : Reg) (s : State) : Result :=
  withReg s ra fun a s => withReg s rb fun b s => withReg s rn fun n s =>
    if n = 0 then raise .divZero s else complete (s.writeReg rd (a * b % n))

/-- MODRED (R120): `x[rd] <- a mod n`; DIV_ZERO for modulus 0. -/
def execModred (rd ra rn : Reg) (s : State) : Result :=
  withReg s ra fun a s => withReg s rn fun n s =>
    if n = 0 then raise .divZero s else complete (s.writeReg rd (a % n))

/-- GCD (R122): `x[rd] <- gcd(a, b)`, with `gcd(a, 0) = a` and `gcd(0, 0) = 0` (R123). -/
def execGcd (rd ra rb : Reg) (s : State) : Result :=
  withReg s ra fun a s => withReg s rb fun b s => complete (s.writeReg rd (Nat.gcd a b))

/-- XGCD (R124): `x[g] <- gcd(a, b)`, then `x[s] <-` the coefficient, so that one register named twice
ends as the coefficient; INVALID_ARG for `b = 0`. -/
def execXgcd (rg rs ra rb : Reg) (s : State) : Result :=
  withReg s ra fun a s => withReg s rb fun b s =>
    if b = 0 then raise .invalidArg s
    else complete ((s.writeReg rg (Nat.gcd a b)).writeReg rs (xgcdCoeff a b))

/-- MODINV (R126): `x[rd] <- inv(a, m)`; DIV_ZERO for modulus 0, NO_INVERSE where there is none. -/
def execModinv (rd ra rm : Reg) (s : State) : Result :=
  withReg s ra fun a s => withReg s rm fun m s =>
    if m = 0 then raise .divZero s
    else if Nat.gcd a m ≠ 1 then raise .noInverse s
    else complete (s.writeReg rd (inv a m))

/-- PRIME (R132): `x[rd] <- 1` if the source is prime, else 0; "not prime" is a result, not an error. -/
def execPrime (rd ra : Reg) (s : State) : Result :=
  withReg s ra fun v s => complete (s.writeReg rd (if isPrime v then 1 else 0))

end Sys2Proof.Machine
end

