-- ==== Sys2Proof/Machine/BitPacker.lean ====
section
/-! DEFINITION. The BitPacker (41_bitpacker.md): the functions `split` and `join` on bit strings written
most significant bit first (00_scope.md R14), and the commands SPLIT and JOIN. -/

namespace Sys2Proof.Machine

/-! ### Bit strings (R14) -/

/-- `bitsMSB(v, k)`: the `k` low bits of `v`, most significant first (R14). -/
def bitsMSB (v : Nat) : Nat → List Bool
  | 0 => []
  | k + 1 => v.testBit k :: bitsMSB v k

/-- `val(s)`: the number a bit string denotes, most significant bit first, 0 for the empty one (R14). -/
def bitsVal (s : List Bool) : Nat := s.foldl (fun v b => 2 * v + b.toNat) 0

/-- Byte `j` is `val(S[j*w .. j*w + w))`, for `j` from 0 to `count - 1` (R102, R103). -/
def groups (S : List Bool) (w count : Nat) : List Byte :=
  (List.range count).map fun j => BitVec.ofNat 8 (bitsVal ((S.drop (j * w)).take w))

/-- The concatenation of `bitsMSB(data[t], k)` (R102, R103). -/
def bitString (data : List Byte) (k : Nat) : List Bool := data.flatMap fun b => bitsMSB b.toNat k

/-! ### split and join -/

/-- `ceil(8 * len / w)`, the number of groups of SPLIT (R102, R106). -/
def splitLen (len w : Nat) : Nat := (8 * len + w - 1) / w

/-- `(w * len) div 8`, the number of bytes of JOIN (R103, R108). -/
def joinLen (len w : Nat) : Nat := w * len / 8

/-- `split(data, w)` (R102): the bits of `data`, padded with zero bits on the right, in groups of `w`. -/
def split (data : List Byte) (w : Nat) : List Byte :=
  groups
    (bitString data 8 ++ List.replicate (splitLen data.length w * w - 8 * data.length) false)
    w (splitLen data.length w)

/-- `join(data, w)` (R103): the low `w` bits of each byte of `data`, in bytes, an incomplete last byte
discarded. -/
def join (data : List Byte) (w : Nat) : List Byte :=
  groups (bitString data w) 8 (joinLen data.length w)

/-! ### The meanings -/

/-- A width outside [1, 7] (R104). -/
def badWidth (w : Nat) : Bool := decide (w < 1) || decide (7 < w)

/-- SPLIT (R105). -/
def execSplit (w : Nat) (s : State) : Result :=
  match s.regionError? with
  | some c => raise c s
  | none =>
    if badWidth w then raise .invalidArg s
    else if s.tooLong (splitLen s.sourceLen w) then raise .memRange s
    else withSource s some .none fun data s => commit s (split data w)

/-- JOIN (R107). -/
def execJoin (w : Nat) (s : State) : Result :=
  match s.regionError? with
  | some c => raise c s
  | none =>
    if badWidth w then raise .invalidArg s
    else if s.tooLong (joinLen s.sourceLen w) then raise .memRange s
    else withSource s some .none fun data s => commit s (join data w)

end Sys2Proof.Machine
end

