-- ==== Sys2Proof/Machine/Codec.lean ====
section
/-! DEFINITION. The encoder and the decoder (44_codec.md): ENCODE and DECODE. -/

namespace Sys2Proof.Machine

/-! ### Common definitions (R150 to R154) -/

/-- `isAlnum(b)`: `b` in 0x30..0x39, 0x41..0x5A or 0x61..0x7A (R152). -/
def isAlnum (b : Byte) : Bool :=
  (decide (0x30 ≤ b.toNat) && decide (b.toNat ≤ 0x39)) ||
    (decide (0x41 ≤ b.toNat) && decide (b.toNat ≤ 0x5A)) ||
    (decide (0x61 ≤ b.toNat) && decide (b.toNat ≤ 0x7A))

/-- The unit width `w = bitlen(n) - 1` of a modulus `n >= 2` (R153), one definition for both sides
(R150). -/
def unitWidth (n : Nat) : Nat := bitlen n - 1

/-- The unit size `m = max(1, ceil(bitlen(n) / 8))` (R154). -/
def unitSize (n : Nat) : Nat := max 1 ((bitlen n + 7) / 8)

/-- A number in `m` bytes, little-endian: byte `t` carries bits [8t+7:8t] (R68, R157). -/
def leBytes (m v : Nat) : List Byte :=
  (List.range m).map fun t => BitVec.ofNat 8 (v / 256 ^ t)

/-- The number of a little-endian group: the sum of `group[t] * 256^t` (R162, R163). -/
def leValue : List Byte → Nat
  | [] => 0
  | b :: bs => b.toNat + 256 * leValue bs

/-- `data` in `m`-byte groups (R163): group `j` is bytes `[j*m, j*m + m)`. -/
def leGroups (m : Nat) (data : List Byte) : List Nat :=
  (List.range (data.length / m)).map fun j => leValue ((data.drop (j * m)).take m)

/-- The result of one unit of the per-byte branch, if it fits in one byte (R156, R160, R164). -/
def byteResult? (k n : Nat) (b : Byte) : Option Byte :=
  if powMod b.toNat k n < 256 then some (BitVec.ofNat 8 (powMod b.toNat k n)) else none

/-! ### ENCODE -/

/-- The alphanumeric check of ENCODE on one byte (R152, R155). -/
def alnumByte? (b : Byte) : Option Byte := if isAlnum b then some b else none

/-- The packed branch of ENCODE (R157): the units of the message, each raised to `k` modulo `n`, each
result in `m` bytes. -/
def encodePacked (n k : Nat) (msg : List Byte) : List Byte :=
  (split msg (unitWidth n)).flatMap fun u => leBytes (unitSize n) (powMod u.toNat k n)

/-- The output length of the packed branch of ENCODE (R155, R158). -/
def encodePackedLen (n len : Nat) : Nat := splitLen len (unitWidth n) * unitSize n

/-- ENCODE (R155). -/
def execEncode (rn rk : Reg) (s : State) : Result :=
  match s.regionError? with
  | some c => raise c s
  | none =>
    withReg s rn fun n s => withReg s rk fun k s =>
      if n < 2 then raise .invalidArg s
      else
        withSource s alnumByte? .invalidArg fun msg s =>
          if 256 ≤ n then
            if s.tooLong msg.length then raise .memRange s
            else
              match mapBytes? (byteResult? k n) msg with
              | none => raise .byteOverflow s
              | some out => commit s out
          else if s.tooLong (encodePackedLen n msg.length) then raise .memRange s
          else commit s (encodePacked n k msg)

/-! ### DECODE -/

/-- The packed branch of DECODE (R163): the little-endian units of the source, each raised to `k` modulo
`n`, joined at width `w`. A result below `n < 256` is one byte. -/
def decodePacked (n k : Nat) (data : List Byte) : List Byte :=
  join ((leGroups (unitSize n) data).map fun c => BitVec.ofNat 8 (powMod c k n)) (unitWidth n)

/-- The output length of the packed branch of DECODE (R162, R165). -/
def decodePackedLen (n len : Nat) : Nat := joinLen (len / unitSize n) (unitWidth n)

/-- DECODE (R162). The length check of the packed branch is kept though it never fails, `m` being 1
there (R166, 90_conflicts.md C8). -/
def execDecode (rn rk : Reg) (s : State) : Result :=
  match s.regionError? with
  | some c => raise c s
  | none =>
    withReg s rn fun n s => withReg s rk fun k s =>
      if n < 2 then raise .invalidArg s
      else if 256 ≤ n then
        if s.tooLong s.sourceLen then raise .memRange s
        else withSource s (byteResult? k n) .byteOverflow fun out s => commit s out
      else if s.sourceLen % unitSize n ≠ 0 then raise .invalidArg s
      else if s.tooLong (decodePackedLen n s.sourceLen) then raise .memRange s
      else withSource s some .none fun data s => commit s (decodePacked n k data)

end Sys2Proof.Machine
end

