-- ==== Sys2Proof/Machine/Control.lean ====
section
/-! DEFINITION. NOP (40_control.md R98). -/

namespace Sys2Proof.Machine

/-- NOP (R98): `complete()`. It reads no operand. -/
def execNop (s : State) : Result := complete s

end Sys2Proof.Machine
end

