-- ==== Sys2Proof/Machine/KeyGen.lean ====
section
/-! DEFINITION. The key-pair generator (43_keygen.md): KEYGEN. -/

namespace Sys2Proof.Machine

/-- `phi = (p - 1) * (q - 1)` (R136). -/
def keyPhi (p q : Nat) : Nat := (p - 1) * (q - 1)

/-- `C(phi) = { v in [2, phi) : gcd(v, phi) = 1 }` (R137), in rising order. -/
def candidates (phi : Nat) : List Nat :=
  (List.range phi).filter fun v => decide (2 ≤ v) && decide (Nat.gcd v phi = 1)

/-- `S = { v in C(phi) : inv(v, phi) != v }`, the set KEYGEN draws from (R144), in rising order. -/
def drawSet (phi : Nat) : List Nat := (candidates phi).filter fun v => decide (inv v phi ≠ v)

/-- `Draw(S)` (R16, R46): the element of the non-empty set `S` that the number `k` picks. -/
def pick (S : List Nat) (k : Nat) : Nat := S.getD (k % S.length) 0

/-- The checks of KEYGEN in their order (R141): NOT_PRIME_P, NOT_PRIME_Q, WIDTH_OVERFLOW, NO_CANDIDATE
for an empty `C`, NO_CANDIDATE for an empty `S` (R146). -/
def keygenError? (opw p q : Nat) : Option ErrCode :=
  if !isPrime p then some .notPrimeP
  else if !isPrime q then some .notPrimeQ
  else if 2 ^ opw ≤ p * q then some .widthOverflow
  else if candidates (keyPhi p q) = [] then some .noCandidate
  else if drawSet (keyPhi p q) = [] then some .noCandidate
  else none

/-- The writes of KEYGEN for the drawn exponent `e` (R141): the modulus, then the inverse `d` of `e` as
the public exponent, then `e` as the private exponent (R139); a register named twice keeps the last
(R142). -/
def State.writeKeys (s : State) (rn rpub rpriv : Reg) (p q e : Nat) : State :=
  ((s.writeReg rn (p * q)).writeReg rpub (inv e (keyPhi p q))).writeReg rpriv e

/-- KEYGEN (R141): one draw from `S` (R46), then the key pair. -/
def execKeygen (rn rpub rpriv rp rq : Reg) (s : State) : Result :=
  withReg s rp fun p s => withReg s rq fun q s =>
    match keygenError? s.params.opw p q with
    | some c => raise c s
    | none =>
      complete (s.writeKeys rn rpub rpriv p q
        (pick (drawSet (keyPhi p q)) (Config.drawIndex s.draws)))

end Sys2Proof.Machine
end

