-- ==== Sys2Proof/Machine/Dispatch.lean ====
section
/-! DEFINITION. One arm per command (30_encoding.md R81). -/

namespace Sys2Proof.Machine

def exec (i : Instr) (s : State) : Host.Outcome State Fault Refusal :=
  match i with
  | .nop => Sys2Proof.Machine.execNop s
  | .modexp rd b e n => Sys2Proof.Machine.execModexp rd b e n s
  | .modmul rd a b n => Sys2Proof.Machine.execModmul rd a b n s
  | .modred rd a n => Sys2Proof.Machine.execModred rd a n s
  | .gcd rd a b => Sys2Proof.Machine.execGcd rd a b s
  | .xgcd g c a b => Sys2Proof.Machine.execXgcd g c a b s
  | .modinv rd a m => Sys2Proof.Machine.execModinv rd a m s
  | .prime rd a => Sys2Proof.Machine.execPrime rd a s
  | .keygen n pub priv p q => Sys2Proof.Machine.execKeygen n pub priv p q s
  | .split w => Sys2Proof.Machine.execSplit w s
  | .join w => Sys2Proof.Machine.execJoin w s
  | .encode n k => Sys2Proof.Machine.execEncode n k s
  | .decode n k => Sys2Proof.Machine.execDecode n k s

end Sys2Proof.Machine
end

