-- ==== Sys2Proof/Machine/HostPort.lean ====
section
/-! DEFINITION. The host's side of the engine: which accesses are admitted (20_memory.md R55), the map
of the register window (R53), and what a read and a write of each place does (10_state.md section 4,
20_memory.md, 70_reset_and_hazards.md R198, R203, R204). -/

namespace Sys2Proof.Machine

/-- The places of the register window (R31, R53). -/
inductive Target where
  | id | version | paramOpw | paramDmem | ctrl | status | cmd | lastCmd
  | srcAddr | srcLen | dstAddr | dstCap | dstLen
  /-- A reserved offset (R54). -/
  | reserved
  /-- Word `j` of big register `r` (R57). -/
  | bigReg (r : Reg) (j : Nat)
  /-- The DMEM word at byte `k` (R59). -/
  | dmem (k : Nat)
  deriving DecidableEq, Repr

/-- The place at an aligned offset of the window (R31, R53, R57, R59). -/
def locate (off : Nat) : Target :=
  if off = 0x0000 then .id
  else if off = 0x0004 then .version
  else if off = 0x0008 then .paramOpw
  else if off = 0x000C then .paramDmem
  else if off = 0x0010 then .ctrl
  else if off = 0x0014 then .status
  else if off = 0x0018 then .cmd
  else if off = 0x001C then .lastCmd
  else if off = 0x0020 then .srcAddr
  else if off = 0x0024 then .srcLen
  else if off = 0x0028 then .dstAddr
  else if off = 0x002C then .dstCap
  else if off = 0x0030 then .dstLen
  else if off < 0x1000 then .reserved
  else if off < 0x3000 then
    .bigReg (Fin.ofNat 16 ((off - 0x1000) / 0x200)) ((off - 0x1000) % 0x200 / 4)
  else if off < 0x4000 then .reserved
  else .dmem (off - 0x4000)

/-- The offset of an access of `width` bytes at host address `addr`, if R55 admits it: a 32-bit access
at a multiple of 4 inside the 0x8000-byte window. -/
def admits? (p : Params) (addr width : Nat) : Option Nat :=
  if width = 4 ∧ p.engineBase ≤ addr ∧ addr < p.engineBase + 0x8000 ∧
      (addr - p.engineBase) % 4 = 0 then
    some (addr - p.engineBase)
  else none

/-- The offset an access reaches, if it is admitted. -/
def Access.offset? (p : Params) : Access → Option Nat
  | .read addr width => admits? p addr width
  | .write addr width _ => admits? p addr width

/-! ### Reads -/

/-- A host read of word `j` of big register `r`: 0 past the register's width (R58); a free draw while
BUSY = 1 (R204) or where the word is unspecified (R49); otherwise bits [32j+31:32j] (R57). -/
def State.readRegWord (s : State) (r : Reg) (j : Nat) : Word :=
  if s.params.words ≤ j then 0
  else if s.busy || decide (j ∈ (s.reg r).unspec) then Config.freeWord s.draws
  else (s.reg r).word j

/-- A host read of the DMEM word at byte `k`: 0 past DMEM (R60); a free draw while BUSY = 1 (R204);
otherwise the four bytes, a free draw in the lane of each unspecified one (R49, R59). -/
def State.readDmemWord (s : State) (k : Nat) : Word :=
  if s.params.dmemSize ≤ k then 0
  else if s.busy then Config.freeWord s.draws
  else Memory.readWord s.dmem k (Config.freeWord s.draws)

/-- The value a host read returns (R31 to R45, R54, R57 to R60). -/
def State.readTarget (s : State) : Target → Word
  | .id => 0x52534131
  | .version => 0x00000001
  | .paramOpw => BitVec.ofNat 32 s.params.opw
  | .paramDmem => BitVec.ofNat 32 s.params.dmemSize
  | .ctrl => s.ctrlWord
  | .status => s.statusWord
  | .cmd => 0
  | .lastCmd => s.lastCmd
  | .srcAddr => s.srcAddr
  | .srcLen => s.srcLen
  | .dstAddr => s.dstAddr
  | .dstCap => s.dstCap
  | .dstLen => s.dstLen
  | .reserved => 0
  | .bigReg r j => s.readRegWord r j
  | .dmem k => s.readDmemWord k

/-- A host read: the value is handed to the host; no state of the engine changes (R70). -/
def State.hostRead (s : State) (off : Nat) : State :=
  { s.drawn with readData := some (s.readTarget (locate off)) }

/-! ### Writes -/

/-- A host write of CTRL (R35): the soft reset if bit 1 is 1 (R198), otherwise IRQ_EN becomes bit 0. It
acts while BUSY = 1 too (R203). -/
def State.writeCtrl (s : State) (v : Word) : State :=
  if v.getLsbD 1 then s.softReset else { s with irqEn := v.getLsbD 0 }

/-- A host write of STATUS (R37); it acts while BUSY = 1 too (R203). -/
def State.writeStatus (s : State) (v : Word) : State := { s with status := s.status.acknowledged v }

/-- A write dropped because BUSY = 1: no state changes but STATUS.OVR, which becomes 1 (R41, R203). -/
def State.dropWrite (s : State) : State := { s with status := s.status.dropped }

/-- A write that is dropped while BUSY = 1 and otherwise gives `t` (R203). -/
def State.unlessBusy (s t : State) : State := if s.busy then s.dropWrite else t

/-- A host write of word `j` of big register `r` (R57), ignored past the register's width (R58). -/
def State.writeRegWord (s : State) (r : Reg) (j : Nat) (v : Word) : State :=
  if j < s.params.words then s.setReg r ((s.reg r).setWord j v) else s

/-- A host write of the DMEM word at byte `k` (R59), ignored past DMEM (R60). -/
def State.writeDmemWord (s : State) (k : Nat) (v : Word) : State :=
  if k < s.params.dmemSize then s.setDmem (Memory.writeBytes s.dmem k (wordBytes v)) else s

/-- What a host write of `v` does (R31 to R45, R54, R57 to R60, R70, R93, R94, R203); a write of a
read-only or reserved place is ignored. -/
def State.writeTarget (s : State) (v : Word) : Target → State
  | .id => s
  | .version => s
  | .paramOpw => s
  | .paramDmem => s
  | .ctrl => s.writeCtrl v
  | .status => s.writeStatus v
  | .cmd => s.unlessBusy (s.issue v)
  | .lastCmd => s
  | .srcAddr => s.unlessBusy { s with srcAddr := v }
  | .srcLen => s.unlessBusy { s with srcLen := v }
  | .dstAddr => s.unlessBusy { s with dstAddr := v }
  | .dstCap => s.unlessBusy { s with dstCap := v }
  | .dstLen => s
  | .reserved => s
  | .bigReg r j => s.unlessBusy (s.writeRegWord r j v)
  | .dmem k => s.unlessBusy (s.writeDmemWord k v)

/-- A host write. -/
def State.hostWrite (s : State) (off : Nat) (v : Word) : State := s.writeTarget v (locate off)

/-- An admitted host access at offset `off` (R69, R71: one at a time, atomic, in the host's order). -/
def State.hostAccess (s : State) (off : Nat) : Access → State
  | .read _ _ => s.hostRead off
  | .write _ _ v => s.hostWrite off v

end Sys2Proof.Machine
end

