-- ==== Sys2Proof/Machine/Engine.lean ====
section
/-! DEFINITION. The engine's one step, completion (40_control.md R95), and one step of the whole: which
agent moves is said by the inputs (10_state.md R22, 20_memory.md R71). -/

namespace Sys2Proof.Machine

/-- The engine's step. While BUSY = 1 it completes the pending command (R95); a word that decodes to no
command completes with ILLEGAL (R83, R100). While BUSY = 0 it has no step and "it holds all state
unchanged" (R192). -/
def engineStep (s : State) : Result :=
  match s.pending with
  | none => .next s
  | some p =>
    match decode p.cmd with
    | .ok i => exec i s
    | .error _ => completeIllegal s

/-- The state with the given inputs still to come. -/
def State.withInputs (s : State) (rest : List Input) : State := { s with inputs := rest }

/-- One step (log 4): the oldest input is taken. With none left, and when the input leaves the engine its
step, the engine moves. An access R55 does not admit has no step: the engine completes what is pending,
which is then the only step enabled, and after that the host is stuck (R55, R193; log 9). -/
def takeInput (s : State) : Result :=
  match s.inputs with
  | [] => engineStep s
  | .engine :: rest => engineStep (s.withInputs rest)
  | .powerOn :: rest => .next (s.withInputs rest).powerOnReset
  | .host a :: rest =>
    match a.offset? s.params with
    | some off => .next ((s.withInputs rest).hostAccess off a)
    | none => if s.busy then engineStep s else .fault (.hostStuck a)

/-- The command word `cmd` issued, and the next step left to the engine: the state after the host's
write of CMD (R93), however the engine stood before (log 3). -/
def State.placeCommand (s : State) (cmd : Word) : State :=
  { s.issue cmd with inputs := .engine :: s.inputs }

end Sys2Proof.Machine
end

