-- ==== Sys2Proof/Machine/Step.lean ====
section
/-! DEFINITION. The step, and how the host of this pipeline places one command. -/

namespace Sys2Proof.Machine

/-- One step of the machine: `takeInput`. -/
def step (s : State) : Host.Outcome State Fault Refusal := takeInput s

/-- `s` with the command of `nbits` bits whose value is `w` issued, so that the next step runs it. The
engine has no program counter and fetches nothing (R29, R30): a command comes to run by the host's write
of CMD, for which this stands (log 3). -/
def State.withFetchWord (s : State) (nbits w : Nat) : State :=
  s.placeCommand (BitVec.ofNat 32 (w % 2 ^ nbits))

end Sys2Proof.Machine
end

