-- ==== Sys2Proof/Machine/HostNotation.lean ====
section
/-! DEFINITION. The host-program notation of 30_encoding.md R92 as inputs of the machine. The host's
control flow is host code and stands in no input. -/

namespace Sys2Proof.Machine

/-- `WR OFF, V`: a host write (R92). -/
def wr (p : Params) (off : Nat) (v : Word) : Input := .host (.write (p.engineBase + off) 4 v)

/-- `RD OFF`: a host read (R92). -/
def rd (p : Params) (off : Nat) : Input := .host (.read (p.engineBase + off) 4)

/-- The offset of word `j` of big register `r` (R57). -/
def regOffset (r : Reg) (j : Nat) : Nat := 0x1000 + 0x200 * r.val + 4 * j

/-- `LDX xi, V`: the `OPW/32` writes that set `x[i] <- V` (R92). -/
def ldx (p : Params) (r : Reg) (v : Nat) : List Input :=
  (List.range p.words).map fun j => wr p (regOffset r j) (BitVec.ofNat 32 (v / 2 ^ (32 * j)))

/-- `LDM K, bytes`: the `ceil(len/4)` writes that put `bytes` at DMEM offsets `K` onward, the bytes of
the last word past the given ones written as 0 (R92). -/
def ldm (p : Params) (k : Nat) (bytes : List Byte) : List Input :=
  (List.range ((bytes.length + 3) / 4)).map fun i =>
    wr p (0x4000 + k + 4 * i)
      (bytesWord (bytes.getD (4 * i) 0) (bytes.getD (4 * i + 1) 0)
        (bytes.getD (4 * i + 2) 0) (bytes.getD (4 * i + 3) 0))

/-- `ISSUE word`: a write of CMD (R92). -/
def issueCmd (p : Params) (cmd : Word) : Input := wr p 0x0018 cmd

/-- `WAIT`, as the run that ends it: the engine takes its step and the host reads STATUS (R92; log 22). -/
def wait (p : Params) : List Input := [.engine, rd p 0x0014]

end Sys2Proof.Machine
end

