-- ==== Sys2Proof/Machine/KeyText.lean ====
section
/-! DEFINITION. The host-side key text format (00_scope.md section 7, R19 and R20): host software outside
the engine (R5), kept "so that a host model agrees with the document". No step of the machine uses it. -/

namespace Sys2Proof.Machine

/-- The upper-case hexadecimal digit of `d`, as an ASCII byte. -/
def hexDigit (d : Nat) : Byte := BitVec.ofNat 8 (if d < 10 then 0x30 + d else 0x41 + (d - 10))

/-- How many hexadecimal digits `v` has. -/
def hexLen (v : Nat) : Nat := (bitlen v + 3) / 4

/-- `v` in upper-case hexadecimal, zero-padded on the left to `pad` digits (R19). -/
def hexField (pad v : Nat) : List Byte :=
  (List.range (max pad (hexLen v))).map fun i =>
    hexDigit (v / 16 ^ (max pad (hexLen v) - 1 - i) % 16)

/-- The text of the key `(modulus, exponent)` (R19): two fields joined by one newline, each padded to
`2 * m` digits, `m` the unit size of the modulus (R154). -/
def serializeKey (modulus exponent : Nat) : List Byte :=
  hexField (2 * unitSize modulus) modulus ++ 0x0A#8 :: hexField (2 * unitSize modulus) exponent

/-- The text split strictly on newlines (R20). -/
def splitLines : List Byte → List (List Byte)
  | [] => [[]]
  | b :: bs =>
    if b = 0x0A#8 then [] :: splitLines bs
    else
      match splitLines bs with
      | f :: fs => (b :: f) :: fs
      | [] => [[b]]

/-- The number of an upper-case hexadecimal field. -/
def hexValue (field : List Byte) : Nat :=
  field.foldl (fun v b => 16 * v + (if b.toNat < 0x41 then b.toNat - 0x30 else b.toNat - 0x41 + 10)) 0

/-- Parsing (R20): the text of a key gives the key back; any number of fields other than two fails
("malformed key text", InvalidArgument). On any other two-field text, and on two fields followed by a
trailing newline, R20 and N12 leave the answer open, and it is free (log 19). -/
def parseKey (text : List Byte) : Option (Nat × Nat) :=
  match splitLines text with
  | [a, b] =>
    if serializeKey (hexValue a) (hexValue b) = text then some (hexValue a, hexValue b)
    else Config.lenientKeyText text
  | [_, _, []] => Config.lenientKeyText text
  | _ => none

end Sys2Proof.Machine
end

