-- ==== Sys2Proof/Safety.lean ====
section
/-! DEFINITION. What counts as a safe run, in the terms statements use: neither of the two model-only
outcomes of 60_exceptions.md R193 happens; and the invariant of the state. -/

namespace Sys2Proof.Machine

/-- Operand `o` is one that command `i` may read and that is unspecified (R49, R97): a source register some
word of which is, or, for a byte command, a byte of the source region that is. "Written before use" (R201)
says that there is none. -/
def State.Unspecified (s : State) (i : Instr) : Operand → Prop
  | .reg r => r ∈ i.sources ∧ s.source.value? r = none
  | .byte a => i.usesRegions = true ∧ s.source.srcAddr.toNat ≤ a ∧
      a < s.source.srcAddr.toNat + s.source.srcLen.toNat ∧ Memory.read s.source.dmem a = none

/-- The next host access, if there is one, is admitted (R55). -/
def State.hostAdmitted (s : State) : Bool :=
  match s.inputs with
  | .host a :: _ => (a.offset? s.params).isSome
  | [] => true
  | .engine :: _ => true
  | .powerOn :: _ => true

/-- The step from `s` to `t` is safe: the host is not stuck, and no `UNSPECIFIED_OPERAND` is recorded. -/
def SafeStep (s t : State) : Prop := step s = .next t ∧ t.operandFaults = s.operandFaults

/-- A safe run of `k` steps. "The run is not final" (R97) of one that is not safe: what it shows of the
chip rests on a value the model left free (log 28). -/
def SafeRun : Nat → State → Prop
  | 0, _ => True
  | k + 1, s => ∃ t, SafeStep s t ∧ SafeRun k t

/-! ### The invariant -/

/-- What STATUS always is (R38 to R40, R173, R174): ERRCODE is at most 0xB, ERR is 1 exactly when it is
not 0, and while BUSY = 1 DONE, ERR and ERRCODE are 0. -/
def State.statusWf (s : State) : Bool :=
  decide (s.status.errcode ≤ 0xB) && (s.status.err == decide (s.status.errcode ≠ 0)) &&
    (!s.busy || (!s.status.done && !s.status.err))

/-- While a command is pending, LASTCMD is its word and its snapshot is the state as it stands: "the
snapshot equals the state at completion" (R48, R96). -/
def State.pendingWf (s : State) : Bool :=
  match s.pending with
  | none => true
  | some p => decide (p.cmd = s.lastCmd) && decide (p.snap = s.snapshot)

/-- What DMEM always is: canonical and inside `DMEM_SIZE` (R28). -/
def State.dmemWf (s : State) : Bool := Memory.wf s.dmem && Memory.inside s.params.dmemSize s.dmem

/-- What the big registers always are: each below `2^OPW` and canonical (R23, R12). -/
def State.regsWf (s : State) : Bool := s.x.toList.all (BigReg.wf s.params.words)

/-- The invariant of the machine. -/
def State.wf (s : State) : Bool := s.regsWf && s.dmemWf && s.statusWf && s.pendingWf

end Sys2Proof.Machine
end

