-- ==== Sys2Proof/Certificates/Slice0/Obligations.lean ====
section
/-! DEFINITION. The statements for the provers, from the numbered rules of spec/. The words they use for a
next state are written here as record updates, apart from the operations the meanings call. -/

namespace Sys2Proof.Machine

/-! ### The words of the statements -/

/-- The four bits of a command word from bit `lo` up, as the name of a big register (R75, R87). -/
def regAt (cmd : Word) (lo : Nat) : Reg := (cmd.extractLsb' lo 4).toFin

/-- A command's encoding (R81): every word that equals `pattern` under `mask` decodes to the command whose
operands `operands` reads from it. -/
def EncodedAs (pattern mask : Word) (operands : Word → Instr) : Prop :=
  ∀ cmd : Word, cmd &&& mask = pattern → decode cmd = .ok (operands cmd)

/-- The state after a successful completion that changed `s` no further (R95): ERRCODE NONE, ERR 0, BUSY 0,
DONE 1, OVR kept. `draws` is the model's own counter of free values, which every completion advances (log 5). -/
def succeeded (s : State) : State :=
  { s with
    status := { done := true, err := false, ovr := s.status.ovr, errcode := 0 }
    pending := none
    draws := s.draws + 1 }

/-- The state after a completion that failed with the code `c` and wrote nothing else (R95, R176), but for
the model's own counter (log 5). -/
def failedWith (c : BitVec 4) (s : State) : State :=
  { s with
    status := { done := true, err := true, ovr := s.status.ovr, errcode := c }
    pending := none
    draws := s.draws + 1 }

/-- `x[r] <- v`, every word of the register specified. -/
def withX (r : Reg) (v : Nat) (s : State) : State := { s with x := s.x.set r.val { val := v, unspec := [] } }

/-- What comes next is a host write of `v` at offset `off` of the window, then `rest`. -/
def hostWrites (s : State) (off : Nat) (v : Word) (rest : List Input) : Prop :=
  s.inputs = .host (.write (s.params.engineBase + off) 4 v) :: rest

/-- What comes next is a host read at offset `off` of the window, then `rest`. -/
def hostReads (s : State) (off : Nat) (rest : List Input) : Prop :=
  s.inputs = .host (.read (s.params.engineBase + off) 4) :: rest

/-- The next step is the engine's, `rest` remaining. -/
def enginesTurn (s : State) (rest : List Input) : Prop :=
  s.inputs = .engine :: rest ∨ (s.inputs = [] ∧ rest = [])

/-- Both regions of the operands lie inside DMEM (R63). -/
def RegionsFit (s : State) : Prop :=
  s.source.srcAddr.toNat + s.source.srcLen.toNat ≤ s.params.dmemSize ∧
    s.source.dstAddr.toNat + s.source.dstCap.toNat ≤ s.params.dmemSize

/-- The two regions share a byte (R64). -/
def RegionsShare (s : State) : Prop :=
  0 < s.source.srcLen.toNat ∧ 0 < s.source.dstCap.toNat ∧
    s.source.srcAddr.toNat < s.source.dstAddr.toNat + s.source.dstCap.toNat ∧
    s.source.dstAddr.toNat < s.source.srcAddr.toNat + s.source.srcLen.toNat

/-- The source bytes are `data`, every one of them specified (R62). -/
def SourceIs (s : State) (data : List Byte) : Prop :=
  data.length = s.source.srcLen.toNat ∧
    ∀ t, t < s.source.srcLen.toNat →
      Memory.read s.source.dmem (s.source.srcAddr.toNat + t) = data[t]?

/-- A byte command succeeded with the output `out` (R65): `out[j]` stands at `DST_ADDR + j`, every byte
outside reads as before, DST_LEN is the output's length, and nothing else changed but STATUS. -/
def OutputIs (s : State) (out : List Byte) (t : State) : Prop :=
  t = succeeded { s with dmem := t.dmem, dstLen := BitVec.ofNat 32 out.length } ∧
    (∀ j, j < out.length → Memory.read t.dmem (s.source.dstAddr.toNat + j) = out[j]?) ∧
    ∀ a, a < s.source.dstAddr.toNat ∨ s.source.dstAddr.toNat + out.length ≤ a →
      Memory.read t.dmem a = Memory.read s.dmem a

/-- A digit or a letter of ASCII (R152). -/
def AlnumByte (b : Byte) : Prop :=
  (0x30 ≤ b.toNat ∧ b.toNat ≤ 0x39) ∨ (0x41 ≤ b.toNat ∧ b.toNat ≤ 0x5A) ∨
    (0x61 ≤ b.toNat ∧ b.toNat ≤ 0x7A)

/-- Source byte `n` is unspecified (R49). -/
def UnspecifiedByte (s : State) (n : Nat) : Prop :=
  n < s.source.srcLen.toNat ∧ Memory.read s.source.dmem (s.source.srcAddr.toNat + n) = none

/-- Source byte `n` is the first unspecified one (R49), and every byte before it satisfies `ok`. -/
def FirstUnspecified (s : State) (n : Nat) (ok : Byte → Prop) : Prop :=
  UnspecifiedByte s n ∧
    ∀ t, t < n → ∃ b, Memory.read s.source.dmem (s.source.srcAddr.toNat + t) = some b ∧ ok b

/-- Command `i` goes on to a next state, and has then recorded the model fault `UNSPECIFIED_OPERAND` naming
the command word `cmd` and the operand `o` (R97; the record is the model's form, log 28). -/
def Records (i : Instr) (s : State) (cmd : Word) (o : Operand) : Prop :=
  ∃ t new, exec i s = .next t ∧ t.operandFaults = s.operandFaults ++ new ∧
    { cmd := cmd, operand := o } ∈ new

/-- The offsets of the writes that are dropped while BUSY = 1 (R203): CMD, the region registers, every
big-register word and every DMEM word (those past a register's width and past DMEM too, log 11). -/
def DroppedWhileBusy (off : Nat) : Prop :=
  off = 0x0018 ∨ (0x0020 ≤ off ∧ off < 0x0030) ∨ (0x1000 ≤ off ∧ off < 0x3000) ∨
    (0x4000 ≤ off ∧ off < 0x8000)

/-- The predicate of trial division (R131). -/
def TrialPrime (v : Nat) : Prop := 2 ≤ v ∧ ∀ k, 2 ≤ k → k ≤ Nat.sqrt v → v % k ≠ 0

/-- `v` is in the set KEYGEN draws from (R144): a unit modulo `phi` in `[2, phi)` that is not its own
inverse. -/
def Drawable (phi v : Nat) : Prop := 2 ≤ v ∧ v < phi ∧ Nat.gcd v phi = 1 ∧ v * v % phi ≠ 1 % phi

end Sys2Proof.Machine

open Sys2Proof Sys2Proof.Machine

/-! ### Encoding (30_encoding.md) -/

/-- Words written out from the map of R81 and the table of R89, one of every family. -/
def Obligations.DecodeListedWords : Prop :=
  decode 0x00000000 = .ok .nop ∧ decode 0x04C04800 = .ok (.modexp 3 0 1 2) ∧
  decode 0x094D1800 = .ok (.modmul 5 3 4 6) ∧ decode 0x1288C000 = .ok (.gcd 10 2 3) ∧
  decode 0x14804C00 = .ok (.xgcd 2 3 0 1) ∧ decode 0x1908C000 = .ok (.modinv 4 2 3) ∧
  decode 0x1D440000 = .ok (.prime 5 1) ∧ decode 0x20048D00 = .ok (.keygen 0 3 4 1 2) ∧
  decode 0x24000005 = .ok (.split 5) ∧ decode 0x2800000F = .ok (.join 15) ∧
  decode 0x2C00C000 = .ok (.encode 0 3) ∧ decode 0x30010000 = .ok (.decode 0 4)

/-- The word a well-formed command assembles to (R89) decodes to that command (R83). -/
def Obligations.DecodeOfEncode : Prop := ∀ i : Instr, i.wellFormed = true → decode (encode i) = .ok i

/-- A word that decodes to a command is the one word that command assembles to: no bit of it is a
don't-care (R82), and the command is well formed. -/
def Obligations.EncodeOfDecode : Prop :=
  ∀ (cmd : Word) (i : Instr), decode cmd = .ok i → i.wellFormed = true ∧ encode i = cmd

/-- A word decodes to a command exactly when it selects a row of the map (R83). -/
def Obligations.DecodesWhenRowSelected : Prop :=
  ∀ cmd : Word, (∃ i, decode cmd = .ok i) ↔ ∃ r ∈ opcodeMap, cmd &&& r.mask = r.pattern

/-- Every word with `cmd[31:26]` in 0x0D..0x3F (R84), and every word with `cmd[5:4]` not 0 (R80), is
illegal. -/
def Obligations.ReservedWordsIllegal : Prop :=
  ∀ cmd : Word,
    (0x0D ≤ (cmd.extractLsb' 26 6).toNat → decode cmd = .error .reservedOpcode) ∧
    (cmd.extractLsb' 4 2 ≠ 0 → ∃ e, decode cmd = .error e)

/-! ### Issue and completion (40_control.md) -/

/-- A step of the engine runs the command its pending word decodes to (R95). -/
def Obligations.StepRunsPendingCommand : Prop :=
  ∀ (s : State) (p : Pending) (i : Instr) (rest : List Input),
    s.pending = some p → decode p.cmd = .ok i → enginesTurn s rest →
      step s = exec i { s with inputs := rest }

/-- Issue (R93): a host write of CMD while BUSY = 0. -/
def Obligations.IssueCapturesOperands : Prop :=
  ∀ (s : State) (cmd : Word) (rest : List Input),
    s.pending = none → hostWrites s 0x0018 cmd rest →
      step s = .next { s with
        inputs := rest
        lastCmd := cmd
        status := { done := false, err := false, ovr := s.status.ovr, errcode := 0 }
        pending := some { cmd := cmd, snap := {
          x := s.x, dmem := s.dmem, srcAddr := s.srcAddr, srcLen := s.srcLen,
          dstAddr := s.dstAddr, dstCap := s.dstCap } } }

/-- A word that selects no row of the map, issued while BUSY = 0 and then left to the engine (R100): it
completes with code 0x1, LASTCMD holds the word, and no register, no byte and no other state is changed
(`draws` is the model's own counter, log 5). -/
def Obligations.IllegalWordCompletes : Prop :=
  ∀ (s : State) (cmd : Word) (rest : List Input),
    s.pending = none → (∀ r ∈ opcodeMap, cmd &&& r.mask ≠ r.pattern) →
    hostWrites s 0x0018 cmd (.engine :: rest) →
      ∃ u, step s = .next u ∧
        step u = .next { s with
          inputs := rest
          lastCmd := cmd
          status := { done := true, err := true, ovr := s.status.ovr, errcode := 0x1 }
          pending := none
          draws := s.draws + 1 }

/-- While the engine is idle and nothing is to come, it holds all state unchanged (R192). -/
def Obligations.IdleHoldsState : Prop :=
  ∀ s : State, s.pending = none → s.inputs = [] → step s = .next s

/-- NOP (R98): the one word 0 is its encoding, any other word with `op` = 0x00 is illegal, and it completes
in every state. -/
def Obligations.NopCompletes : Prop :=
  (∀ cmd : Word, decode cmd = .ok .nop ↔ cmd = 0x00000000) ∧
  (∀ cmd : Word, cmd.extractLsb' 26 6 = 0x00 → cmd ≠ 0x00000000 → ∃ e, decode cmd = .error e) ∧
  ∀ s : State, exec .nop s = .next (succeeded s)

/-- Every command completes, in every state, whether or not its operands are specified (R95, R193): it
leaves the engine idle with DONE = 1, and ERR says whether ERRCODE is not 0. If they are all specified (R201),
no model fault is recorded. -/
def Obligations.EveryCommandCompletes : Prop :=
  ∀ (i : Instr) (s : State),
    ∃ t, exec i s = .next t ∧ t.pending = none ∧ t.status.done = true ∧
      (t.status.err = true ↔ t.status.errcode ≠ 0) ∧ t.status.errcode ≤ 0xB ∧
      ((∀ o, ¬ s.Unspecified i o) → t.operandFaults = s.operandFaults)

/-- What the model records of R97's fault, naming the command's word and the operand, while the command goes
on. R97 says that a command reading an unspecified operand records the fault, naming the operand. The rest is
the model's: that the command goes on beside the record is its reading (log 28), and that EACH ONE of several
unspecified operands read is recorded, R97 giving no number and no order, is its choice (log 17, DESIGN CHOICE).
So, by that choice: every unspecified source register, after the region checks where the command has them;
every unspecified source byte of SPLIT and JOIN and of the packed branch of DECODE, after the checks their
rules (R105, R107, R162) put before the reading of the source; and, in the order of reading that is the
model's too, the first unspecified byte of ENCODE while every byte before is alphanumeric (log 12) and of the
per-byte branch of DECODE while every byte before gives a value below 256 (log 13). Nothing is recorded but
unspecified operands of the command. -/
def Obligations.UnspecifiedOperandsRecorded : Prop :=
  (∀ (i : Instr) (s : State) (p : Pending) (r : Reg),
    s.pending = some p → (i.usesRegions = true → RegionsFit s ∧ ¬ RegionsShare s) →
    r ∈ i.sources → s.source.value? r = none → Records i s p.cmd (.reg r)) ∧
  (∀ (s : State) (p : Pending) (rs1 rs2 : Reg) (w n m k : Nat),
    s.pending = some p → RegionsFit s → ¬ RegionsShare s →
      (UnspecifiedByte s n → 1 ≤ w → w ≤ 7 →
        ((8 * s.source.srcLen.toNat + w - 1) / w ≤ s.source.dstCap.toNat →
          Records (.split w) s p.cmd (.byte (s.source.srcAddr.toNat + n))) ∧
        (w * s.source.srcLen.toNat / 8 ≤ s.source.dstCap.toNat →
          Records (.join w) s p.cmd (.byte (s.source.srcAddr.toNat + n)))) ∧
      (s.source.value? rs1 = some m → s.source.value? rs2 = some k →
        (2 ≤ m → FirstUnspecified s n AlnumByte →
          Records (.encode rs1 rs2) s p.cmd (.byte (s.source.srcAddr.toNat + n))) ∧
        (256 ≤ m → s.source.srcLen.toNat ≤ s.source.dstCap.toNat →
          FirstUnspecified s n (fun b => b.toNat ^ k % m < 256) →
          Records (.decode rs1 rs2) s p.cmd (.byte (s.source.srcAddr.toNat + n))) ∧
        (2 ≤ m → m < 256 → 2 ^ w ≤ m → m < 2 ^ (w + 1) →
          w * s.source.srcLen.toNat / 8 ≤ s.source.dstCap.toNat → UnspecifiedByte s n →
          Records (.decode rs1 rs2) s p.cmd (.byte (s.source.srcAddr.toNat + n))))) ∧
  ∀ (i : Instr) (s t : State) (p : Pending), s.pending = some p → exec i s = .next t →
    ∃ new, t.operandFaults = s.operandFaults ++ new ∧
      ∀ e ∈ new, e.cmd = p.cmd ∧ s.Unspecified i e.operand

/-- "The chip would compute with some value" (R97): there are operands that agree with the command's own on
every specified word and byte and on its regions, and have a value for every register and every byte of the
source region, with which the command ends exactly as it does with its own, but for the record. That one
register has one value within a command is the model's reading (log 28). -/
def Obligations.UnspecifiedOperandsComputeWithSomeValue : Prop :=
  ∀ (i : Instr) (s : State) (p : Pending), s.pending = some p →
    ∃ n : Snapshot,
      (∀ r, ∃ v, n.value? r = some v ∧ (s.wf = true → v < 2 ^ s.params.opw) ∧
        ∀ b, b / 32 ∉ (p.snap.x.get r).unspec → v.testBit b = (p.snap.x.get r).val.testBit b) ∧
      n.srcAddr = p.snap.srcAddr ∧ n.srcLen = p.snap.srcLen ∧ n.dstAddr = p.snap.dstAddr ∧
      n.dstCap = p.snap.dstCap ∧
      (∀ a b, Memory.read p.snap.dmem a = some b → Memory.read n.dmem a = some b) ∧
      (∀ j, j < p.snap.srcLen.toNat → ∃ b, Memory.read n.dmem (p.snap.srcAddr.toNat + j) = some b) ∧
      ∃ t u, exec i s = .next t ∧ exec i { s with pending := some { cmd := p.cmd, snap := n } } = .next u ∧
        t = { u with operandFaults := t.operandFaults }

/-- A command reads its operands from the snapshot taken at issue and from nothing else (R96): two states
with the same command in flight, of one implementation and at the same draw, end with the same code and,
on success, with the same value in every destination register, the same DST_LEN and the same output. -/
def Obligations.OperandsComeFromSnapshot : Prop :=
  ∀ (i : Instr) (s s' : State) (p : Pending) (t : State),
    s.pending = some p → s'.pending = some p → s'.params = s.params → s'.draws = s.draws →
    exec i s = .next t →
      ∃ t', exec i s' = .next t' ∧ t'.status.errcode = t.status.errcode ∧
        (t.status.err = false →
          (∀ r ∈ i.dests, t'.reg r = t.reg r) ∧
          (i.usesRegions = true → t'.dstLen = t.dstLen ∧
            ∀ j, j < t.dstLen.toNat →
              Memory.read t'.dmem (p.snap.dstAddr.toNat + j) = Memory.read t.dmem (p.snap.dstAddr.toNat + j)))

/-! ### Modular arithmetic and primality (42_arith.md) -/

/-- MODEXP (R115). -/
def Obligations.ModexpResult : Prop :=
  EncodedAs 0x04000000 0xFC0003FF (fun c => .modexp (regAt c 22) (regAt c 18) (regAt c 14) (regAt c 10)) ∧
  ∀ (s : State) (rd rs1 rs2 r3 : Reg) (b e n : Nat),
    s.source.value? rs1 = some b → s.source.value? rs2 = some e → s.source.value? r3 = some n →
      (n = 0 → exec (.modexp rd rs1 rs2 r3) s = .next (failedWith 0x6 s)) ∧
      (n ≠ 0 → exec (.modexp rd rs1 rs2 r3) s = .next (succeeded (withX rd (b ^ e % n) s)))

/-- MODMUL (R118). -/
def Obligations.ModmulResult : Prop :=
  EncodedAs 0x08000000 0xFC0003FF (fun c => .modmul (regAt c 22) (regAt c 18) (regAt c 14) (regAt c 10)) ∧
  ∀ (s : State) (rd rs1 rs2 r3 : Reg) (a b n : Nat),
    s.source.value? rs1 = some a → s.source.value? rs2 = some b → s.source.value? r3 = some n →
      (n = 0 → exec (.modmul rd rs1 rs2 r3) s = .next (failedWith 0x6 s)) ∧
      (n ≠ 0 → exec (.modmul rd rs1 rs2 r3) s = .next (succeeded (withX rd (a * b % n) s)))

/-- MODRED (R120). -/
def Obligations.ModredResult : Prop :=
  EncodedAs 0x0C000000 0xFC003FFF (fun c => .modred (regAt c 22) (regAt c 18) (regAt c 14)) ∧
  ∀ (s : State) (rd rs1 rs2 : Reg) (a n : Nat),
    s.source.value? rs1 = some a → s.source.value? rs2 = some n →
      (n = 0 → exec (.modred rd rs1 rs2) s = .next (failedWith 0x6 s)) ∧
      (n ≠ 0 → exec (.modred rd rs1 rs2) s = .next (succeeded (withX rd (a % n) s)))

/-- GCD (R122): the number written divides both operands, and every common divisor divides it; it is `a`
for `b = 0` (R17), so 0 for two zeros. -/
def Obligations.GcdResult : Prop :=
  EncodedAs 0x10000000 0xFC003FFF (fun c => .gcd (regAt c 22) (regAt c 18) (regAt c 14)) ∧
  ∀ (s : State) (rd rs1 rs2 : Reg) (a b : Nat),
    s.source.value? rs1 = some a → s.source.value? rs2 = some b →
      ∃ g, exec (.gcd rd rs1 rs2) s = .next (succeeded (withX rd g s)) ∧
        g ∣ a ∧ g ∣ b ∧ (∀ d, d ∣ a → d ∣ b → d ∣ g) ∧ (b = 0 → g = a)

/-- XGCD (R124): `g`, then the unique `s`, written last. -/
def Obligations.XgcdResult : Prop :=
  EncodedAs 0x14000000 0xFC0003FF (fun c => .xgcd (regAt c 22) (regAt c 10) (regAt c 18) (regAt c 14)) ∧
  ∀ (s : State) (rd r3 rs1 rs2 : Reg) (a b : Nat),
    s.source.value? rs1 = some a → s.source.value? rs2 = some b →
      (b = 0 → exec (.xgcd rd r3 rs1 rs2) s = .next (failedWith 0x2 s)) ∧
      (b ≠ 0 → ∃ c, exec (.xgcd rd r3 rs1 rs2) s =
          .next (succeeded (withX r3 c (withX rd (Nat.gcd a b) s))) ∧
        c < b / Nat.gcd a b ∧ a * c % b = Nat.gcd a b % b ∧
        ∀ c', c' < b / Nat.gcd a b → a * c' % b = Nat.gcd a b % b → c' = c)

/-- MODINV (R126). -/
def Obligations.ModinvResult : Prop :=
  EncodedAs 0x18000000 0xFC003FFF (fun c => .modinv (regAt c 22) (regAt c 18) (regAt c 14)) ∧
  ∀ (s : State) (rd rs1 rs2 : Reg) (a m : Nat),
    s.source.value? rs1 = some a → s.source.value? rs2 = some m →
      (m = 0 → exec (.modinv rd rs1 rs2) s = .next (failedWith 0x6 s)) ∧
      (m ≠ 0 → Nat.gcd a m ≠ 1 → exec (.modinv rd rs1 rs2) s = .next (failedWith 0x7 s)) ∧
      (m ≠ 0 → Nat.gcd a m = 1 →
        ∃ y, exec (.modinv rd rs1 rs2) s = .next (succeeded (withX rd y s)) ∧
          y < m ∧ a * y % m = 1 % m ∧ ∀ y', y' < m → a * y' % m = 1 % m → y' = y)

/-- PRIME (R132), with the predicate of R131. -/
def Obligations.PrimeResult : Prop :=
  EncodedAs 0x1C000000 0xFC03FFFF (fun c => .prime (regAt c 22) (regAt c 18)) ∧
  ∀ (s : State) (rd rs1 : Reg) (v : Nat),
    s.source.value? rs1 = some v →
      (TrialPrime v → exec (.prime rd rs1) s = .next (succeeded (withX rd 1 s))) ∧
      (¬ TrialPrime v → exec (.prime rd rs1) s = .next (succeeded (withX rd 0 s)))

/-! ### Key generator (43_keygen.md) -/

/-- KEYGEN (R141): its errors in check order, and on success the modulus, the inverse `d` as the public
exponent and the drawn `e` as the private one, written in that order. Which element of the set is drawn is a
free value (log 6). -/
def Obligations.KeygenResult : Prop :=
  EncodedAs 0x20000000 0xFC00003F (fun c =>
    .keygen (regAt c 22) (regAt c 10) (regAt c 6) (regAt c 18) (regAt c 14)) ∧
  ∀ (s : State) (rd r3 r4 rs1 rs2 : Reg) (p q : Nat),
    s.source.value? rs1 = some p → s.source.value? rs2 = some q →
      (¬ TrialPrime p → exec (.keygen rd r3 r4 rs1 rs2) s = .next (failedWith 0x3 s)) ∧
      (TrialPrime p → ¬ TrialPrime q → exec (.keygen rd r3 r4 rs1 rs2) s = .next (failedWith 0x4 s)) ∧
      (TrialPrime p → TrialPrime q → 2 ^ s.params.opw ≤ p * q →
        exec (.keygen rd r3 r4 rs1 rs2) s = .next (failedWith 0x8 s)) ∧
      (TrialPrime p → TrialPrime q → p * q < 2 ^ s.params.opw →
        (∀ v, ¬ Drawable ((p - 1) * (q - 1)) v) →
        exec (.keygen rd r3 r4 rs1 rs2) s = .next (failedWith 0x5 s)) ∧
      (TrialPrime p → TrialPrime q → p * q < 2 ^ s.params.opw →
        (∃ v, Drawable ((p - 1) * (q - 1)) v) →
        ∃ e d, Drawable ((p - 1) * (q - 1)) e ∧ d < (p - 1) * (q - 1) ∧
          e * d % ((p - 1) * (q - 1)) = 1 ∧
          exec (.keygen rd r3 r4 rs1 rs2) s = .next (succeeded
            (withX r4 e (withX r3 d (withX rd (p * q) s)))))

/-- The keys of a successful KEYGEN whose three destinations differ (R145): the modulus is `p * q`, the
exponents are units in `[2, phi)`, inverse to each other modulo `phi`, and they differ. -/
def Obligations.KeygenKeyRelation : Prop :=
  ∀ (s t : State) (rd r3 r4 rs1 rs2 : Reg) (p q : Nat),
    s.source.value? rs1 = some p → s.source.value? rs2 = some q →
    rd ≠ r3 → rd ≠ r4 → r3 ≠ r4 →
    exec (.keygen rd r3 r4 rs1 rs2) s = .next t → t.status.err = false →
      ∃ P Q, (t.reg rd).value? = some (p * q) ∧ (t.reg r3).value? = some P ∧ (t.reg r4).value? = some Q ∧
        P * Q % ((p - 1) * (q - 1)) = 1 ∧ 2 ≤ P ∧ P < (p - 1) * (q - 1) ∧ 2 ≤ Q ∧
        Q < (p - 1) * (q - 1) ∧ Nat.gcd Q ((p - 1) * (q - 1)) = 1 ∧
        Nat.gcd P ((p - 1) * (q - 1)) = 1 ∧ P ≠ Q

/-- The candidate set is empty exactly when `phi <= 2` (R143). -/
def Obligations.CandidatesEmpty : Prop := ∀ phi : Nat, candidates phi = [] ↔ phi ≤ 2

/-! ### BitPacker (41_bitpacker.md) -/

/-- `split` bit by bit (R102): group `j` holds bits `j*w` to `j*w + w - 1` of the data, byte 0's bit 7
first, most significant first, zeros past the end; `ceil(8L/w)` groups, each below `2^w`. -/
def Obligations.SplitBits : Prop :=
  ∀ (data : List Byte) (w : Nat), 1 ≤ w → w ≤ 7 →
    (split data w).length = (8 * data.length + w - 1) / w ∧
    ∀ j, j < (split data w).length →
      ((split data w).getD j 0).toNat < 2 ^ w ∧
      ∀ k, k < w →
        ((split data w).getD j 0).toNat.testBit (w - 1 - k) =
          (decide (j * w + k < 8 * data.length) &&
            (data.getD ((j * w + k) / 8) 0).toNat.testBit (7 - (j * w + k) % 8))

/-- `join` bit by bit (R103): byte `k` holds bits `8k` to `8k + 7` of the concatenation of the low `w`
bits of each byte, most significant first; `(w*L) div 8` bytes, the rest discarded. -/
def Obligations.JoinBits : Prop :=
  ∀ (data : List Byte) (w : Nat), 1 ≤ w → w ≤ 7 →
    (join data w).length = w * data.length / 8 ∧
    ∀ k, k < (join data w).length → ∀ b, b < 8 →
      ((join data w).getD k 0).toNat.testBit (7 - b) =
        (data.getD ((8 * k + b) / w) 0).toNat.testBit (w - 1 - (8 * k + b) % w)

/-- `join(split(data, w), w) = data` for every width and every data (R109). -/
def Obligations.SplitJoinRoundTrip : Prop :=
  ∀ (data : List Byte) (w : Nat), 1 ≤ w → w ≤ 7 → join (split data w) w = data

/-- SPLIT (R105): its errors in check order, and its output. -/
def Obligations.SplitResult : Prop :=
  EncodedAs 0x24000000 0xFFFFFFF0 (fun c => .split (c.extractLsb' 0 4).toNat) ∧
  ∀ (s : State) (w : Nat) (data : List Byte),
    (¬ RegionsFit s → exec (.split w) s = .next (failedWith 0xA s)) ∧
    (RegionsFit s → RegionsShare s → exec (.split w) s = .next (failedWith 0xB s)) ∧
    (RegionsFit s → ¬ RegionsShare s → w < 1 ∨ 7 < w → exec (.split w) s = .next (failedWith 0x2 s)) ∧
    (RegionsFit s → ¬ RegionsShare s → 1 ≤ w → w ≤ 7 →
      s.source.dstCap.toNat < (8 * s.source.srcLen.toNat + w - 1) / w →
      exec (.split w) s = .next (failedWith 0xA s)) ∧
    (RegionsFit s → ¬ RegionsShare s → 1 ≤ w → w ≤ 7 →
      (8 * s.source.srcLen.toNat + w - 1) / w ≤ s.source.dstCap.toNat → SourceIs s data →
      ∃ t, exec (.split w) s = .next t ∧ OutputIs s (split data w) t)

/-- JOIN (R107): its errors in check order, and its output. -/
def Obligations.JoinResult : Prop :=
  EncodedAs 0x28000000 0xFFFFFFF0 (fun c => .join (c.extractLsb' 0 4).toNat) ∧
  ∀ (s : State) (w : Nat) (data : List Byte),
    (¬ RegionsFit s → exec (.join w) s = .next (failedWith 0xA s)) ∧
    (RegionsFit s → RegionsShare s → exec (.join w) s = .next (failedWith 0xB s)) ∧
    (RegionsFit s → ¬ RegionsShare s → w < 1 ∨ 7 < w → exec (.join w) s = .next (failedWith 0x2 s)) ∧
    (RegionsFit s → ¬ RegionsShare s → 1 ≤ w → w ≤ 7 →
      s.source.dstCap.toNat < w * s.source.srcLen.toNat / 8 →
      exec (.join w) s = .next (failedWith 0xA s)) ∧
    (RegionsFit s → ¬ RegionsShare s → 1 ≤ w → w ≤ 7 →
      w * s.source.srcLen.toNat / 8 ≤ s.source.dstCap.toNat → SourceIs s data →
      ∃ t, exec (.join w) s = .next t ∧ OutputIs s (join data w) t)

/-! ### Codec (44_codec.md) -/

/-- ENCODE (R155): its errors in check order, and its output in both branches. -/
def Obligations.EncodeResult : Prop :=
  EncodedAs 0x2C000000 0xFFC03FFF (fun c => .encode (regAt c 18) (regAt c 14)) ∧
  ∀ (s : State) (rs1 rs2 : Reg) (n k w : Nat) (msg : List Byte),
    (¬ RegionsFit s → exec (.encode rs1 rs2) s = .next (failedWith 0xA s)) ∧
    (RegionsFit s → RegionsShare s → exec (.encode rs1 rs2) s = .next (failedWith 0xB s)) ∧
    (RegionsFit s → ¬ RegionsShare s → s.source.value? rs1 = some n → s.source.value? rs2 = some k →
      (n < 2 → exec (.encode rs1 rs2) s = .next (failedWith 0x2 s)) ∧
      (2 ≤ n → SourceIs s msg →
        ((∃ b ∈ msg, ¬ AlnumByte b) → exec (.encode rs1 rs2) s = .next (failedWith 0x2 s)) ∧
        ((∀ b ∈ msg, AlnumByte b) →
          (256 ≤ n → s.source.dstCap.toNat < msg.length →
            exec (.encode rs1 rs2) s = .next (failedWith 0xA s)) ∧
          (256 ≤ n → msg.length ≤ s.source.dstCap.toNat → (∃ b ∈ msg, 256 ≤ b.toNat ^ k % n) →
            exec (.encode rs1 rs2) s = .next (failedWith 0x9 s)) ∧
          (256 ≤ n → msg.length ≤ s.source.dstCap.toNat → (∀ b ∈ msg, b.toNat ^ k % n < 256) →
            ∃ t, exec (.encode rs1 rs2) s = .next t ∧
              OutputIs s (msg.map fun b => BitVec.ofNat 8 (b.toNat ^ k % n)) t) ∧
          (n < 256 → 2 ^ w ≤ n → n < 2 ^ (w + 1) →
            s.source.dstCap.toNat < (8 * msg.length + w - 1) / w →
            exec (.encode rs1 rs2) s = .next (failedWith 0xA s)) ∧
          (n < 256 → 2 ^ w ≤ n → n < 2 ^ (w + 1) →
            (8 * msg.length + w - 1) / w ≤ s.source.dstCap.toNat →
            ∃ t, exec (.encode rs1 rs2) s = .next t ∧
              OutputIs s ((split msg w).map fun u => BitVec.ofNat 8 (u.toNat ^ k % n)) t))))

/-- DECODE (R162): its errors in check order, and its output in both branches. -/
def Obligations.DecodeResult : Prop :=
  EncodedAs 0x30000000 0xFFC03FFF (fun c => .decode (regAt c 18) (regAt c 14)) ∧
  ∀ (s : State) (rs1 rs2 : Reg) (n k w : Nat) (data : List Byte),
    (¬ RegionsFit s → exec (.decode rs1 rs2) s = .next (failedWith 0xA s)) ∧
    (RegionsFit s → RegionsShare s → exec (.decode rs1 rs2) s = .next (failedWith 0xB s)) ∧
    (RegionsFit s → ¬ RegionsShare s → s.source.value? rs1 = some n → s.source.value? rs2 = some k →
      (n < 2 → exec (.decode rs1 rs2) s = .next (failedWith 0x2 s)) ∧
      (256 ≤ n → s.source.dstCap.toNat < s.source.srcLen.toNat →
        exec (.decode rs1 rs2) s = .next (failedWith 0xA s)) ∧
      (256 ≤ n → s.source.srcLen.toNat ≤ s.source.dstCap.toNat → SourceIs s data →
        ((∃ b ∈ data, 256 ≤ b.toNat ^ k % n) →
          exec (.decode rs1 rs2) s = .next (failedWith 0x9 s)) ∧
        ((∀ b ∈ data, b.toNat ^ k % n < 256) →
          ∃ t, exec (.decode rs1 rs2) s = .next t ∧
            OutputIs s (data.map fun b => BitVec.ofNat 8 (b.toNat ^ k % n)) t)) ∧
      (2 ≤ n → n < 256 → 2 ^ w ≤ n → n < 2 ^ (w + 1) →
        (s.source.dstCap.toNat < w * s.source.srcLen.toNat / 8 →
          exec (.decode rs1 rs2) s = .next (failedWith 0xA s)) ∧
        (w * s.source.srcLen.toNat / 8 ≤ s.source.dstCap.toNat → SourceIs s data →
          ∃ t, exec (.decode rs1 rs2) s = .next t ∧
            OutputIs s (join (data.map fun c => BitVec.ofNat 8 (c.toNat ^ k % n)) w) t)))

/-- The packed round trip (R167): under the modulus of two distinct primes below 256 in product and
exponents inverse modulo `phi`, what the packed branch of ENCODE makes of a message, the packed branch of
DECODE turns back into it. -/
def Obligations.PackedRoundTrip : Prop :=
  ∀ (p q P Q : Nat) (msg : List Byte),
    Nat.Prime p → Nat.Prime q → p ≠ q → p * q < 256 → P * Q % ((p - 1) * (q - 1)) = 1 % ((p - 1) * (q - 1)) →
      decodePacked (p * q) Q (encodePacked (p * q) P msg) = msg

/-! ### Errors and frames (60_exceptions.md, 10_state.md R52) -/

/-- After a failed command every big register, every DMEM byte, DST_LEN and every other piece of state hold
what they held at issue, but STATUS and the command in flight (R176), and the model's own counter and record
of faults (logs 5 and 28). -/
def Obligations.FailedCommandWritesNothing : Prop :=
  ∀ (i : Instr) (s t : State), exec i s = .next t → t.status.err = true →
    t = failedWith t.status.errcode { s with operandFaults := t.operandFaults }

/-- NOP, MODEXP, MODMUL, MODRED, GCD, XGCD, MODINV, PRIME and KEYGEN change nothing but their destination
registers, STATUS (OVR kept), the command in flight (R52, R113, R147), and the model's own counter and record
of faults (logs 5 and 28). -/
def Obligations.RegisterCommandsFrame : Prop :=
  ∀ (i : Instr) (s t : State), i.usesRegions = false → exec i s = .next t →
    t = { s with
      x := t.x, status := t.status, pending := none, draws := t.draws, operandFaults := t.operandFaults } ∧
    t.status.ovr = s.status.ovr ∧ ∀ r, r ∉ i.dests → t.reg r = s.reg r

/-- SPLIT, JOIN, ENCODE and DECODE change nothing but the bytes `[DST_ADDR, DST_ADDR + DST_LEN)`, DST_LEN,
STATUS (OVR kept) and the command in flight; the bytes lie inside the destination region and inside DMEM;
on failure no byte and no DST_LEN changes (R52, R62, R65). The model's own counter and record of faults may
change (logs 5 and 28). -/
def Obligations.ByteCommandsFrame : Prop :=
  ∀ (i : Instr) (s t : State), i.usesRegions = true → exec i s = .next t →
    t = { s with
      dmem := t.dmem, dstLen := t.dstLen, status := t.status, pending := none
      draws := t.draws, operandFaults := t.operandFaults } ∧
    t.status.ovr = s.status.ovr ∧
    (t.status.err = true → t.dmem = s.dmem ∧ t.dstLen = s.dstLen) ∧
    (t.status.err = false →
      t.dstLen.toNat ≤ s.source.dstCap.toNat ∧
      s.source.dstAddr.toNat + t.dstLen.toNat ≤ s.params.dmemSize ∧
      ∀ a, a < s.source.dstAddr.toNat ∨ s.source.dstAddr.toNat + t.dstLen.toNat ≤ a →
        Memory.read t.dmem a = Memory.read s.dmem a)

/-- The interrupt line (R183): it is DONE and IRQ_EN, so after a completion it is IRQ_EN; a write of STATUS
with bit 1 = 1 lets it fall; a write of CTRL with bit 1 = 0 makes it DONE and bit 0 of the value. -/
def Obligations.InterruptLine : Prop :=
  (∀ s : State, s.irq = (s.status.done && s.irqEn)) ∧
  (∀ (i : Instr) (s t : State), exec i s = .next t → t.irq = s.irqEn) ∧
  (∀ (s : State) (v : Word) (rest : List Input), hostWrites s 0x0014 v rest → v.getLsbD 1 = true →
    ∃ t, step s = .next t ∧ t.irq = false) ∧
  (∀ (s : State) (v : Word) (rest : List Input), hostWrites s 0x0010 v rest → v.getLsbD 1 = false →
    ∃ t, step s = .next t ∧ t.irq = (s.status.done && v.getLsbD 0))

/-! ### The register window (10_state.md, 20_memory.md) -/

/-- A host access of another width, at an offset not a multiple of 4, or outside the window, has no step
(R55): with the engine idle nothing can move. That it is a fault, and that a pending command completes
first, is the model's form of "no step" (log 9). -/
def Obligations.UnadmittedAccessSticks : Prop :=
  ∀ (s : State) (addr width : Nat) (v : Word) (rest : List Input),
    s.pending = none →
    width ≠ 4 ∨ addr < s.params.engineBase ∨ s.params.engineBase + 0x8000 ≤ addr ∨
      (addr - s.params.engineBase) % 4 ≠ 0 →
      (s.inputs = .host (.read addr width) :: rest → step s = .fault (.hostStuck (.read addr width))) ∧
      (s.inputs = .host (.write addr width v) :: rest → step s = .fault (.hostStuck (.write addr width v)))

/-- ID, VERSION, PARAM_OPW and PARAM_DMEM read their constants in every state, and a write of one is
ignored (R32, R33, R34). -/
def Obligations.ConstantRegistersRead : Prop :=
  ∀ (s : State) (rest : List Input),
    (∀ off v, off = 0x0000 ∨ off = 0x0004 ∨ off = 0x0008 ∨ off = 0x000C → hostWrites s off v rest →
      step s = .next { s with inputs := rest }) ∧
    (hostReads s 0x0000 rest → ∃ t, step s = .next t ∧ t.readData = some 0x52534131) ∧
    (hostReads s 0x0004 rest → ∃ t, step s = .next t ∧ t.readData = some 0x00000001) ∧
    (hostReads s 0x0008 rest → ∃ t v, step s = .next t ∧ t.readData = some v ∧
      v.toNat = s.params.opw ∧ 64 ≤ v.toNat ∧ v.toNat ≤ 4096) ∧
    (hostReads s 0x000C rest → ∃ t v, step s = .next t ∧ t.readData = some v ∧
      v.toNat = s.params.dmemSize ∧ 16 ≤ v.toNat ∧ v.toNat ≤ 16384)

/-- STATUS as the host reads it (R37), bit by bit, BUSY being 1 while a command is pending (R38). -/
def Obligations.StatusLayout : Prop :=
  ∀ (s : State) (rest : List Input), hostReads s 0x0014 rest →
    ∃ t v, step s = .next t ∧ t.readData = some v ∧
      v.getLsbD 0 = s.pending.isSome ∧ v.getLsbD 1 = s.status.done ∧ v.getLsbD 2 = s.status.err ∧
      v.getLsbD 3 = s.status.ovr ∧ (∀ i, 4 ≤ i → i < 8 → v.getLsbD i = false) ∧
      (∀ i, i < 4 → v.getLsbD (8 + i) = s.status.errcode.getLsbD i) ∧
      ∀ i, 12 ≤ i → v.getLsbD i = false

/-- CTRL, LASTCMD, the region registers and DST_LEN read as they stand, and CMD and every reserved offset
read 0 (R35, R42 to R45, R54). -/
def Obligations.ControlRegistersRead : Prop :=
  ∀ (s : State) (off : Nat) (rest : List Input), hostReads s off rest →
    (off = 0x0010 → ∃ t v, step s = .next t ∧ t.readData = some v ∧ v.getLsbD 0 = s.irqEn ∧
      ∀ i, 1 ≤ i → v.getLsbD i = false) ∧
    (off = 0x0018 → ∃ t, step s = .next t ∧ t.readData = some 0) ∧
    (off = 0x001C → ∃ t, step s = .next t ∧ t.readData = some s.lastCmd) ∧
    (off = 0x0020 → ∃ t, step s = .next t ∧ t.readData = some s.srcAddr) ∧
    (off = 0x0024 → ∃ t, step s = .next t ∧ t.readData = some s.srcLen) ∧
    (off = 0x0028 → ∃ t, step s = .next t ∧ t.readData = some s.dstAddr) ∧
    (off = 0x002C → ∃ t, step s = .next t ∧ t.readData = some s.dstCap) ∧
    (off = 0x0030 → ∃ t, step s = .next t ∧ t.readData = some s.dstLen) ∧
    (off % 4 = 0 → (0x0034 ≤ off ∧ off < 0x1000) ∨ (0x3000 ≤ off ∧ off < 0x4000) →
      ∃ t, step s = .next t ∧ t.readData = some 0)

/-- No read of any admitted offset changes the state of the engine (R70). -/
def Obligations.ReadsChangeNothing : Prop :=
  ∀ (s : State) (off : Nat) (rest : List Input),
    hostReads s off rest → off < 0x8000 → off % 4 = 0 →
      ∃ t, step s = .next t ∧ t = { s with inputs := rest, readData := t.readData, draws := t.draws }

/-- CTRL with bit 1 = 0 (R35): IRQ_EN becomes bit 0 and nothing else changes, whether or not a command is
in flight. -/
def Obligations.CtrlWriteSetsIrqEnable : Prop :=
  ∀ (s : State) (v : Word) (rest : List Input), hostWrites s 0x0010 v rest → v.getLsbD 1 = false →
    step s = .next { s with inputs := rest, irqEn := v.getLsbD 0 }

/-- STATUS (R37): bit 1 of the written value clears DONE and bit 3 clears OVR; ERR, ERRCODE and all else
stay. -/
def Obligations.StatusWriteClears : Prop :=
  ∀ (s : State) (v : Word) (rest : List Input), hostWrites s 0x0014 v rest →
    step s = .next { s with
      inputs := rest
      status := {
        done := if v.getLsbD 1 then false else s.status.done
        err := s.status.err
        ovr := if v.getLsbD 3 then false else s.status.ovr
        errcode := s.status.errcode } }

/-- The region registers take every value written while BUSY = 0 (R44). -/
def Obligations.RegionRegisterWrites : Prop :=
  ∀ (s : State) (v : Word) (rest : List Input), s.pending = none →
    (hostWrites s 0x0020 v rest → step s = .next { s with inputs := rest, srcAddr := v }) ∧
    (hostWrites s 0x0024 v rest → step s = .next { s with inputs := rest, srcLen := v }) ∧
    (hostWrites s 0x0028 v rest → step s = .next { s with inputs := rest, dstAddr := v }) ∧
    (hostWrites s 0x002C v rest → step s = .next { s with inputs := rest, dstCap := v })

/-- Writes of read-only and reserved offsets are ignored and do not set OVR, busy or not (R54, R203). -/
def Obligations.ReadOnlyWritesIgnored : Prop :=
  ∀ (s : State) (off : Nat) (v : Word) (rest : List Input), hostWrites s off v rest → off % 4 = 0 →
    off < 0x0010 ∨ off = 0x001C ∨ (0x0030 ≤ off ∧ off < 0x1000) ∨ (0x3000 ≤ off ∧ off < 0x4000) →
      step s = .next { s with inputs := rest }

/-- While BUSY = 1 a write of CMD, of a big-register word, of a DMEM word or of a region register is
dropped: OVR becomes 1 and nothing else changes (R94, R203). That a write past a register's width or past
DMEM, which R58 and R60 ignore, sets OVR here too is the model's reading of the offsets of R203 (log 11). -/
def Obligations.BusyWritesDropped : Prop :=
  ∀ (s : State) (p : Pending) (off : Nat) (v : Word) (rest : List Input),
    s.pending = some p → hostWrites s off v rest → off % 4 = 0 →
    DroppedWhileBusy off →
      step s = .next { s with inputs := rest, status := { s.status with ovr := true } }

/-- A write of word `j` of big register `r` while BUSY = 0 (R57, R58): bits [32j+31:32j] are replaced, the
other bits, the other registers and all else stay; past the register's width nothing changes. -/
def Obligations.BigRegisterWordWrite : Prop :=
  ∀ (s : State) (r : Reg) (j : Nat) (v : Word) (rest : List Input),
    s.pending = none → j < 128 → hostWrites s (0x1000 + 0x200 * r.val + 4 * j) v rest →
      (s.params.opw / 32 ≤ j → step s = .next { s with inputs := rest }) ∧
      (j < s.params.opw / 32 →
        ∃ t, step s = .next t ∧ t = { s with inputs := rest, x := t.x } ∧
          (∀ r', r' ≠ r → t.reg r' = s.reg r') ∧
          (∀ b, (t.reg r).val.testBit b =
            if 32 * j ≤ b ∧ b < 32 * j + 32 then v.getLsbD (b - 32 * j) else (s.reg r).val.testBit b) ∧
          ∀ k, k ∈ (t.reg r).unspec ↔ k ∈ (s.reg r).unspec ∧ k ≠ j)

/-- A read of word `j` of big register `r` while BUSY = 0 (R57, R58): bits [32j+31:32j] of a specified
word, 0 past the register's width. -/
def Obligations.BigRegisterWordRead : Prop :=
  ∀ (s : State) (r : Reg) (j : Nat) (rest : List Input),
    s.pending = none → j < 128 → hostReads s (0x1000 + 0x200 * r.val + 4 * j) rest →
      (s.params.opw / 32 ≤ j → ∃ t, step s = .next t ∧ t.readData = some 0) ∧
      (j < s.params.opw / 32 → j ∉ (s.reg r).unspec →
        ∃ t v, step s = .next t ∧ t.readData = some v ∧
          ∀ b, b < 32 → v.getLsbD b = (s.reg r).val.testBit (32 * j + b))

/-- The DMEM window while BUSY = 0 (R59, R60): a write puts bits [8t+7:8t] in byte `k + t` and changes no
other byte; a read gives the four bytes back, byte `k` in bits [7:0]; past DMEM a write is ignored and a
read gives 0. -/
def Obligations.DmemWindow : Prop :=
  ∀ (s : State) (k : Nat) (v : Word) (rest : List Input),
    s.pending = none → k < 0x4000 → k % 4 = 0 →
      (hostWrites s (0x4000 + k) v rest → s.params.dmemSize ≤ k → step s = .next { s with inputs := rest }) ∧
      (hostWrites s (0x4000 + k) v rest → k < s.params.dmemSize →
        ∃ t, step s = .next t ∧ t = { s with inputs := rest, dmem := t.dmem } ∧
          (∀ j, j < 4 → Memory.read t.dmem (k + j) = some (v.extractLsb' (8 * j) 8)) ∧
          ∀ a, a < k ∨ k + 4 ≤ a → Memory.read t.dmem a = Memory.read s.dmem a) ∧
      (hostReads s (0x4000 + k) rest → s.params.dmemSize ≤ k →
        ∃ t, step s = .next t ∧ t.readData = some 0) ∧
      (hostReads s (0x4000 + k) rest → k < s.params.dmemSize →
        ∃ t u, step s = .next t ∧ t.readData = some u ∧
          ∀ j b, j < 4 → Memory.read s.dmem (k + j) = some b → u.extractLsb' (8 * j) 8 = b)

/-- The `OPW/32` word writes of LDX (R92) set the whole register and nothing else (R57). -/
def Obligations.LdxLoadsRegister : Prop :=
  ∀ (s : State) (r : Reg) (v : Nat) (rest : List Input),
    s.pending = none → s.wf = true → v < 2 ^ s.params.opw → s.inputs = ldx s.params r v ++ rest →
      Host.Core.run Sys2Proof.core (s.params.opw / 32) s =
        .next { s with inputs := rest, x := s.x.set r.val { val := v, unspec := [] } }

/-! ### Reset (70_reset_and_hazards.md) -/

/-- What State.reset leaves, the values R196 gives: every control and status register 0, no pending
command, `irq` 0, no DMEM byte with a value. (What the big registers hold there is the model's choice, log
1, and no part of this.) -/
def Obligations.ResetValues : Prop :=
  State.reset.irqEn = false ∧ State.reset.statusWord = 0 ∧ State.reset.lastCmd = 0 ∧
  State.reset.srcAddr = 0 ∧ State.reset.srcLen = 0 ∧ State.reset.dstAddr = 0 ∧ State.reset.dstCap = 0 ∧
  State.reset.dstLen = 0 ∧ State.reset.pending = none ∧ State.reset.irq = false ∧
  ∀ a, Memory.read State.reset.dmem a = none

/-- The platform's power-on reset (R196, R197): every control and status register 0, the pending command
discarded, every word of every big register and every DMEM byte unspecified. -/
def Obligations.PowerOnReset : Prop :=
  ∀ (s : State) (rest : List Input), s.inputs = .powerOn :: rest →
    ∃ t, step s = .next t ∧
      t = { s with
        inputs := rest, x := t.x, dmem := t.dmem, irqEn := false
        status := { done := false, err := false, ovr := false, errcode := 0 }
        lastCmd := 0, srcAddr := 0, srcLen := 0, dstAddr := 0, dstCap := 0, dstLen := 0, pending := none } ∧
      (∀ r j, j < s.params.opw / 32 → j ∈ (t.reg r).unspec) ∧ ∀ a, Memory.read t.dmem a = none

/-- Soft reset (R198, R199): a write of CTRL with bit 1 = 1, busy or not. The control and status registers
become 0 and no command is pending; registers and bytes keep their values but for the destinations of an
aborted command, which become unspecified. -/
def Obligations.SoftReset : Prop :=
  ∀ (s : State) (v : Word) (rest : List Input), hostWrites s 0x0010 v rest → v.getLsbD 1 = true →
    ∃ t, step s = .next t ∧
      t = { s with
        inputs := rest, x := t.x, dmem := t.dmem, irqEn := false
        status := { done := false, err := false, ovr := false, errcode := 0 }
        lastCmd := 0, srcAddr := 0, srcLen := 0, dstAddr := 0, dstCap := 0, dstLen := 0, pending := none } ∧
      (s.pending = none → t.x = s.x ∧ t.dmem = s.dmem) ∧
      (∀ p e, s.pending = some p → decode p.cmd = .error e → t.x = s.x ∧ t.dmem = s.dmem) ∧
      (∀ p i, s.pending = some p → decode p.cmd = .ok i →
        (∀ r, r ∉ i.dests → t.reg r = s.reg r) ∧
        (∀ r ∈ i.dests, ∀ j, j < s.params.opw / 32 → j ∈ (t.reg r).unspec) ∧
        (i.usesRegions = false → t.dmem = s.dmem) ∧
        (i.usesRegions = true → ∀ a,
          (p.snap.dstAddr.toNat ≤ a → a < p.snap.dstAddr.toNat + p.snap.dstCap.toNat →
            Memory.read t.dmem a = none) ∧
          (a < p.snap.dstAddr.toNat ∨ p.snap.dstAddr.toNat + p.snap.dstCap.toNat ≤ a →
            Memory.read t.dmem a = Memory.read s.dmem a)))

/-! ### Invariants and whole-machine rules -/

/-- The invariant holds right after reset. -/
def Obligations.ResetMeetsInvariant : Prop := State.reset.wf = true

/-- Every step keeps the invariant, from every state that meets it, reached or not: every big register
stays below `2^OPW` and in its canonical form; DMEM stays canonical and inside `DMEM_SIZE`; ERRCODE stays
at most 0xB and ERR says whether it is 0; BUSY and DONE never hold together; and the snapshot of the
pending command equals the state as it stands, LASTCMD being its word (R23, R28, R39, R40, R96, R174). -/
def Obligations.StepKeepsInvariant : Prop :=
  ∀ s t : State, s.wf = true → step s = .next t → t.wf = true

/-- No step changes OPW, DMEM_SIZE or ENGINE_BASE (R9, R10, R11, R34). -/
def Obligations.ParametersConstant : Prop := ∀ s t : State, step s = .next t → t.params = s.params

/-- The two model-only outcomes of R193 and no third. No step refuses; a step stops only with a stuck host,
at an access R55 does not admit while no command is in flight. A recorded UNSPECIFIED_OPERAND is never
cleared, and one is recorded only by the command in flight, naming its word and an unspecified operand of it.
With all of its operands specified and the next access admitted, a step does neither. -/
def Obligations.OnlyTwoModelOutcomes : Prop :=
  (∀ (s : State) (e : Refusal), step s ≠ .refused e) ∧
  (∀ (s : State) (a : Access), step s = .fault (.hostStuck a) →
    s.pending = none ∧ a.offset? s.params = none ∧ ∃ rest, s.inputs = .host a :: rest) ∧
  (∀ s t : State, step s = .next t → ∃ new, t.operandFaults = s.operandFaults ++ new ∧
    ∀ e ∈ new, ∃ p i, s.pending = some p ∧ decode p.cmd = .ok i ∧ e.cmd = p.cmd ∧
      s.Unspecified i e.operand) ∧
  ∀ s : State, s.pending ≠ none ∨ s.hostAdmitted = true →
    (∀ p i, s.pending = some p → decode p.cmd = .ok i → ∀ o, ¬ s.Unspecified i o) → ∃ t, SafeStep s t

/-- OVR rises only when a host write is dropped because BUSY = 1: an aligned write at an offset of R203,
of which nothing but OVR remains. It falls only by a host write of STATUS with bit 3 = 1 or by a reset
(R41). -/
def Obligations.OverrunOnlyFromDroppedWrites : Prop :=
  ∀ s t : State, step s = .next t →
    (s.status.ovr = false → t.status.ovr = true →
      ∃ p off v rest, s.pending = some p ∧ hostWrites s off v rest ∧ off % 4 = 0 ∧
        DroppedWhileBusy off ∧
        t = { s with inputs := rest, status := { s.status with ovr := true } }) ∧
    (s.status.ovr = true → t.status.ovr = false →
      ∃ rest, s.inputs = .powerOn :: rest ∨
        (∃ v, hostWrites s 0x0014 v rest ∧ v.getLsbD 3 = true) ∨
        (∃ v, hostWrites s 0x0010 v rest ∧ v.getLsbD 1 = true))

/-- No host access changes the command in flight or its operands (R74, R96): after one it is the same, or
a soft reset has removed it. -/
def Obligations.InFlightCommandFixed : Prop :=
  ∀ (s t : State) (p : Pending) (a : Access) (off : Nat) (rest : List Input),
    s.pending = some p → s.inputs = .host a :: rest → a.offset? s.params = some off → step s = .next t →
      t.pending = some p ∨
        (t.pending = none ∧ ∃ v, hostWrites s 0x0010 v rest ∧ v.getLsbD 1 = true)

/-! ### Host-side key text (00_scope.md section 7) -/

/-- `deserialize(serialize(k)) == k` for every key `k` (R20). -/
def Obligations.KeyTextRoundTrip : Prop :=
  ∀ modulus exponent : Nat, parseKey (serializeKey modulus exponent) = some (modulus, exponent)
end

