-- ==== Sys2Proof/Laws/Arith.lean ====
section
/-! SUPPORT. The functions of 42_arith.md compute the values their rules define (R4, R112): repeated
squaring is the power, extended Euclid gives the unique coefficient, and trial division is primality. -/

namespace Sys2Proof.Machine

/-! ### bitlen -/

/-- `bitlen(v)` bits write `v` (R13). -/
theorem lt_two_pow_bitlen (v : Nat) : v < 2 ^ bitlen v := by
  unfold bitlen
  split
  · next h => simp [h]
  · exact Nat.lt_log2_self

/-- Fewer than `bitlen(v)` bits do not write `v` (R13). -/
theorem two_pow_bitlen_le (v : Nat) (h : v ≠ 0) : 2 ^ (bitlen v - 1) ≤ v := by
  rw [bitlen, if_neg h, Nat.add_sub_cancel]
  exact Nat.log2_self_le h

theorem bitlen_pos (v : Nat) (h : v ≠ 0) : 1 ≤ bitlen v := by
  rw [bitlen, if_neg h]; omega

theorem bitlen_le (v k : Nat) (h : v < 2 ^ k) : bitlen v ≤ k := by
  by_cases h0 : v = 0
  · simp [bitlen, h0]
  · have h1 := two_pow_bitlen_le v h0
    have h2 : bitlen v - 1 < k := (Nat.pow_lt_pow_iff_right (by decide)).mp (Nat.lt_of_le_of_lt h1 h)
    omega

/-! ### Modular exponentiation -/

theorem powModLoop_eq (n f b e acc : Nat) (he : e < 2 ^ f) (ha : acc < n) :
    powModLoop n f b e acc = acc * b ^ e % n := by
  induction f generalizing b e acc with
  | zero =>
    have : e = 0 := by simpa using he
    subst this
    simp [powModLoop, Nat.mod_eq_of_lt ha]
  | succ f ih =>
    have hn : 0 < n := Nat.lt_of_le_of_lt (Nat.zero_le _) ha
    have he2 : e / 2 < 2 ^ f := by rw [Nat.pow_succ] at he; omega
    have sq : (b * b % n) ^ (e / 2) ≡ b ^ (2 * (e / 2)) [MOD n] := by
      rw [Nat.pow_mul, Nat.pow_two]
      exact (Nat.mod_modEq _ _).pow _
    rw [powModLoop, ih _ _ _ he2 (by split; exacts [Nat.mod_lt _ hn, ha])]
    split
    · next odd =>
      have hb : b ^ e = b * b ^ (2 * (e / 2)) := by
        rw [← Nat.pow_succ']; congr 1; omega
      rw [hb, ← Nat.mul_assoc]
      exact (Nat.mod_modEq _ _).mul sq
    · next even =>
      have hb : b ^ e = b ^ (2 * (e / 2)) := by congr 1; omega
      rw [hb]
      exact Nat.ModEq.mul_left acc sq

/-- `powMod` is the exact power reduced (R115), with `b^0 = 1` and modulus 1 giving 0 (R116). -/
theorem powMod_eq (b e n : Nat) (hn : n ≠ 0) : powMod b e n = b ^ e % n := by
  have hn : 0 < n := Nat.pos_of_ne_zero hn
  rw [powMod, powModLoop_eq n _ _ _ _ (lt_two_pow_bitlen e) (Nat.mod_lt _ hn)]
  have := (Nat.mod_modEq 1 n).mul ((Nat.mod_modEq b n).pow e)
  simpa [Nat.ModEq] using this

theorem powMod_lt (b e n : Nat) (hn : n ≠ 0) : powMod b e n < n := by
  rw [powMod_eq b e n hn]
  exact Nat.mod_lt _ (Nat.pos_of_ne_zero hn)

/-! ### Extended Euclid -/

/-- The loop's answer is a coefficient of the gcd of its remainders modulo `b`. -/
theorem euclidLoop_spec (a b f r0 r1 : Nat) (s0 s1 : Int) (hf : r1 < f)
    (h0 : (a : Int) * s0 ≡ r0 [ZMOD b]) (h1 : (a : Int) * s1 ≡ r1 [ZMOD b]) :
    (a : Int) * euclidLoop f r0 r1 s0 s1 ≡ (Nat.gcd r0 r1 : Nat) [ZMOD b] := by
  induction f generalizing r0 r1 s0 s1 with
  | zero => omega
  | succ f ih =>
    rw [euclidLoop]
    split
    · next h => simpa [h] using h0
    · next h =>
      have lt : r0 % r1 < r1 := Nat.mod_lt _ (Nat.pos_of_ne_zero h)
      have step : (a : Int) * (s0 - (r0 / r1 : Nat) * s1) ≡ (r0 % r1 : Nat) [ZMOD b] := by
        have e : (a : Int) * (s0 - (r0 / r1 : Nat) * s1) = a * s0 - (r0 / r1 : Nat) * (a * s1) := by ring
        have d : ((r0 % r1 : Nat) : Int) = r0 - (r0 / r1 : Nat) * r1 := by
          have := Nat.mod_add_div r0 r1
          have : (r0 : Int) = (r0 % r1 : Nat) + r1 * (r0 / r1 : Nat) := by exact_mod_cast this.symm
          rw [this]; ring
        rw [e, d]
        exact h0.sub (h1.mul_left _)
      have := ih r1 (r0 % r1) s1 _ (by omega) h1 step
      rwa [Nat.gcd_comm r1, ← Nat.gcd_rec, Nat.gcd_comm] at this

/-- The coefficient of XGCD is in `[0, b div g)` and satisfies `(a * s) mod b = g mod b` (R124). -/
theorem xgcdCoeff_spec (a b : Nat) (hb : b ≠ 0) :
    xgcdCoeff a b < b / Nat.gcd a b ∧ a * xgcdCoeff a b % b = Nat.gcd a b % b := by
  have hg : 0 < Nat.gcd a b := Nat.gcd_pos_of_pos_right a (Nat.pos_of_ne_zero hb)
  have hq : 0 < b / Nat.gcd a b := Nat.div_pos (Nat.le_of_dvd (Nat.pos_of_ne_zero hb) (Nat.gcd_dvd_right a b)) hg
  have hq' : (0 : Int) < ((b / Nat.gcd a b : Nat) : Int) := by exact_mod_cast hq
  have nonneg := Int.emod_nonneg (euclidLoop (b + 1) a b 1 0) (ne_of_gt hq')
  have lt := Int.emod_lt_of_pos (euclidLoop (b + 1) a b 1 0) hq'
  have cast : ((xgcdCoeff a b : Nat) : Int) =
      euclidLoop (b + 1) a b 1 0 % ((b / Nat.gcd a b : Nat) : Int) := by
    rw [xgcdCoeff, Int.toNat_of_nonneg nonneg]
  have coeff : (a : Int) * euclidLoop (b + 1) a b 1 0 ≡ (Nat.gcd a b : Nat) [ZMOD b] :=
    euclidLoop_spec a b (b + 1) a b 1 0 (by omega) (by simp [Int.ModEq]) (by simp [Int.ModEq])
  have dvd : (b : Int) ∣ a * (b / Nat.gcd a b : Nat) := by
    obtain ⟨a', ha⟩ := Nat.gcd_dvd_left a b
    refine ⟨a', ?_⟩
    have : a * (b / Nat.gcd a b) = b * a' := by
      have hb' := Nat.mul_div_cancel' (Nat.gcd_dvd_right a b)
      calc a * (b / Nat.gcd a b) = Nat.gcd a b * a' * (b / Nat.gcd a b) := by rw [← ha]
        _ = Nat.gcd a b * (b / Nat.gcd a b) * a' := by ring
        _ = b * a' := by rw [hb']
    exact_mod_cast this
  have red : (a : Int) * (xgcdCoeff a b : Nat) ≡ (Nat.gcd a b : Nat) [ZMOD b] := by
    refine Int.ModEq.trans ?_ coeff
    rw [cast, Int.modEq_iff_dvd, ← mul_sub]
    have := Int.emod_add_mul_ediv (euclidLoop (b + 1) a b 1 0) ((b / Nat.gcd a b : Nat) : Int)
    have e : euclidLoop (b + 1) a b 1 0 - euclidLoop (b + 1) a b 1 0 % ((b / Nat.gcd a b : Nat) : Int) =
        ((b / Nat.gcd a b : Nat) : Int) * (euclidLoop (b + 1) a b 1 0 / ((b / Nat.gcd a b : Nat) : Int)) := by
      linarith
    rw [e, ← mul_assoc]
    exact Dvd.dvd.mul_right dvd _
  refine ⟨?_, ?_⟩
  · exact_mod_cast (cast ▸ lt)
  · have : ((a * xgcdCoeff a b : Nat) : Int) ≡ ((Nat.gcd a b : Nat) : Int) [ZMOD b] := by
      exact_mod_cast red
    exact (Int.natCast_modEq_iff.mp this)

/-- At most one number below `b div g` is a coefficient of the gcd (R125). -/
theorem coeff_unique (a b s t : Nat) (hb : b ≠ 0) (hs : s < b / Nat.gcd a b) (ht : t < b / Nat.gcd a b)
    (h : a * s % b = a * t % b) : s = t := by
  have := Nat.ModEq.cancel_left_div_gcd (Nat.pos_of_ne_zero hb) (show a * s ≡ a * t [MOD b] from h)
  rw [Nat.gcd_comm b a] at this
  exact Nat.ModEq.eq_of_lt_of_lt this hs ht

/-- `inv(a, m)` is below `m` and is an inverse (R17, R126). -/
theorem inv_spec (a m : Nat) (hm : m ≠ 0) (h : Nat.gcd a m = 1) :
    inv a m < m ∧ a * inv a m % m = 1 % m := by
  have := xgcdCoeff_spec a m hm
  rw [h, Nat.div_one] at this
  exact this

theorem inv_unique (a m y : Nat) (hm : m ≠ 0) (h : Nat.gcd a m = 1) (hy : y < m)
    (e : a * y % m = 1 % m) : y = inv a m := by
  have s := inv_spec a m hm h
  exact coeff_unique a m y (inv a m) hm (by rwa [h, Nat.div_one]) (by rw [h, Nat.div_one]; exact s.1)
    (e.trans s.2.symm)

/-! ### Primality -/

theorem noDivisorFrom_iff (v f k : Nat) (hf : v < (k + f) * (k + f)) :
    noDivisorFrom v f k = true ↔ ∀ d, k ≤ d → d * d ≤ v → v % d ≠ 0 := by
  induction f generalizing k with
  | zero =>
    simp only [noDivisorFrom, true_iff]
    intro d hd hdv
    have := Nat.mul_le_mul hd hd
    simp only [Nat.add_zero] at hf
    omega
  | succ f ih =>
    rw [noDivisorFrom]
    split
    · next h =>
      simp only [true_iff]
      intro d hd hdv
      have := Nat.mul_le_mul hd hd
      omega
    · next h =>
      split
      · next hk =>
        simp only [Bool.false_eq_true, false_iff, not_forall]
        exact ⟨k, Nat.le_refl k, by omega, fun c => c hk⟩
      · next hk =>
        rw [ih (k + 1) (by rwa [show k + 1 + f = k + (f + 1) by omega])]
        constructor
        · intro H d hd hdv
          rcases Nat.eq_or_lt_of_le hd with e | e
          · exact e ▸ hk
          · exact H d e hdv
        · exact fun H d hd hdv => H d (by omega) hdv

/-- `isPrime` is the predicate of trial division (R131). -/
theorem isPrime_iff_trial (v : Nat) :
    isPrime v = true ↔ 2 ≤ v ∧ ∀ k, 2 ≤ k → k ≤ Nat.sqrt v → v % k ≠ 0 := by
  have hv : v < (2 + v) * (2 + v) := by nlinarith
  rw [isPrime, Bool.and_eq_true, decide_eq_true_iff, noDivisorFrom_iff v v 2 hv]
  simp only [Nat.le_sqrt]

/-- It equals the usual primality predicate (R131). -/
theorem isPrime_iff (v : Nat) : isPrime v = true ↔ Nat.Prime v := by
  rw [isPrime_iff_trial, Nat.prime_def_le_sqrt]
  refine and_congr_right fun _ => forall_congr' fun k => forall_congr' fun _ => forall_congr' fun _ => ?_
  rw [Ne, ← Nat.dvd_iff_mod_eq_zero]

/-! ### The sets of the key generator -/

theorem mem_candidates (phi v : Nat) : v ∈ candidates phi ↔ 2 ≤ v ∧ v < phi ∧ Nat.gcd v phi = 1 := by
  simp [candidates]; tauto

theorem mem_drawSet (phi v : Nat) :
    v ∈ drawSet phi ↔ 2 ≤ v ∧ v < phi ∧ Nat.gcd v phi = 1 ∧ inv v phi ≠ v := by
  simp [drawSet, mem_candidates, and_assoc]

/-- A draw from a non-empty set is one of its elements (R46). -/
theorem pick_mem (S : List Nat) (k : Nat) (h : S ≠ []) : pick S k ∈ S := by
  have hl : k % S.length < S.length := Nat.mod_lt _ (List.length_pos_of_ne_nil h)
  rw [pick, List.getD_eq_getElem?_getD, List.getElem?_eq_getElem hl]
  exact List.getElem_mem hl

/-- Every element of the set is drawn for some number (R46). -/
theorem exists_pick (S : List Nat) (v : Nat) (h : v ∈ S) : ∃ k, pick S k = v := by
  obtain ⟨k, hk, e⟩ := List.getElem_of_mem h
  exact ⟨k, by rw [pick, Nat.mod_eq_of_lt hk, List.getD_eq_getElem?_getD, List.getElem?_eq_getElem hk]; exact e⟩

end Sys2Proof.Machine
end

