-- ==== Sys2Proof/Laws/State.lean ====
section
/-! SUPPORT. One lemma per field per update of State, each true by rfl, so that no later proof unfolds a
record update; and what each update does to the views of State (BUSY, the snapshot, the source). -/

namespace Sys2Proof.Machine

variable (s : State)

/-! ### setReg -/

@[simp] theorem State.setReg_params (r : Reg) (b : BigReg) : (s.setReg r b).params = s.params := rfl
@[simp] theorem State.setReg_x (r : Reg) (b : BigReg) : (s.setReg r b).x = s.x.set r.val b := rfl
@[simp] theorem State.setReg_dmem (r : Reg) (b : BigReg) : (s.setReg r b).dmem = s.dmem := rfl
@[simp] theorem State.setReg_irqEn (r : Reg) (b : BigReg) : (s.setReg r b).irqEn = s.irqEn := rfl
@[simp] theorem State.setReg_status (r : Reg) (b : BigReg) : (s.setReg r b).status = s.status := rfl
@[simp] theorem State.setReg_lastCmd (r : Reg) (b : BigReg) : (s.setReg r b).lastCmd = s.lastCmd := rfl
@[simp] theorem State.setReg_srcAddr (r : Reg) (b : BigReg) : (s.setReg r b).srcAddr = s.srcAddr := rfl
@[simp] theorem State.setReg_srcLen (r : Reg) (b : BigReg) : (s.setReg r b).srcLen = s.srcLen := rfl
@[simp] theorem State.setReg_dstAddr (r : Reg) (b : BigReg) : (s.setReg r b).dstAddr = s.dstAddr := rfl
@[simp] theorem State.setReg_dstCap (r : Reg) (b : BigReg) : (s.setReg r b).dstCap = s.dstCap := rfl
@[simp] theorem State.setReg_dstLen (r : Reg) (b : BigReg) : (s.setReg r b).dstLen = s.dstLen := rfl
@[simp] theorem State.setReg_pending (r : Reg) (b : BigReg) : (s.setReg r b).pending = s.pending := rfl
@[simp] theorem State.setReg_draws (r : Reg) (b : BigReg) : (s.setReg r b).draws = s.draws := rfl
@[simp] theorem State.setReg_inputs (r : Reg) (b : BigReg) : (s.setReg r b).inputs = s.inputs := rfl
@[simp] theorem State.setReg_readData (r : Reg) (b : BigReg) : (s.setReg r b).readData = s.readData := rfl
@[simp] theorem State.setReg_operandFaults (r : Reg) (b : BigReg) : (s.setReg r b).operandFaults = s.operandFaults := rfl

/-! ### writeReg -/

@[simp] theorem State.writeReg_params (r : Reg) (v : Nat) : (s.writeReg r v).params = s.params := rfl
@[simp] theorem State.writeReg_x (r : Reg) (v : Nat) : (s.writeReg r v).x = s.x.set r.val (BigReg.ofNat v) := rfl
@[simp] theorem State.writeReg_dmem (r : Reg) (v : Nat) : (s.writeReg r v).dmem = s.dmem := rfl
@[simp] theorem State.writeReg_irqEn (r : Reg) (v : Nat) : (s.writeReg r v).irqEn = s.irqEn := rfl
@[simp] theorem State.writeReg_status (r : Reg) (v : Nat) : (s.writeReg r v).status = s.status := rfl
@[simp] theorem State.writeReg_lastCmd (r : Reg) (v : Nat) : (s.writeReg r v).lastCmd = s.lastCmd := rfl
@[simp] theorem State.writeReg_srcAddr (r : Reg) (v : Nat) : (s.writeReg r v).srcAddr = s.srcAddr := rfl
@[simp] theorem State.writeReg_srcLen (r : Reg) (v : Nat) : (s.writeReg r v).srcLen = s.srcLen := rfl
@[simp] theorem State.writeReg_dstAddr (r : Reg) (v : Nat) : (s.writeReg r v).dstAddr = s.dstAddr := rfl
@[simp] theorem State.writeReg_dstCap (r : Reg) (v : Nat) : (s.writeReg r v).dstCap = s.dstCap := rfl
@[simp] theorem State.writeReg_dstLen (r : Reg) (v : Nat) : (s.writeReg r v).dstLen = s.dstLen := rfl
@[simp] theorem State.writeReg_pending (r : Reg) (v : Nat) : (s.writeReg r v).pending = s.pending := rfl
@[simp] theorem State.writeReg_draws (r : Reg) (v : Nat) : (s.writeReg r v).draws = s.draws := rfl
@[simp] theorem State.writeReg_inputs (r : Reg) (v : Nat) : (s.writeReg r v).inputs = s.inputs := rfl
@[simp] theorem State.writeReg_readData (r : Reg) (v : Nat) : (s.writeReg r v).readData = s.readData := rfl
@[simp] theorem State.writeReg_operandFaults (r : Reg) (v : Nat) : (s.writeReg r v).operandFaults = s.operandFaults := rfl

/-! ### setDmem -/

@[simp] theorem State.setDmem_params (m : Memory) : (s.setDmem m).params = s.params := rfl
@[simp] theorem State.setDmem_x (m : Memory) : (s.setDmem m).x = s.x := rfl
@[simp] theorem State.setDmem_dmem (m : Memory) : (s.setDmem m).dmem = m := rfl
@[simp] theorem State.setDmem_irqEn (m : Memory) : (s.setDmem m).irqEn = s.irqEn := rfl
@[simp] theorem State.setDmem_status (m : Memory) : (s.setDmem m).status = s.status := rfl
@[simp] theorem State.setDmem_lastCmd (m : Memory) : (s.setDmem m).lastCmd = s.lastCmd := rfl
@[simp] theorem State.setDmem_srcAddr (m : Memory) : (s.setDmem m).srcAddr = s.srcAddr := rfl
@[simp] theorem State.setDmem_srcLen (m : Memory) : (s.setDmem m).srcLen = s.srcLen := rfl
@[simp] theorem State.setDmem_dstAddr (m : Memory) : (s.setDmem m).dstAddr = s.dstAddr := rfl
@[simp] theorem State.setDmem_dstCap (m : Memory) : (s.setDmem m).dstCap = s.dstCap := rfl
@[simp] theorem State.setDmem_dstLen (m : Memory) : (s.setDmem m).dstLen = s.dstLen := rfl
@[simp] theorem State.setDmem_pending (m : Memory) : (s.setDmem m).pending = s.pending := rfl
@[simp] theorem State.setDmem_draws (m : Memory) : (s.setDmem m).draws = s.draws := rfl
@[simp] theorem State.setDmem_inputs (m : Memory) : (s.setDmem m).inputs = s.inputs := rfl
@[simp] theorem State.setDmem_readData (m : Memory) : (s.setDmem m).readData = s.readData := rfl
@[simp] theorem State.setDmem_operandFaults (m : Memory) : (s.setDmem m).operandFaults = s.operandFaults := rfl

/-! ### issue -/

@[simp] theorem State.issue_params (cmd : Word) : (s.issue cmd).params = s.params := rfl
@[simp] theorem State.issue_x (cmd : Word) : (s.issue cmd).x = s.x := rfl
@[simp] theorem State.issue_dmem (cmd : Word) : (s.issue cmd).dmem = s.dmem := rfl
@[simp] theorem State.issue_irqEn (cmd : Word) : (s.issue cmd).irqEn = s.irqEn := rfl
@[simp] theorem State.issue_status (cmd : Word) : (s.issue cmd).status = s.status.issued := rfl
@[simp] theorem State.issue_lastCmd (cmd : Word) : (s.issue cmd).lastCmd = cmd := rfl
@[simp] theorem State.issue_srcAddr (cmd : Word) : (s.issue cmd).srcAddr = s.srcAddr := rfl
@[simp] theorem State.issue_srcLen (cmd : Word) : (s.issue cmd).srcLen = s.srcLen := rfl
@[simp] theorem State.issue_dstAddr (cmd : Word) : (s.issue cmd).dstAddr = s.dstAddr := rfl
@[simp] theorem State.issue_dstCap (cmd : Word) : (s.issue cmd).dstCap = s.dstCap := rfl
@[simp] theorem State.issue_dstLen (cmd : Word) : (s.issue cmd).dstLen = s.dstLen := rfl
@[simp] theorem State.issue_pending (cmd : Word) : (s.issue cmd).pending = some { cmd := cmd, snap := s.snapshot } := rfl
@[simp] theorem State.issue_draws (cmd : Word) : (s.issue cmd).draws = s.draws := rfl
@[simp] theorem State.issue_inputs (cmd : Word) : (s.issue cmd).inputs = s.inputs := rfl
@[simp] theorem State.issue_readData (cmd : Word) : (s.issue cmd).readData = s.readData := rfl
@[simp] theorem State.issue_operandFaults (cmd : Word) : (s.issue cmd).operandFaults = s.operandFaults := rfl

/-! ### finish -/

@[simp] theorem State.finish_params (c : ErrCode) : (s.finish c).params = s.params := rfl
@[simp] theorem State.finish_x (c : ErrCode) : (s.finish c).x = s.x := rfl
@[simp] theorem State.finish_dmem (c : ErrCode) : (s.finish c).dmem = s.dmem := rfl
@[simp] theorem State.finish_irqEn (c : ErrCode) : (s.finish c).irqEn = s.irqEn := rfl
@[simp] theorem State.finish_status (c : ErrCode) : (s.finish c).status = s.status.completed c := rfl
@[simp] theorem State.finish_lastCmd (c : ErrCode) : (s.finish c).lastCmd = s.lastCmd := rfl
@[simp] theorem State.finish_srcAddr (c : ErrCode) : (s.finish c).srcAddr = s.srcAddr := rfl
@[simp] theorem State.finish_srcLen (c : ErrCode) : (s.finish c).srcLen = s.srcLen := rfl
@[simp] theorem State.finish_dstAddr (c : ErrCode) : (s.finish c).dstAddr = s.dstAddr := rfl
@[simp] theorem State.finish_dstCap (c : ErrCode) : (s.finish c).dstCap = s.dstCap := rfl
@[simp] theorem State.finish_dstLen (c : ErrCode) : (s.finish c).dstLen = s.dstLen := rfl
@[simp] theorem State.finish_pending (c : ErrCode) : (s.finish c).pending = none := rfl
@[simp] theorem State.finish_draws (c : ErrCode) : (s.finish c).draws = s.draws + 1 := rfl
@[simp] theorem State.finish_inputs (c : ErrCode) : (s.finish c).inputs = s.inputs := rfl
@[simp] theorem State.finish_readData (c : ErrCode) : (s.finish c).readData = s.readData := rfl
@[simp] theorem State.finish_operandFaults (c : ErrCode) : (s.finish c).operandFaults = s.operandFaults := rfl

/-! ### record -/

@[simp] theorem State.record_params (os : List Operand) : (s.record os).params = s.params := rfl
@[simp] theorem State.record_x (os : List Operand) : (s.record os).x = s.x := rfl
@[simp] theorem State.record_dmem (os : List Operand) : (s.record os).dmem = s.dmem := rfl
@[simp] theorem State.record_irqEn (os : List Operand) : (s.record os).irqEn = s.irqEn := rfl
@[simp] theorem State.record_status (os : List Operand) : (s.record os).status = s.status := rfl
@[simp] theorem State.record_lastCmd (os : List Operand) : (s.record os).lastCmd = s.lastCmd := rfl
@[simp] theorem State.record_srcAddr (os : List Operand) : (s.record os).srcAddr = s.srcAddr := rfl
@[simp] theorem State.record_srcLen (os : List Operand) : (s.record os).srcLen = s.srcLen := rfl
@[simp] theorem State.record_dstAddr (os : List Operand) : (s.record os).dstAddr = s.dstAddr := rfl
@[simp] theorem State.record_dstCap (os : List Operand) : (s.record os).dstCap = s.dstCap := rfl
@[simp] theorem State.record_dstLen (os : List Operand) : (s.record os).dstLen = s.dstLen := rfl
@[simp] theorem State.record_pending (os : List Operand) : (s.record os).pending = s.pending := rfl
@[simp] theorem State.record_draws (os : List Operand) : (s.record os).draws = s.draws := rfl
@[simp] theorem State.record_inputs (os : List Operand) : (s.record os).inputs = s.inputs := rfl
@[simp] theorem State.record_readData (os : List Operand) : (s.record os).readData = s.readData := rfl
@[simp] theorem State.record_operandFaults (os : List Operand) :
    (s.record os).operandFaults = s.operandFaults ++ os.map (OperandFault.mk s.commandInFlight) := rfl

/-- Recording nothing changes nothing. -/
@[simp] theorem State.record_nil : s.record [] = s := by
  simp [State.record]

@[simp] theorem State.record_source (os : List Operand) : (s.record os).source = s.source := rfl

@[simp] theorem State.record_commandInFlight (os : List Operand) :
    (s.record os).commandInFlight = s.commandInFlight := rfl

/-- Two records are one record of both (R97). -/
@[simp] theorem State.record_record (os os' : List Operand) :
    (s.record os).record os' = s.record (os ++ os') := by
  simp [State.record, State.commandInFlight]

@[simp] theorem State.record_operand (os : List Operand) (r : Reg) : (s.record os).operand r = s.operand r := rfl

@[simp] theorem State.record_missingReg (os : List Operand) (r : Reg) :
    (s.record os).missingReg r = s.missingReg r := rfl

@[simp] theorem State.record_sourceBytes (os : List Operand) : (s.record os).sourceBytes = s.sourceBytes := rfl

@[simp] theorem State.record_missingBytes (os : List Operand) (n : Nat) :
    (s.record os).missingBytes n = s.missingBytes n := rfl

@[simp] theorem State.record_sourceLen (os : List Operand) : (s.record os).sourceLen = s.sourceLen := rfl

@[simp] theorem State.record_tooLong (os : List Operand) (n : Nat) : (s.record os).tooLong n = s.tooLong n := rfl

/-! ### drawn -/

@[simp] theorem State.drawn_params : s.drawn.params = s.params := rfl
@[simp] theorem State.drawn_x : s.drawn.x = s.x := rfl
@[simp] theorem State.drawn_dmem : s.drawn.dmem = s.dmem := rfl
@[simp] theorem State.drawn_irqEn : s.drawn.irqEn = s.irqEn := rfl
@[simp] theorem State.drawn_status : s.drawn.status = s.status := rfl
@[simp] theorem State.drawn_lastCmd : s.drawn.lastCmd = s.lastCmd := rfl
@[simp] theorem State.drawn_srcAddr : s.drawn.srcAddr = s.srcAddr := rfl
@[simp] theorem State.drawn_srcLen : s.drawn.srcLen = s.srcLen := rfl
@[simp] theorem State.drawn_dstAddr : s.drawn.dstAddr = s.dstAddr := rfl
@[simp] theorem State.drawn_dstCap : s.drawn.dstCap = s.dstCap := rfl
@[simp] theorem State.drawn_dstLen : s.drawn.dstLen = s.dstLen := rfl
@[simp] theorem State.drawn_pending : s.drawn.pending = s.pending := rfl
@[simp] theorem State.drawn_draws : s.drawn.draws = s.draws + 1 := rfl
@[simp] theorem State.drawn_inputs : s.drawn.inputs = s.inputs := rfl
@[simp] theorem State.drawn_readData : s.drawn.readData = s.readData := rfl
@[simp] theorem State.drawn_operandFaults : s.drawn.operandFaults = s.operandFaults := rfl

/-! ### clearControl -/

@[simp] theorem State.clearControl_params : s.clearControl.params = s.params := rfl
@[simp] theorem State.clearControl_x : s.clearControl.x = s.x := rfl
@[simp] theorem State.clearControl_dmem : s.clearControl.dmem = s.dmem := rfl
@[simp] theorem State.clearControl_irqEn : s.clearControl.irqEn = false := rfl
@[simp] theorem State.clearControl_status : s.clearControl.status = Status.zero := rfl
@[simp] theorem State.clearControl_lastCmd : s.clearControl.lastCmd = 0 := rfl
@[simp] theorem State.clearControl_srcAddr : s.clearControl.srcAddr = 0 := rfl
@[simp] theorem State.clearControl_srcLen : s.clearControl.srcLen = 0 := rfl
@[simp] theorem State.clearControl_dstAddr : s.clearControl.dstAddr = 0 := rfl
@[simp] theorem State.clearControl_dstCap : s.clearControl.dstCap = 0 := rfl
@[simp] theorem State.clearControl_dstLen : s.clearControl.dstLen = 0 := rfl
@[simp] theorem State.clearControl_pending : s.clearControl.pending = none := rfl
@[simp] theorem State.clearControl_draws : s.clearControl.draws = s.draws := rfl
@[simp] theorem State.clearControl_inputs : s.clearControl.inputs = s.inputs := rfl
@[simp] theorem State.clearControl_readData : s.clearControl.readData = s.readData := rfl
@[simp] theorem State.clearControl_operandFaults : s.clearControl.operandFaults = s.operandFaults := rfl

/-! ### powerOnReset -/

@[simp] theorem State.powerOnReset_params : s.powerOnReset.params = s.params := rfl
@[simp] theorem State.powerOnReset_x : s.powerOnReset.x = Vector.replicate 16 (BigReg.unspecified s.params.words) := rfl
@[simp] theorem State.powerOnReset_dmem : s.powerOnReset.dmem = [] := rfl
@[simp] theorem State.powerOnReset_irqEn : s.powerOnReset.irqEn = false := rfl
@[simp] theorem State.powerOnReset_status : s.powerOnReset.status = Status.zero := rfl
@[simp] theorem State.powerOnReset_lastCmd : s.powerOnReset.lastCmd = 0 := rfl
@[simp] theorem State.powerOnReset_srcAddr : s.powerOnReset.srcAddr = 0 := rfl
@[simp] theorem State.powerOnReset_srcLen : s.powerOnReset.srcLen = 0 := rfl
@[simp] theorem State.powerOnReset_dstAddr : s.powerOnReset.dstAddr = 0 := rfl
@[simp] theorem State.powerOnReset_dstCap : s.powerOnReset.dstCap = 0 := rfl
@[simp] theorem State.powerOnReset_dstLen : s.powerOnReset.dstLen = 0 := rfl
@[simp] theorem State.powerOnReset_pending : s.powerOnReset.pending = none := rfl
@[simp] theorem State.powerOnReset_draws : s.powerOnReset.draws = s.draws := rfl
@[simp] theorem State.powerOnReset_inputs : s.powerOnReset.inputs = s.inputs := rfl
@[simp] theorem State.powerOnReset_readData : s.powerOnReset.readData = s.readData := rfl
@[simp] theorem State.powerOnReset_operandFaults : s.powerOnReset.operandFaults = s.operandFaults := rfl

/-! ### output -/

@[simp] theorem State.output_params (out : List Byte) : (s.output out).params = s.params := rfl
@[simp] theorem State.output_x (out : List Byte) : (s.output out).x = s.x := rfl
@[simp] theorem State.output_dmem (out : List Byte) : (s.output out).dmem = Memory.writeBytes s.dmem s.source.dstAddr.toNat out := rfl
@[simp] theorem State.output_irqEn (out : List Byte) : (s.output out).irqEn = s.irqEn := rfl
@[simp] theorem State.output_status (out : List Byte) : (s.output out).status = s.status := rfl
@[simp] theorem State.output_lastCmd (out : List Byte) : (s.output out).lastCmd = s.lastCmd := rfl
@[simp] theorem State.output_srcAddr (out : List Byte) : (s.output out).srcAddr = s.srcAddr := rfl
@[simp] theorem State.output_srcLen (out : List Byte) : (s.output out).srcLen = s.srcLen := rfl
@[simp] theorem State.output_dstAddr (out : List Byte) : (s.output out).dstAddr = s.dstAddr := rfl
@[simp] theorem State.output_dstCap (out : List Byte) : (s.output out).dstCap = s.dstCap := rfl
@[simp] theorem State.output_dstLen (out : List Byte) : (s.output out).dstLen = BitVec.ofNat 32 out.length := rfl
@[simp] theorem State.output_pending (out : List Byte) : (s.output out).pending = s.pending := rfl
@[simp] theorem State.output_draws (out : List Byte) : (s.output out).draws = s.draws := rfl
@[simp] theorem State.output_inputs (out : List Byte) : (s.output out).inputs = s.inputs := rfl
@[simp] theorem State.output_readData (out : List Byte) : (s.output out).readData = s.readData := rfl
@[simp] theorem State.output_operandFaults (out : List Byte) : (s.output out).operandFaults = s.operandFaults := rfl

/-! ### withInputs -/

@[simp] theorem State.withInputs_params (rest : List Input) : (s.withInputs rest).params = s.params := rfl
@[simp] theorem State.withInputs_x (rest : List Input) : (s.withInputs rest).x = s.x := rfl
@[simp] theorem State.withInputs_dmem (rest : List Input) : (s.withInputs rest).dmem = s.dmem := rfl
@[simp] theorem State.withInputs_irqEn (rest : List Input) : (s.withInputs rest).irqEn = s.irqEn := rfl
@[simp] theorem State.withInputs_status (rest : List Input) : (s.withInputs rest).status = s.status := rfl
@[simp] theorem State.withInputs_lastCmd (rest : List Input) : (s.withInputs rest).lastCmd = s.lastCmd := rfl
@[simp] theorem State.withInputs_srcAddr (rest : List Input) : (s.withInputs rest).srcAddr = s.srcAddr := rfl
@[simp] theorem State.withInputs_srcLen (rest : List Input) : (s.withInputs rest).srcLen = s.srcLen := rfl
@[simp] theorem State.withInputs_dstAddr (rest : List Input) : (s.withInputs rest).dstAddr = s.dstAddr := rfl
@[simp] theorem State.withInputs_dstCap (rest : List Input) : (s.withInputs rest).dstCap = s.dstCap := rfl
@[simp] theorem State.withInputs_dstLen (rest : List Input) : (s.withInputs rest).dstLen = s.dstLen := rfl
@[simp] theorem State.withInputs_pending (rest : List Input) : (s.withInputs rest).pending = s.pending := rfl
@[simp] theorem State.withInputs_draws (rest : List Input) : (s.withInputs rest).draws = s.draws := rfl
@[simp] theorem State.withInputs_inputs (rest : List Input) : (s.withInputs rest).inputs = rest := rfl
@[simp] theorem State.withInputs_readData (rest : List Input) : (s.withInputs rest).readData = s.readData := rfl
@[simp] theorem State.withInputs_operandFaults (rest : List Input) : (s.withInputs rest).operandFaults = s.operandFaults := rfl

/-! ### dropWrite -/

@[simp] theorem State.dropWrite_params : s.dropWrite.params = s.params := rfl
@[simp] theorem State.dropWrite_x : s.dropWrite.x = s.x := rfl
@[simp] theorem State.dropWrite_dmem : s.dropWrite.dmem = s.dmem := rfl
@[simp] theorem State.dropWrite_irqEn : s.dropWrite.irqEn = s.irqEn := rfl
@[simp] theorem State.dropWrite_status : s.dropWrite.status = s.status.dropped := rfl
@[simp] theorem State.dropWrite_lastCmd : s.dropWrite.lastCmd = s.lastCmd := rfl
@[simp] theorem State.dropWrite_srcAddr : s.dropWrite.srcAddr = s.srcAddr := rfl
@[simp] theorem State.dropWrite_srcLen : s.dropWrite.srcLen = s.srcLen := rfl
@[simp] theorem State.dropWrite_dstAddr : s.dropWrite.dstAddr = s.dstAddr := rfl
@[simp] theorem State.dropWrite_dstCap : s.dropWrite.dstCap = s.dstCap := rfl
@[simp] theorem State.dropWrite_dstLen : s.dropWrite.dstLen = s.dstLen := rfl
@[simp] theorem State.dropWrite_pending : s.dropWrite.pending = s.pending := rfl
@[simp] theorem State.dropWrite_draws : s.dropWrite.draws = s.draws := rfl
@[simp] theorem State.dropWrite_inputs : s.dropWrite.inputs = s.inputs := rfl
@[simp] theorem State.dropWrite_readData : s.dropWrite.readData = s.readData := rfl
@[simp] theorem State.dropWrite_operandFaults : s.dropWrite.operandFaults = s.operandFaults := rfl

/-! ### writeStatus -/

@[simp] theorem State.writeStatus_params (v : Word) : (s.writeStatus v).params = s.params := rfl
@[simp] theorem State.writeStatus_x (v : Word) : (s.writeStatus v).x = s.x := rfl
@[simp] theorem State.writeStatus_dmem (v : Word) : (s.writeStatus v).dmem = s.dmem := rfl
@[simp] theorem State.writeStatus_irqEn (v : Word) : (s.writeStatus v).irqEn = s.irqEn := rfl
@[simp] theorem State.writeStatus_status (v : Word) : (s.writeStatus v).status = s.status.acknowledged v := rfl
@[simp] theorem State.writeStatus_lastCmd (v : Word) : (s.writeStatus v).lastCmd = s.lastCmd := rfl
@[simp] theorem State.writeStatus_srcAddr (v : Word) : (s.writeStatus v).srcAddr = s.srcAddr := rfl
@[simp] theorem State.writeStatus_srcLen (v : Word) : (s.writeStatus v).srcLen = s.srcLen := rfl
@[simp] theorem State.writeStatus_dstAddr (v : Word) : (s.writeStatus v).dstAddr = s.dstAddr := rfl
@[simp] theorem State.writeStatus_dstCap (v : Word) : (s.writeStatus v).dstCap = s.dstCap := rfl
@[simp] theorem State.writeStatus_dstLen (v : Word) : (s.writeStatus v).dstLen = s.dstLen := rfl
@[simp] theorem State.writeStatus_pending (v : Word) : (s.writeStatus v).pending = s.pending := rfl
@[simp] theorem State.writeStatus_draws (v : Word) : (s.writeStatus v).draws = s.draws := rfl
@[simp] theorem State.writeStatus_inputs (v : Word) : (s.writeStatus v).inputs = s.inputs := rfl
@[simp] theorem State.writeStatus_readData (v : Word) : (s.writeStatus v).readData = s.readData := rfl
@[simp] theorem State.writeStatus_operandFaults (v : Word) : (s.writeStatus v).operandFaults = s.operandFaults := rfl

/-! ### Views -/

@[simp] theorem State.setReg_source (r : Reg) (b : BigReg) (p : Pending) (h : s.pending = some p) :
    (s.setReg r b).source = s.source := by simp [State.source, h]

@[simp] theorem State.busy_issue (cmd : Word) : (s.issue cmd).busy = true := rfl

@[simp] theorem State.busy_finish (c : ErrCode) : (s.finish c).busy = false := rfl

@[simp] theorem State.busy_dropWrite : s.dropWrite.busy = s.busy := rfl

@[simp] theorem State.busy_writeStatus (v : Word) : (s.writeStatus v).busy = s.busy := rfl

@[simp] theorem State.busy_withInputs (rest : List Input) : (s.withInputs rest).busy = s.busy := rfl

@[simp] theorem State.busy_drawn : s.drawn.busy = s.busy := rfl

@[simp] theorem State.snapshot_withInputs (rest : List Input) :
    (s.withInputs rest).snapshot = s.snapshot := rfl

@[simp] theorem State.source_withInputs (rest : List Input) : (s.withInputs rest).source = s.source := rfl

@[simp] theorem State.source_drawn : s.drawn.source = s.source := rfl

/-- With a command pending, its operands are its snapshot (R96). -/
theorem State.source_of_pending (p : Pending) (h : s.pending = some p) : s.source = p.snap := by
  simp [State.source, h]

/-- With no command pending, the operands are the state as it stands. -/
theorem State.source_of_idle (h : s.pending = none) : s.source = s.snapshot := by
  simp [State.source, h]

/-- STATUS as a number (R37). -/
theorem State.statusWord_toNat :
    s.statusWord.toNat = s.status.errcode.toNat * 256 + s.status.ovr.toNat * 8 + s.status.err.toNat * 4 +
      s.status.done.toNat * 2 + s.busy.toNat := by
  simp only [State.statusWord, append_toNat, BitVec.toNat_ofBool, BitVec.toNat_ofNat]
  omega

/-- CTRL as a number (R35). -/
theorem State.ctrlWord_toNat : s.ctrlWord.toNat = s.irqEn.toNat := by
  simp only [State.ctrlWord, append_toNat, BitVec.toNat_ofBool, BitVec.toNat_ofNat]
  omega

@[simp] theorem Status.completed_done (st : Status) (c : ErrCode) : (st.completed c).done = true := rfl

@[simp] theorem Status.completed_errcode (st : Status) (c : ErrCode) :
    (st.completed c).errcode = c.code := rfl

@[simp] theorem Status.completed_ovr (st : Status) (c : ErrCode) : (st.completed c).ovr = st.ovr := rfl

@[simp] theorem Status.completed_err (st : Status) (c : ErrCode) :
    (st.completed c).err = decide (c.code ≠ 0) := rfl

@[simp] theorem Status.issued_done (st : Status) : st.issued.done = false := rfl

@[simp] theorem Status.issued_err (st : Status) : st.issued.err = false := rfl

@[simp] theorem Status.issued_ovr (st : Status) : st.issued.ovr = st.ovr := rfl

@[simp] theorem Status.issued_errcode (st : Status) : st.issued.errcode = 0 := rfl

@[simp] theorem Status.dropped_done (st : Status) : st.dropped.done = st.done := rfl

@[simp] theorem Status.dropped_err (st : Status) : st.dropped.err = st.err := rfl

@[simp] theorem Status.dropped_ovr (st : Status) : st.dropped.ovr = true := rfl

@[simp] theorem Status.dropped_errcode (st : Status) : st.dropped.errcode = st.errcode := rfl

@[simp] theorem Status.acknowledged_done (st : Status) (v : Word) :
    (st.acknowledged v).done = (st.done && !v.getLsbD 1) := rfl

@[simp] theorem Status.acknowledged_err (st : Status) (v : Word) : (st.acknowledged v).err = st.err := rfl

@[simp] theorem Status.acknowledged_ovr (st : Status) (v : Word) :
    (st.acknowledged v).ovr = (st.ovr && !v.getLsbD 3) := rfl

@[simp] theorem Status.acknowledged_errcode (st : Status) (v : Word) :
    (st.acknowledged v).errcode = st.errcode := rfl

/-- Only NONE has the code 0 (R173). -/
theorem ErrCode.code_eq_zero (c : ErrCode) : c.code = 0 ↔ c = .none := by cases c <;> decide

/-- No code is above 0xB (R173, R174). -/
theorem ErrCode.code_le (c : ErrCode) : c.code ≤ 0xB := by cases c <;> decide

end Sys2Proof.Machine
end

