-- ==== Sys2Proof/Laws/BigReg.lean ====
section
/-! SUPPORT. The laws of the big registers: a register read after a write, a word read after a word
write, and that every register operation keeps the range and the canonical form. -/

namespace Sys2Proof.Machine

/-! ### The register file -/

@[simp] theorem State.reg_setReg_same (s : State) (r : Reg) (b : BigReg) : (s.setReg r b).reg r = b := by
  simp [State.reg, State.setReg, Vector.get_eq_getElem]

theorem State.reg_setReg_other (s : State) (r r' : Reg) (b : BigReg) (h : r' ≠ r) :
    (s.setReg r b).reg r' = s.reg r' := by
  have : r.val ≠ r'.val := fun e => h (Fin.ext e.symm)
  simp [State.reg, State.setReg, Vector.get_eq_getElem, this]

theorem State.reg_setReg (s : State) (r r' : Reg) (b : BigReg) :
    (s.setReg r b).reg r' = if r' = r then b else s.reg r' := by
  split
  · next h => rw [h, State.reg_setReg_same]
  · next h => exact State.reg_setReg_other s r r' b h

@[simp] theorem State.reg_writeReg_same (s : State) (r : Reg) (v : Nat) :
    (s.writeReg r v).reg r = BigReg.ofNat v := State.reg_setReg_same ..

theorem State.reg_writeReg_other (s : State) (r r' : Reg) (v : Nat) (h : r' ≠ r) :
    (s.writeReg r v).reg r' = s.reg r' := State.reg_setReg_other s r r' _ h

@[simp] theorem State.reg_finish (s : State) (c : ErrCode) (r : Reg) : (s.finish c).reg r = s.reg r := rfl

@[simp] theorem State.reg_drawn (s : State) (r : Reg) : s.drawn.reg r = s.reg r := rfl

@[simp] theorem State.reg_output (s : State) (out : List Byte) (r : Reg) :
    (s.output out).reg r = s.reg r := rfl

@[simp] theorem State.reg_setDmem (s : State) (m : Memory) (r : Reg) : (s.setDmem m).reg r = s.reg r := rfl

@[simp] theorem State.reg_clearControl (s : State) (r : Reg) : s.clearControl.reg r = s.reg r := rfl

@[simp] theorem State.reg_withInputs (s : State) (rest : List Input) (r : Reg) :
    (s.withInputs rest).reg r = s.reg r := rfl

@[simp] theorem State.reg_powerOnReset (s : State) (r : Reg) :
    s.powerOnReset.reg r = BigReg.unspecified s.params.words := by
  simp [State.reg, Vector.get_eq_getElem]

/-! ### One register as an operand -/

@[simp] theorem BigReg.value?_ofNat (v : Nat) : (BigReg.ofNat v).value? = some v := rfl

@[simp] theorem BigReg.val_ofNat (v : Nat) : (BigReg.ofNat v).val = v := rfl

@[simp] theorem BigReg.unspec_ofNat (v : Nat) : (BigReg.ofNat v).unspec = [] := rfl

theorem BigReg.value?_eq_some (r : BigReg) (v : Nat) : r.value? = some v ↔ r = BigReg.ofNat v := by
  cases r with
  | mk val unspec =>
    simp only [BigReg.value?, BigReg.ofNat, BigReg.mk.injEq]
    split <;> simp_all [eq_comm]

/-! ### Words of a register -/

theorem BigReg.setWord_mod (r : BigReg) (j : Nat) (v : Word) :
    (r.setWord j v).val % 2 ^ (32 * j) = r.val % 2 ^ (32 * j) := by
  simp [BigReg.setWord]

theorem BigReg.setWord_div (r : BigReg) (j : Nat) (v : Word) :
    (r.setWord j v).val / 2 ^ (32 * j) = v.toNat + 2 ^ 32 * (r.val / 2 ^ (32 * (j + 1))) := by
  have hp : 0 < 2 ^ (32 * j) := Nat.two_pow_pos _
  rw [BigReg.setWord, Nat.add_mul_div_left _ _ hp, Nat.div_eq_of_lt (Nat.mod_lt _ hp), Nat.zero_add]

theorem BigReg.setWord_div_succ (r : BigReg) (j : Nat) (v : Word) :
    (r.setWord j v).val / 2 ^ (32 * (j + 1)) = r.val / 2 ^ (32 * (j + 1)) := by
  have hv := v.isLt
  rw [show 32 * (j + 1) = 32 * j + 32 by omega, Nat.pow_add, ← Nat.div_div_eq_div_mul,
    BigReg.setWord_div, show 32 * (j + 1) = 32 * j + 32 by omega, Nat.pow_add]
  omega

/-- Word `j` reads back as written (R57). -/
@[simp] theorem BigReg.word_setWord_same (r : BigReg) (j : Nat) (v : Word) : (r.setWord j v).word j = v := by
  apply BitVec.eq_of_toNat_eq
  have hv := v.isLt
  rw [BigReg.word, BitVec.toNat_ofNat, BigReg.setWord_div]
  omega

/-- Every other word of the register is unchanged (R57). -/
theorem BigReg.word_setWord_other (r : BigReg) (j k : Nat) (v : Word) (h : k ≠ j) :
    (r.setWord j v).word k = r.word k := by
  apply BitVec.eq_of_toNat_eq
  rw [BigReg.word, BigReg.word, BitVec.toNat_ofNat, BitVec.toNat_ofNat]
  rcases Nat.lt_or_gt_of_ne h with h | h
  · have dvd : 2 ^ (32 * k) * 2 ^ 32 ∣ 2 ^ (32 * j) := by
      rw [← Nat.pow_add]; exact Nat.pow_dvd_pow 2 (by omega)
    rw [← Nat.mod_mul_right_div_self, ← Nat.mod_mul_right_div_self,
      ← Nat.mod_mod_of_dvd _ dvd, BigReg.setWord_mod, Nat.mod_mod_of_dvd _ dvd]
  · have split : 32 * k = 32 * (j + 1) + 32 * (k - j - 1) := by omega
    rw [split, Nat.pow_add, ← Nat.div_div_eq_div_mul, ← Nat.div_div_eq_div_mul, BigReg.setWord_div_succ]

/-- A word write keeps the value below `2^OPW` (R23). -/
theorem BigReg.setWord_lt (r : BigReg) (n j : Nat) (v : Word) (hj : j < n) (h : r.val < 2 ^ (32 * n)) :
    (r.setWord j v).val < 2 ^ (32 * n) := by
  have split : 32 * n = 32 * (n - j - 1) + 32 * (j + 1) := by omega
  rw [split, Nat.pow_add] at h ⊢
  rw [← Nat.div_lt_iff_lt_mul (Nat.two_pow_pos _)] at h ⊢
  rwa [BigReg.setWord_div_succ]

/-- A word write, bit by bit (R57). -/
theorem BigReg.testBit_setWord (r : BigReg) (j : Nat) (v : Word) (b : Nat) :
    (r.setWord j v).val.testBit b =
      if 32 * j ≤ b ∧ b < 32 * j + 32 then v.getLsbD (b - 32 * j) else r.val.testBit b := by
  by_cases h1 : b < 32 * j
  · rw [if_neg (by omega)]
    have := congrArg (fun n => n.testBit b) (BigReg.setWord_mod r j v)
    simpa [Nat.testBit_mod_two_pow, h1] using this
  · by_cases h2 : b < 32 * j + 32
    · rw [if_pos (by omega)]
      have := congrArg (fun n => n.testBit (b - 32 * j)) (BigReg.setWord_div r j v)
      simp only [Nat.testBit_div_two_pow] at this
      rw [show b - 32 * j + 32 * j = b by omega] at this
      rw [this, Nat.add_comm, Nat.testBit_two_pow_mul_add _ v.isLt, if_pos (by omega),
        BitVec.testBit_toNat]
    · rw [if_neg (by omega)]
      have := congrArg (fun n => n.testBit (b - 32 * (j + 1))) (BigReg.setWord_div_succ r j v)
      simp only [Nat.testBit_div_two_pow] at this
      rwa [show b - 32 * (j + 1) + 32 * (j + 1) = b by omega] at this

theorem BigReg.mem_unspec_setWord (r : BigReg) (j k : Nat) (v : Word) :
    k ∈ (r.setWord j v).unspec ↔ k ∈ r.unspec ∧ k ≠ j := by
  simp [BigReg.setWord]

/-! ### The range and the canonical form -/

theorem BigReg.wf_iff (n : Nat) (r : BigReg) :
    r.wf n = true ↔ r.val < 2 ^ (32 * n) ∧ r.unspec.Pairwise (· < ·) ∧
      ∀ j ∈ r.unspec, j < n ∧ r.word j = 0 := by
  simp [BigReg.wf, and_assoc]

theorem BigReg.wf_ofNat (n v : Nat) (h : v < 2 ^ (32 * n)) : (BigReg.ofNat v).wf n = true := by
  simp [BigReg.wf_iff, h]

theorem BigReg.wf_unspecified (n : Nat) : (BigReg.unspecified n).wf n = true := by
  rw [BigReg.wf_iff]
  refine ⟨Nat.two_pow_pos _, List.pairwise_lt_range, fun j hj => ⟨List.mem_range.mp hj, ?_⟩⟩
  simp [BigReg.word, BigReg.unspecified]

theorem BigReg.wf_setWord (n : Nat) (r : BigReg) (j : Nat) (v : Word) (hj : j < n) (h : r.wf n = true) :
    (r.setWord j v).wf n = true := by
  rw [BigReg.wf_iff] at h ⊢
  refine ⟨BigReg.setWord_lt r n j v hj h.1, h.2.1.filter _, fun k hk => ?_⟩
  have hk := (BigReg.mem_unspec_setWord r j k v).mp hk
  exact ⟨(h.2.2 k hk.1).1, by rw [BigReg.word_setWord_other r j k v hk.2]; exact (h.2.2 k hk.1).2⟩

theorem BigReg.value_lt {n v : Nat} {r : BigReg} (h : r.wf n = true) (hv : r.value? = some v) :
    v < 2 ^ (32 * n) := by
  have e := (BigReg.value?_eq_some r v).mp hv
  subst e
  exact ((BigReg.wf_iff _ _).mp h).1

theorem State.regsWf_iff (s : State) : s.regsWf = true ↔ ∀ r : Reg, (s.reg r).wf s.params.words = true := by
  simp only [State.regsWf, List.all_eq_true, State.reg, Vector.get_eq_getElem]
  constructor
  · intro h r
    exact h _ (by simp)
  · intro h b hb
    obtain ⟨i, hi, e⟩ := List.getElem_of_mem hb
    have hi : i < 16 := by simpa using hi
    have := h ⟨i, hi⟩
    simp at this e
    rwa [← e]

theorem State.regsWf_setReg (s : State) (r : Reg) (b : BigReg) (hb : b.wf s.params.words = true)
    (h : s.regsWf = true) : (s.setReg r b).regsWf = true := by
  rw [State.regsWf_iff] at h ⊢
  intro r'
  rw [State.reg_setReg]
  split
  · exact hb
  · exact h r'

theorem State.regsWf_writeReg (s : State) (r : Reg) (v : Nat) (hv : v < 2 ^ (32 * s.params.words))
    (h : s.regsWf = true) : (s.writeReg r v).regsWf = true :=
  State.regsWf_setReg s r _ (BigReg.wf_ofNat _ _ hv) h

/-! ### A register whose unspecified words are given (R97) -/

theorem BigReg.fill_of_value? {r : BigReg} {v : Nat} (h : r.value? = some v) (free : Nat → Word) :
    r.fill free = v := by
  rw [(BigReg.value?_eq_some r v).mp h]; rfl

/-- What one after another word write leaves: the words not named, and the canonical form. -/
theorem BigReg.foldl_setWord (free : Nat → Word) (js : List Nat) (r : BigReg) :
    (∀ k, k ∉ js → (js.foldl (fun b j => b.setWord j (free j)) r).word k = r.word k) ∧
    ∀ n, (∀ j ∈ js, j < n) → r.wf n = true → (js.foldl (fun b j => b.setWord j (free j)) r).wf n = true := by
  induction js generalizing r with
  | nil => simp
  | cons j js ih =>
    obtain ⟨hw, hf⟩ := ih (r.setWord j (free j))
    refine ⟨fun k hk => ?_, fun n hn h => ?_⟩
    · simp only [List.mem_cons, not_or] at hk
      exact (hw k hk.2).trans (BigReg.word_setWord_other r j k _ hk.1)
    · exact hf n (fun j' hj' => hn j' (List.mem_cons_of_mem _ hj'))
        (BigReg.wf_setWord n r j _ (hn j List.mem_cons_self) h)

/-- The specified words keep their bits. -/
theorem BigReg.word_fill (r : BigReg) (free : Nat → Word) (k : Nat) (h : k ∉ r.unspec) :
    (BigReg.ofNat (r.fill free)).word k = r.word k := (BigReg.foldl_setWord free r.unspec r).1 k h

/-- The value stays below `2^OPW`. -/
theorem BigReg.fill_lt {n : Nat} {r : BigReg} (h : r.wf n = true) (free : Nat → Word) :
    r.fill free < 2 ^ (32 * n) := by
  have hj := fun j hj => (((BigReg.wf_iff n r).mp h).2.2 j hj).1
  exact ((BigReg.wf_iff _ _).mp ((BigReg.foldl_setWord free r.unspec r).2 n hj h)).1

/-- `OPW` is 32 times the number of words of a register (R58). -/
theorem opw_eq_words (p : Params) : p.opw = 32 * p.words := by
  simp only [Params.opw, Params.words]; omega

end Sys2Proof.Machine
end

