-- ==== Sys2Proof/Laws/BitPacker.lean ====
section
/-! SUPPORT. Bit strings bit by bit (00_scope.md R14), and the lengths of split and join. -/

namespace Sys2Proof.Machine

/-! ### bitsMSB and val -/

@[simp] theorem bitsMSB_length (v k : Nat) : (bitsMSB v k).length = k := by
  induction k with
  | zero => rfl
  | succ k ih => simp [bitsMSB, ih]

/-- Bit `i` of `bitsMSB(v, k)` is bit `k - 1 - i` of `v`: most significant first. -/
theorem bitsMSB_getElem? (v k i : Nat) (h : i < k) : (bitsMSB v k)[i]? = some (v.testBit (k - 1 - i)) := by
  induction k generalizing i with
  | zero => omega
  | succ k ih =>
    cases i with
    | zero => simp [bitsMSB]
    | succ i =>
      rw [bitsMSB, List.getElem?_cons_succ, ih i (by omega)]
      congr 2; omega

@[simp] theorem bitsVal_nil : bitsVal [] = 0 := rfl

theorem bitsVal_append_singleton (S : List Bool) (b : Bool) :
    bitsVal (S ++ [b]) = 2 * bitsVal S + b.toNat := by
  simp [bitsVal, List.foldl_append]

theorem bitsVal_lt (S : List Bool) : bitsVal S < 2 ^ S.length := by
  induction S using List.reverseRecOn with
  | nil => simp
  | append_singleton S b ih =>
    rw [bitsVal_append_singleton, List.length_append, List.length_singleton, Nat.pow_succ]
    have := Bool.toNat_lt b
    omega

/-- Bit `t` of `val(S)` is the bit of `S` that stands `t` places before its end. -/
theorem bitsVal_testBit (S : List Bool) (t : Nat) (h : t < S.length) :
    some ((bitsVal S).testBit t) = S[S.length - 1 - t]? := by
  induction S using List.reverseRecOn generalizing t with
  | nil => simp at h
  | append_singleton S b ih =>
    rw [bitsVal_append_singleton]
    cases t with
    | zero => cases b <;> simp
    | succ t =>
      have hs : t < S.length := by simp at h; omega
      have e : (2 * bitsVal S + b.toNat) / 2 = bitsVal S := by
        have := Bool.toNat_lt b; omega
      rw [Nat.testBit_succ, e, ih t hs, List.length_append, List.length_singleton,
        List.getElem?_append_left (by omega)]
      congr 1; omega

/-- `val(bitsMSB(v, k))` is `v mod 2^k` (R14). -/
theorem bitsVal_bitsMSB (v k : Nat) : bitsVal (bitsMSB v k) = v % 2 ^ k := by
  apply Nat.eq_of_testBit_eq
  intro t
  rw [Nat.testBit_mod_two_pow]
  by_cases h : t < k
  · have e := bitsVal_testBit (bitsMSB v k) t (by simpa using h)
    rw [bitsMSB_length, bitsMSB_getElem? v k _ (by omega), Option.some_inj] at e
    rw [e]
    simp only [h, decide_true, Bool.true_and]
    congr 1; omega
  · simp only [h, decide_false, Bool.false_and]
    apply Nat.testBit_lt_two_pow
    have := bitsVal_lt (bitsMSB v k)
    rw [bitsMSB_length] at this
    exact Nat.lt_of_lt_of_le this (Nat.pow_le_pow_right (by decide) (by omega))

/-! ### Concatenation -/

@[simp] theorem bitString_nil (k : Nat) : bitString [] k = [] := rfl

theorem bitString_cons (b : Byte) (data : List Byte) (k : Nat) :
    bitString (b :: data) k = bitsMSB b.toNat k ++ bitString data k := by
  simp [bitString]

@[simp] theorem bitString_length (data : List Byte) (k : Nat) :
    (bitString data k).length = k * data.length := by
  induction data with
  | nil => simp
  | cons b data ih =>
    rw [bitString_cons, List.length_append, bitsMSB_length, ih, List.length_cons]; ring

/-- Bit `t * k + i` of the concatenation is bit `i` of `bitsMSB(data[t], k)`. -/
theorem bitString_getElem? (data : List Byte) (k t i : Nat) (hi : i < k) (ht : t < data.length) :
    (bitString data k)[t * k + i]? = some (data[t].toNat.testBit (k - 1 - i)) := by
  induction data generalizing t with
  | nil => simp at ht
  | cons b data ih =>
    rw [bitString_cons]
    cases t with
    | zero =>
      rw [Nat.zero_mul, Nat.zero_add, List.getElem?_append_left (by simpa using hi)]
      exact bitsMSB_getElem? _ _ _ hi
    | succ t =>
      have e : (t + 1) * k + i = k + (t * k + i) := by ring
      rw [e, List.getElem?_append_right (by simp), bitsMSB_length, Nat.add_sub_cancel_left,
        ih t (by simpa using ht)]
      rfl

/-! ### Groups -/

@[simp] theorem groups_length (S : List Bool) (w n : Nat) : (groups S w n).length = n := by
  simp [groups]

theorem groups_getElem? (S : List Bool) (w n j : Nat) (h : j < n) :
    (groups S w n)[j]? = some (BitVec.ofNat 8 (bitsVal ((S.drop (j * w)).take w))) := by
  simp [groups, h]

/-- The number a group holds, for `w` up to 8. -/
theorem group_toNat (S : List Bool) (w j : Nat) (hw : w ≤ 8) :
    (BitVec.ofNat 8 (bitsVal ((S.drop (j * w)).take w))).toNat = bitsVal ((S.drop (j * w)).take w) := by
  rw [BitVec.toNat_ofNat]
  apply Nat.mod_eq_of_lt
  refine Nat.lt_of_lt_of_le (bitsVal_lt _) (Nat.pow_le_pow_right (by decide) ?_)
  exact Nat.le_trans (List.length_take_le _ _) hw

/-- Bit `w - 1 - k` of a whole group is bit `k` of its part of the string. -/
theorem group_testBit (S : List Bool) (w j k : Nat) (hk : k < w) (hS : (j + 1) * w ≤ S.length) :
    some ((bitsVal ((S.drop (j * w)).take w)).testBit (w - 1 - k)) = S[j * w + k]? := by
  have hl : ((S.drop (j * w)).take w).length = w := by
    rw [List.length_take, List.length_drop]
    have : (j + 1) * w = j * w + w := by ring
    omega
  rw [bitsVal_testBit _ _ (by rw [hl]; omega), hl, List.getElem?_take_of_lt (by omega), List.getElem?_drop]
  congr 1; omega

/-! ### Lengths -/

theorem splitLen_mul_ge (len w : Nat) (hw : 1 ≤ w) : 8 * len ≤ splitLen len w * w := by
  unfold splitLen
  have h := Nat.div_add_mod (8 * len + w - 1) w
  have m := Nat.mod_lt (8 * len + w - 1) (show 0 < w by omega)
  rw [Nat.mul_comm] at h
  omega

/-- The padding is shorter than a group (R102). -/
theorem splitLen_mul_lt (len w : Nat) (hw : 1 ≤ w) : splitLen len w * w < 8 * len + w := by
  unfold splitLen
  have h := Nat.div_mul_le_self (8 * len + w - 1) w
  omega

@[simp] theorem split_length (data : List Byte) (w : Nat) :
    (split data w).length = splitLen data.length w := by simp [split]

@[simp] theorem join_length (data : List Byte) (w : Nat) :
    (join data w).length = joinLen data.length w := by simp [join]

/-- The padded string of SPLIT is whole groups (R102). -/
theorem padded_length (data : List Byte) (w : Nat) (hw : 1 ≤ w) :
    (bitString data 8 ++ List.replicate (splitLen data.length w * w - 8 * data.length) false).length =
      splitLen data.length w * w := by
  have := splitLen_mul_ge data.length w hw
  simp only [List.length_append, bitString_length, List.length_replicate]
  omega

/-- Every group of SPLIT is below `2^w` (R102). -/
theorem split_lt (data : List Byte) (w j : Nat) (hw : w ≤ 8) (h : j < (split data w).length) :
    (split data w)[j].toNat < 2 ^ w := by
  have hj : j < splitLen data.length w := by simpa using h
  have e := groups_getElem? (bitString data 8 ++
    List.replicate (splitLen data.length w * w - 8 * data.length) false) w _ j hj
  have e' : (split data w)[j]? = some _ := e
  rw [List.getElem?_eq_getElem h, Option.some_inj] at e'
  rw [e', group_toNat _ _ _ hw]
  refine Nat.lt_of_lt_of_le (bitsVal_lt _) (Nat.pow_le_pow_right (by decide) (List.length_take_le _ _))

end Sys2Proof.Machine
end

