-- ==== Sys2Proof/Laws/Codec.lean ====
section
/-! SUPPORT. The unit width and the unit size of a modulus (44_codec.md R153, R154), and the codec's
functions in the packed branch, where the unit size is 1. -/

namespace Sys2Proof.Machine

/-- In the packed branch `m = 1` (R154). -/
theorem unitSize_of_lt (n : Nat) (h : n < 256) : unitSize n = 1 := by
  have : bitlen n ≤ 8 := bitlen_le n 8 h
  unfold unitSize
  omega

/-- `2^w <= n < 2^(w+1)` (R153). -/
theorem unitWidth_spec (n : Nat) (h : 2 ≤ n) : 2 ^ unitWidth n ≤ n ∧ n < 2 ^ (unitWidth n + 1) := by
  have h0 : n ≠ 0 := by omega
  have hp := bitlen_pos n h0
  refine ⟨two_pow_bitlen_le n h0, ?_⟩
  rw [unitWidth, Nat.sub_add_cancel hp]
  exact lt_two_pow_bitlen n

/-- In the packed branch the width is in `[1, 7]` (R153). -/
theorem unitWidth_range (n : Nat) (h : 2 ≤ n) (h' : n < 256) : 1 ≤ unitWidth n ∧ unitWidth n ≤ 7 := by
  have s := unitWidth_spec n h
  constructor
  · by_contra c
    have : unitWidth n = 0 := by omega
    rw [this] at s
    omega
  · have : 2 ^ unitWidth n < 2 ^ 8 := Nat.lt_of_le_of_lt s.1 h'
    have := (Nat.pow_lt_pow_iff_right (by decide : 1 < 2)).mp this
    omega

@[simp] theorem leBytes_length (m v : Nat) : (leBytes m v).length = m := by simp [leBytes]

@[simp] theorem leBytes_one (v : Nat) : leBytes 1 v = [BitVec.ofNat 8 v] := by
  simp [leBytes, List.range_succ]

@[simp] theorem leGroups_one (data : List Byte) : leGroups 1 data = data.map BitVec.toNat := by
  apply List.ext_getElem?
  intro j
  simp only [leGroups, Nat.div_one, Nat.mul_one, List.getElem?_map]
  by_cases h : j < data.length
  · rw [List.getElem?_eq_getElem h, List.getElem?_range h]
    change some (leValue ((data.drop j).take 1)) = some data[j].toNat
    rw [List.drop_eq_getElem_cons h]
    rfl
  · rw [List.getElem?_eq_none (by simpa using h), List.getElem?_eq_none (by simpa using h)]
    rfl

/-- The packed branch of ENCODE for `n < 256`: one byte a unit (R157). -/
theorem encodePacked_eq (n k : Nat) (msg : List Byte) (h : n < 256) :
    encodePacked n k msg =
      (split msg (unitWidth n)).map fun u => BitVec.ofNat 8 (powMod u.toNat k n) := by
  simp only [encodePacked, unitSize_of_lt n h, leBytes_one]
  exact List.flatMap_pure_eq_map ..

/-- The packed branch of DECODE for `n < 256`: one unit a byte (R163). -/
theorem decodePacked_eq (n k : Nat) (data : List Byte) (h : n < 256) :
    decodePacked n k data =
      join (data.map fun c => BitVec.ofNat 8 (powMod c.toNat k n)) (unitWidth n) := by
  simp [decodePacked, unitSize_of_lt n h, Function.comp_def]

@[simp] theorem encodePacked_length (n k : Nat) (msg : List Byte) :
    (encodePacked n k msg).length = encodePackedLen n msg.length := by
  simp [encodePacked, encodePackedLen, List.length_flatMap]

@[simp] theorem decodePacked_length (n k : Nat) (data : List Byte) :
    (decodePacked n k data).length = decodePackedLen n data.length := by
  simp [decodePacked, decodePackedLen, leGroups]

theorem byteResult?_eq_none (k n : Nat) (b : Byte) (hn : n ≠ 0) :
    byteResult? k n b = none ↔ 256 ≤ b.toNat ^ k % n := by
  rw [byteResult?, powMod_eq _ _ _ hn]
  split <;> simp <;> omega

theorem byteResult?_eq_some (k n : Nat) (b c : Byte) (hn : n ≠ 0) :
    byteResult? k n b = some c ↔ c.toNat = b.toNat ^ k % n := by
  rw [byteResult?, powMod_eq _ _ _ hn]
  have := c.isLt
  split
  · next h =>
    rw [Option.some_inj, ← BitVec.toNat_inj, BitVec.toNat_ofNat, Nat.mod_eq_of_lt h, eq_comm]
  · next h => simp; omega

/-- The check of ENCODE gives an alphanumeric byte out as it is, and no other (R152). -/
theorem alnumByte?_eq_some (b c : Byte) : alnumByte? b = some c ↔ isAlnum b = true ∧ b = c := by
  rw [alnumByte?]; split <;> simp_all

end Sys2Proof.Machine
end

