-- ==== Sys2Proof/Laws/Encoding.lean ====
section
/-! SUPPORT. The command word: the fields of an encoded word, and what selecting a row of the opcode map
says of a word's fields (30_encoding.md R75 to R83). -/

namespace Sys2Proof

/-! ### The fields of an encoded word -/

section Fields

variable (op : BitVec 6) (rd rs1 rs2 r3 r4 : Reg) (imm4 : BitVec 4)

theorem commandWord_toNat :
    (commandWord op rd rs1 rs2 r3 r4 imm4).toNat =
      op.toNat * 2 ^ 26 + rd.val * 2 ^ 22 + rs1.val * 2 ^ 18 + rs2.val * 2 ^ 14 + r3.val * 2 ^ 10 +
        r4.val * 2 ^ 6 + imm4.toNat := by
  simp only [commandWord, append_toNat, BitVec.toNat_ofFin, BitVec.toNat_ofNat]
  omega

@[simp] theorem commandWord_op : Word.op (commandWord op rd rs1 rs2 r3 r4 imm4) = op := by
  apply BitVec.eq_of_toNat_eq
  rw [Word.op, field_toNat, commandWord_toNat]
  omega

@[simp] theorem commandWord_rd : Word.rd (commandWord op rd rs1 rs2 r3 r4 imm4) = rd := by
  apply Fin.ext
  rw [Word.rd, BitVec.val_toFin, field_toNat, commandWord_toNat]
  omega

@[simp] theorem commandWord_rs1 : Word.rs1 (commandWord op rd rs1 rs2 r3 r4 imm4) = rs1 := by
  apply Fin.ext
  rw [Word.rs1, BitVec.val_toFin, field_toNat, commandWord_toNat]
  omega

@[simp] theorem commandWord_rs2 : Word.rs2 (commandWord op rd rs1 rs2 r3 r4 imm4) = rs2 := by
  apply Fin.ext
  rw [Word.rs2, BitVec.val_toFin, field_toNat, commandWord_toNat]
  omega

@[simp] theorem commandWord_r3 : Word.r3 (commandWord op rd rs1 rs2 r3 r4 imm4) = r3 := by
  apply Fin.ext
  rw [Word.r3, BitVec.val_toFin, field_toNat, commandWord_toNat]
  omega

@[simp] theorem commandWord_r4 : Word.r4 (commandWord op rd rs1 rs2 r3 r4 imm4) = r4 := by
  apply Fin.ext
  rw [Word.r4, BitVec.val_toFin, field_toNat, commandWord_toNat]
  omega

@[simp] theorem commandWord_res : Word.res (commandWord op rd rs1 rs2 r3 r4 imm4) = 0 := by
  apply BitVec.eq_of_toNat_eq
  rw [Word.res, field_toNat, commandWord_toNat]
  change _ = 0
  omega

@[simp] theorem commandWord_imm4 : Word.imm4 (commandWord op rd rs1 rs2 r3 r4 imm4) = imm4 := by
  apply BitVec.eq_of_toNat_eq
  rw [Word.imm4, field_toNat, commandWord_toNat]
  omega

end Fields

/-! ### A row's mask -/

/-- A word equals a pattern under a mask of every bit from `hi` up and every bit below `lo`, exactly when
they agree on those bits. -/
theorem and_mask_iff (x p m : Word) (lo hi : Nat)
    (hm : ∀ i, i < 32 → m.getLsbD i = (decide (hi ≤ i) || decide (i < lo)))
    (hp : ∀ i, lo ≤ i → i < hi → p.getLsbD i = false) :
    x &&& m = p ↔ x.toNat / 2 ^ hi = p.toNat / 2 ^ hi ∧ x.toNat % 2 ^ lo = p.toNat % 2 ^ lo := by
  constructor
  · intro h
    have bits : ∀ i, hi ≤ i ∨ i < lo → x.toNat.testBit i = p.toNat.testBit i := by
      intro i hi'
      change x.getLsbD i = p.getLsbD i
      by_cases h32 : i < 32
      · rw [← h, BitVec.getLsbD_and, hm i h32]
        rcases hi' with hi' | hi' <;> simp [hi']
      · rw [BitVec.getLsbD_of_ge _ _ (by omega), BitVec.getLsbD_of_ge _ _ (by omega)]
    constructor
    · apply Nat.eq_of_testBit_eq
      intro i
      rw [Nat.testBit_div_two_pow, Nat.testBit_div_two_pow]
      exact bits _ (.inl (by omega))
    · apply Nat.eq_of_testBit_eq
      intro i
      rw [Nat.testBit_mod_two_pow, Nat.testBit_mod_two_pow]
      by_cases h' : i < lo
      · rw [bits i (.inr h')]
      · simp [h']
  · rintro ⟨h1, h2⟩
    apply BitVec.eq_of_getLsbD_eq
    intro i hi'
    rw [BitVec.getLsbD_and, hm i hi']
    by_cases c1 : hi ≤ i
    · have := congrArg (fun v => Nat.testBit v (i - hi)) h1
      simp only [Nat.testBit_div_two_pow] at this
      rw [show i - hi + hi = i by omega] at this
      simpa [c1, ← BitVec.testBit_toNat] using this
    · by_cases c2 : i < lo
      · have := congrArg (fun v => Nat.testBit v i) h2
        simp only [Nat.testBit_mod_two_pow, c2, decide_true, Bool.true_and] at this
        simpa [c2, ← BitVec.testBit_toNat] using this
      · simp [c1, c2, hp i (by omega) (by omega)]

/-- The bits a row fixes: all from this one up, and all below the second (R81). -/
def Op.free : Op → Nat × Nat
  | .nop => (0, 0)
  | .modexp => (26, 10)
  | .modmul => (26, 10)
  | .modred => (26, 14)
  | .gcd => (26, 14)
  | .xgcd => (26, 10)
  | .modinv => (26, 14)
  | .prime => (26, 18)
  | .keygen => (26, 6)
  | .split => (4, 0)
  | .join => (4, 0)
  | .encode => (22, 14)
  | .decode => (22, 14)

/-- Every mask covers the opcode field (R81). -/
theorem free_le : ∀ r ∈ opcodeMap, r.op.free.1 ≤ 26 := by decide

/-- The opcodes of the rows differ (R81). -/
theorem opcode_inj : ∀ r ∈ opcodeMap, ∀ r' ∈ opcodeMap,
    r.pattern.toNat / 2 ^ 26 = r'.pattern.toNat / 2 ^ 26 → r = r' := by decide

/-- A word selects a row of the map exactly when it agrees with the row's pattern on the fixed bits. -/
theorem selects_iff (r : Row) (hr : r ∈ opcodeMap) (cmd : Word) :
    r.selects cmd = true ↔
      cmd.toNat / 2 ^ r.op.free.1 = r.pattern.toNat / 2 ^ r.op.free.1 ∧
        cmd.toNat % 2 ^ r.op.free.2 = r.pattern.toNat % 2 ^ r.op.free.2 := by
  rw [Row.selects, beq_iff_eq]
  apply and_mask_iff
  · revert r; decide
  · intro i h1 h2
    have h32 : i < 32 := by
      have := free_le r hr
      omega
    have key : ∀ r ∈ opcodeMap, ∀ i : Fin 32, r.op.free.2 ≤ i.val → i.val < r.op.free.1 →
        r.pattern.getLsbD i.val = false := by decide
    exact key r hr ⟨i, h32⟩ h1 h2

/-- The row of the opcode map of a mnemonic. -/
def Op.row : Op → Row
  | .nop => ⟨.nop, 0x00000000#32, 0xFFFFFFFF#32⟩
  | .modexp => ⟨.modexp, 0x04000000#32, 0xFC0003FF#32⟩
  | .modmul => ⟨.modmul, 0x08000000#32, 0xFC0003FF#32⟩
  | .modred => ⟨.modred, 0x0C000000#32, 0xFC003FFF#32⟩
  | .gcd => ⟨.gcd, 0x10000000#32, 0xFC003FFF#32⟩
  | .xgcd => ⟨.xgcd, 0x14000000#32, 0xFC0003FF#32⟩
  | .modinv => ⟨.modinv, 0x18000000#32, 0xFC003FFF#32⟩
  | .prime => ⟨.prime, 0x1C000000#32, 0xFC03FFFF#32⟩
  | .keygen => ⟨.keygen, 0x20000000#32, 0xFC00003F#32⟩
  | .split => ⟨.split, 0x24000000#32, 0xFFFFFFF0#32⟩
  | .join => ⟨.join, 0x28000000#32, 0xFFFFFFF0#32⟩
  | .encode => ⟨.encode, 0x2C000000#32, 0xFFC03FFF#32⟩
  | .decode => ⟨.decode, 0x30000000#32, 0xFFC03FFF#32⟩

/-- The rows of the map are the rows of the mnemonics. -/
theorem row_mem (op : Op) : op.row ∈ opcodeMap := by cases op <;> decide

theorem eq_row (r : Row) (h : r ∈ opcodeMap) : r = r.op.row := by revert r; decide

@[simp] theorem row_op (op : Op) : op.row.op = op := by cases op <;> rfl

/-- A row's pattern and mask both hold the row's number in the opcode field, and every mask covers that
field. -/
theorem selects_opcode (r : Row) (hr : r ∈ opcodeMap) (cmd : Word) (h : r.selects cmd = true) :
    cmd.toNat / 2 ^ 26 = r.pattern.toNat / 2 ^ 26 := by
  have h := ((selects_iff r hr cmd).mp h).1
  have le := free_le r hr
  have e : 26 = r.op.free.1 + (26 - r.op.free.1) := by omega
  rw [e, Nat.pow_add, ← Nat.div_div_eq_div_mul, ← Nat.div_div_eq_div_mul, h]

/-- The rows are disjoint, since their opcodes differ (R81). -/
theorem row_unique (r r' : Row) (hr : r ∈ opcodeMap) (hr' : r' ∈ opcodeMap) (cmd : Word)
    (h : r.selects cmd = true) (h' : r'.selects cmd = true) : r = r' := by
  exact opcode_inj r hr r' hr' ((selects_opcode r hr cmd h).symm.trans (selects_opcode r' hr' cmd h'))

/-- A word that selects the row of `op` decodes to the command of that row (R83). -/
theorem decode_of_selects (op : Op) (cmd : Word) (h : op.row.selects cmd = true) :
    decode cmd = .ok (op.instr cmd) := by
  unfold decode
  split
  · next r hr =>
    have hm := List.mem_of_find?_eq_some hr
    have hs : r.selects cmd = true := List.find?_some (p := fun r : Row => r.selects cmd) hr
    have := row_unique r op.row hm (row_mem op) cmd hs h
    rw [this, row_op]
  · next hn =>
    exact absurd h (by simpa using List.find?_eq_none.mp hn op.row (row_mem op))

/-- A word that decodes to a command selects that command's row (R83). -/
theorem selects_of_decode (cmd : Word) (i : Instr) (h : decode cmd = .ok i) :
    ∃ op : Op, op.row.selects cmd = true ∧ i = op.instr cmd := by
  unfold decode at h
  split at h
  · next r hr =>
    have hm := List.mem_of_find?_eq_some hr
    refine ⟨r.op, ?_, by cases h; rfl⟩
    rw [← eq_row r hm]
    exact List.find?_some (p := fun r : Row => r.selects cmd) hr
  · cases h

end Sys2Proof
end

