-- ==== Sys2Proof/Laws/Memory.lean ====
section
/-! SUPPORT. The laws of DMEM: read after write, the frame of a write, and that every memory operation
keeps the canonical form and the bounds of DMEM. -/

namespace Sys2Proof.Machine

@[simp] theorem Memory.read_nil (a : Nat) : Memory.read [] a = none := rfl

/-! ### Read after write -/

@[simp] theorem Memory.read_write_same (m : Memory) (a : Nat) (b : Byte) :
    Memory.read (Memory.write m a b) a = some b := by
  induction m with
  | nil => simp [Memory.write, Memory.read]
  | cons c m ih =>
    unfold Memory.write
    split
    · simp [Memory.read]
    · split
      · simp [Memory.read]
      · rw [Memory.read, if_neg (by omega), ih]

theorem Memory.read_write_other (m : Memory) (a a' : Nat) (b : Byte) (h : a' ≠ a) :
    Memory.read (Memory.write m a b) a' = Memory.read m a' := by
  induction m with
  | nil => simp [Memory.write, Memory.read, Ne.symm h]
  | cons c m ih =>
    unfold Memory.write
    split
    · rw [Memory.read, if_neg (fun e => h e.symm)]
    · split
      · next h2 => simp [Memory.read, Ne.symm h, ← h2]
      · simp only [Memory.read, ih]

theorem Memory.read_writeBytes (bs : List Byte) (m : Memory) (a x : Nat) :
    Memory.read (Memory.writeBytes m a bs) x =
      if a ≤ x ∧ x < a + bs.length then bs[x - a]? else Memory.read m x := by
  induction bs generalizing m a with
  | nil => simp [Memory.writeBytes]
  | cons b bs ih =>
    rw [Memory.writeBytes, ih]
    simp only [List.length_cons]
    by_cases hx : x = a
    · subst hx; simp
    · by_cases h1 : a + 1 ≤ x ∧ x < a + 1 + bs.length
      · rw [if_pos h1, if_pos (by omega)]
        obtain ⟨k, hk⟩ : ∃ k, x - a = k + 1 := ⟨x - a - 1, by omega⟩
        rw [hk, List.getElem?_cons_succ, show x - (a + 1) = k by omega]
      · rw [if_neg h1, if_neg (by omega), Memory.read_write_other _ _ _ _ hx]

/-- The bytes written read back as the bytes given. -/
theorem Memory.read_writeBytes_inside (bs : List Byte) (m : Memory) (a t : Nat) (h : t < bs.length) :
    Memory.read (Memory.writeBytes m a bs) (a + t) = bs[t]? := by
  rw [Memory.read_writeBytes, if_pos (by omega), Nat.add_sub_cancel_left]

/-- Every byte outside the ones written reads as before. -/
theorem Memory.read_writeBytes_outside (bs : List Byte) (m : Memory) (a x : Nat)
    (h : x < a ∨ a + bs.length ≤ x) :
    Memory.read (Memory.writeBytes m a bs) x = Memory.read m x := by
  rw [Memory.read_writeBytes, if_neg (by omega)]

theorem Memory.read_forget (m : Memory) (a n x : Nat) :
    Memory.read (Memory.forget m a n) x = if a ≤ x ∧ x < a + n then none else Memory.read m x := by
  induction m with
  | nil => simp [Memory.forget]
  | cons c m ih =>
    have step : Memory.forget (c :: m) a n =
        if a ≤ c.1 ∧ c.1 < a + n then Memory.forget m a n else c :: Memory.forget m a n := by
      by_cases h : a ≤ c.1 ∧ c.1 < a + n
      · simp [Memory.forget, h]
      · simp only [Memory.forget, List.filter_cons, h, if_false]
        rw [if_pos]
        simp; omega
    rw [step]
    by_cases h : a ≤ c.1 ∧ c.1 < a + n
    · rw [if_pos h, ih]
      by_cases hx : c.1 = x
      · subst hx; simp [h]
      · simp [Memory.read, hx]
    · rw [if_neg h]
      simp only [Memory.read, ih]
      by_cases hx : c.1 = x
      · subst hx; simp [h]
      · simp [hx]

/-! ### The canonical form -/

theorem Memory.wf_iff (m : Memory) : Memory.wf m = true ↔ m.Pairwise (fun c d => c.1 < d.1) := by
  simp [Memory.wf]

@[simp] theorem Memory.wf_nil : Memory.wf [] = true := rfl

/-- A byte of a written memory is the one written or one of before. -/
theorem Memory.mem_write {m : Memory} {a : Nat} {b : Byte} {c : Host.Cell}
    (h : c ∈ Memory.write m a b) : c = (a, b) ∨ c ∈ m := by
  induction m with
  | nil => simpa [Memory.write] using h
  | cons d m ih =>
    unfold Memory.write at h
    split at h
    · simpa using h
    · split at h
      · rcases List.mem_cons.mp h with h | h
        · exact .inl h
        · exact .inr (List.mem_cons_of_mem _ h)
      · rcases List.mem_cons.mp h with h | h
        · exact .inr (h ▸ List.mem_cons_self)
        · exact (ih h).imp_right (List.mem_cons_of_mem _)

theorem Memory.wf_write (m : Memory) (a : Nat) (b : Byte) (h : Memory.wf m = true) :
    Memory.wf (Memory.write m a b) = true := by
  rw [Memory.wf_iff] at *
  induction m with
  | nil => simp [Memory.write]
  | cons c m ih =>
    have hc := List.pairwise_cons.mp h
    unfold Memory.write
    split
    · next h1 =>
      refine List.pairwise_cons.mpr ⟨fun d hd => ?_, h⟩
      rcases List.mem_cons.mp hd with hd | hd
      · subst hd; exact h1
      · exact Nat.lt_trans h1 (hc.1 d hd)
    · split
      · next h2 => exact List.pairwise_cons.mpr ⟨fun d hd => h2 ▸ hc.1 d hd, hc.2⟩
      · refine List.pairwise_cons.mpr ⟨fun d hd => ?_, ih hc.2⟩
        rcases Memory.mem_write hd with hd | hd
        · subst hd; simp only; omega
        · exact hc.1 d hd

theorem Memory.wf_writeBytes (bs : List Byte) (m : Memory) (a : Nat) (h : Memory.wf m = true) :
    Memory.wf (Memory.writeBytes m a bs) = true := by
  induction bs generalizing m a with
  | nil => exact h
  | cons b bs ih => exact ih _ _ (Memory.wf_write m a b h)

theorem Memory.wf_forget (m : Memory) (a n : Nat) (h : Memory.wf m = true) :
    Memory.wf (Memory.forget m a n) = true := by
  rw [Memory.wf_iff] at *
  exact h.filter _

/-! ### The bounds of DMEM -/

theorem Memory.inside_iff (size : Nat) (m : Memory) :
    Memory.inside size m = true ↔ ∀ c ∈ m, c.1 < size := by simp [Memory.inside]

@[simp] theorem Memory.inside_nil (size : Nat) : Memory.inside size [] = true := rfl

theorem Memory.inside_write (size : Nat) (m : Memory) (a : Nat) (b : Byte) (ha : a < size)
    (h : Memory.inside size m = true) : Memory.inside size (Memory.write m a b) = true := by
  rw [Memory.inside_iff] at *
  intro c hc
  rcases Memory.mem_write hc with hc | hc
  · subst hc; exact ha
  · exact h c hc

theorem Memory.inside_writeBytes (size : Nat) (bs : List Byte) (m : Memory) (a : Nat)
    (ha : a + bs.length ≤ size) (h : Memory.inside size m = true) :
    Memory.inside size (Memory.writeBytes m a bs) = true := by
  induction bs generalizing m a with
  | nil => exact h
  | cons b bs ih =>
    simp only [List.length_cons] at ha
    exact ih _ _ (by omega) (Memory.inside_write size m a b (by omega) h)

theorem Memory.inside_forget (size : Nat) (m : Memory) (a n : Nat) (h : Memory.inside size m = true) :
    Memory.inside size (Memory.forget m a n) = true := by
  rw [Memory.inside_iff] at *
  exact fun c hc => h c (List.mem_of_mem_filter hc)

/-! ### Words -/

@[simp] theorem wordBytes_length (v : Word) : (wordBytes v).length = 4 := rfl

/-- The bytes of a word, put back in their lanes, are the word (R56). -/
theorem bytesWord_wordBytes (v : Word) :
    bytesWord (v.extractLsb' 0 8) (v.extractLsb' 8 8) (v.extractLsb' 16 8) (v.extractLsb' 24 8) = v := by
  apply BitVec.eq_of_toNat_eq
  have := v.isLt
  simp only [bytesWord, append_toNat, field_toNat]
  omega

/-- Byte lane `j` of a word put together from four bytes is byte `j` (R56). -/
theorem bytesWord_lane (b0 b1 b2 b3 : Byte) (j : Nat) (hj : j < 4) :
    (bytesWord b0 b1 b2 b3).extractLsb' (8 * j) 8 = [b0, b1, b2, b3].getD j 0 := by
  apply BitVec.eq_of_toNat_eq
  rw [field_toNat]
  simp only [bytesWord, append_toNat]
  interval_cases j <;> simp <;> omega

/-- A word written to DMEM and read back (R59): no lane draws a free value. -/
theorem Memory.readWord_writeBytes (m : Memory) (k : Nat) (v free : Word) :
    Memory.readWord (Memory.writeBytes m k (wordBytes v)) k free = v := by
  have h : ∀ t, t < 4 → Memory.read (Memory.writeBytes m k (wordBytes v)) (k + t) = (wordBytes v)[t]? :=
    fun t ht => Memory.read_writeBytes_inside _ _ _ _ ht
  have h0 := h 0 (by omega)
  simp only [Nat.add_zero] at h0
  rw [Memory.readWord, h0, h 1 (by omega), h 2 (by omega), h 3 (by omega)]
  exact bytesWord_wordBytes v

end Sys2Proof.Machine
end

