-- ==== Sys2Proof/Laws/Operands.lean ====
section
/-! SUPPORT. What the shared operations over operands can do, said once: reading a source register, reading
the source bytes, the region checks, and the output commit. -/

namespace Sys2Proof.Machine

/-! ### Completion and failure -/

@[simp] theorem complete_eq (s : State) : complete s = .next (s.finish .none) := rfl

@[simp] theorem raise_eq (c : ErrCode) (s : State) : raise c s = .next (s.finish c) := rfl

@[simp] theorem completeIllegal_eq (s : State) : completeIllegal s = .next (s.finish .illegal) := rfl

@[simp] theorem commit_eq (s : State) (out : List Byte) :
    commit s out = .next ((s.output out).finish .none) := rfl

/-! ### Source registers -/

theorem State.operand_of_some {s : State} {r : Reg} {v : Nat} (h : s.source.value? r = some v) :
    s.operand r = v := BigReg.fill_of_value? h _

theorem State.missingReg_of_some {s : State} {r : Reg} {v : Nat} (h : s.source.value? r = some v) :
    s.missingReg r = [] := by simp [State.missingReg, h]

/-- Reading a source register records that register, and only where it is unspecified (R97). -/
theorem State.mem_missingReg {s : State} {r : Reg} {o : Operand} :
    o ∈ s.missingReg r ↔ s.source.value? r = none ∧ o = .reg r := by
  unfold State.missingReg
  cases s.source.value? r <;> simp

/-- A specified source register is read as its value and records nothing. -/
theorem withReg_of_some {s : State} {r : Reg} {v : Nat} (h : s.source.value? r = some v)
    (k : Nat → State → Result) : withReg s r k = k v s := by
  simp [withReg, State.operand_of_some h, State.missingReg_of_some h]

/-! ### A function over the source bytes -/

/-- `f` applied to every byte, each accepted. -/
theorem mapBytes?_eq_some (f : Byte → Option Byte) (bs out : List Byte) :
    mapBytes? f bs = some out ↔
      out.length = bs.length ∧ ∀ (t : Nat) (b : Byte), bs[t]? = some b → f b = out[t]? := by
  induction bs generalizing out with
  | nil =>
    constructor
    · intro h; cases h; simp
    · intro h; rw [List.eq_nil_of_length_eq_zero h.1]; rfl
  | cons b bs ih =>
    constructor
    · intro h
      rw [mapBytes?] at h
      split at h
      · cases h
      · next c hc =>
        split at h
        · cases h
        · next cs hcs =>
          cases h
          have := (ih cs).mp hcs
          refine ⟨by simp [this.1], fun t b' hb => ?_⟩
          cases t with
          | zero => cases hb; exact hc
          | succ t => exact this.2 t b' hb
    · rintro ⟨hl, h⟩
      cases out with
      | nil => simp at hl
      | cons c cs =>
        have h0 : f b = some c := h 0 b rfl
        have rest : mapBytes? f bs = some cs :=
          (ih cs).mpr ⟨by simpa using hl, fun t b' hb => h (t + 1) b' hb⟩
        simp [mapBytes?, h0, rest]

theorem mapBytes?_eq_none (f : Byte → Option Byte) (bs : List Byte) :
    mapBytes? f bs = none ↔ ∃ b ∈ bs, f b = none := by
  induction bs with
  | nil => simp [mapBytes?]
  | cons b bs ih =>
    rw [mapBytes?]
    cases hb : f b with
    | none => simp [hb]
    | some c =>
      cases hbs : mapBytes? f bs with
      | none => simpa [hb] using ih.mp hbs
      | some cs =>
        have : ¬ ∃ b ∈ bs, f b = none := fun h => by simp [ih.mpr h] at hbs
        simpa [hb] using this

@[simp] theorem mapBytes?_accept (bs : List Byte) : mapBytes? some bs = some bs :=
  (mapBytes?_eq_some some bs bs).mpr ⟨rfl, fun _ _ h => h.symm⟩

/-- No more bytes are read than there are. -/
theorem readCount_le (f : Byte → Option Byte) (bs : List Byte) : readCount f bs ≤ bs.length := by
  induction bs with
  | nil => simp [readCount]
  | cons b bs ih =>
    rw [readCount, List.length_cons]
    split <;> omega

/-- Byte `n` is read if every byte before it is accepted (logs 12 and 13). -/
theorem lt_readCount (f : Byte → Option Byte) (bs : List Byte) (n : Nat) (hn : n < bs.length)
    (h : ∀ t b, t < n → bs[t]? = some b → (f b).isSome) : n < readCount f bs := by
  induction n generalizing bs with
  | zero =>
    obtain ⟨b, bs, rfl⟩ := List.exists_cons_of_length_pos hn
    rw [readCount]
    split <;> omega
  | succ n ih =>
    obtain ⟨b, bs, rfl⟩ := List.exists_cons_of_length_pos (Nat.lt_of_le_of_lt (Nat.zero_le _) hn)
    obtain ⟨c, hc⟩ := Option.isSome_iff_exists.mp (h 0 b (by omega) rfl)
    have := ih bs (by simpa using hn) fun t b' ht hb => h (t + 1) b' (by omega) (by simpa using hb)
    simp only [readCount, hc]
    omega

@[simp] theorem readCount_accept (bs : List Byte) : readCount some bs = bs.length := by
  induction bs with
  | nil => rfl
  | cons b bs ih => simp [readCount, ih]

/-! ### Source bytes -/

@[simp] theorem State.sourceBytes_length (s : State) : s.sourceBytes.length = s.sourceLen := by
  simp [State.sourceBytes]

theorem State.getElem?_sourceBytes (s : State) {t : Nat} (h : t < s.sourceLen) :
    s.sourceBytes[t]? = some (s.sourceByte t) := by
  simp [State.sourceBytes, List.getElem?_range h]

theorem State.sourceByte_of_some {s : State} {t : Nat} {b : Byte}
    (h : Memory.read s.source.dmem (s.source.srcAddr.toNat + t) = some b) : s.sourceByte t = b := by
  simp [State.sourceByte, h]

/-- Reading the first `n` source bytes records the unspecified ones among them (R97). -/
theorem State.mem_missingBytes {s : State} {n : Nat} {o : Operand} :
    o ∈ s.missingBytes n ↔ ∃ t, t < n ∧ Memory.read s.source.dmem (s.source.srcAddr.toNat + t) = none ∧
      o = .byte (s.source.srcAddr.toNat + t) := by
  simp only [State.missingBytes, List.mem_map, List.mem_filter, List.mem_range, Option.isNone_iff_eq_none,
    and_assoc, eq_comm (a := o)]

/-- Source bytes that are all specified, as `data`, are read as `data` and nothing is recorded (R62). -/
theorem State.sourceBytes_of_specified {s : State} {data : List Byte} (hl : data.length = s.sourceLen)
    (h : ∀ t, t < s.sourceLen → Memory.read s.source.dmem (s.source.srcAddr.toNat + t) = data[t]?) :
    s.sourceBytes = data ∧ ∀ n, n ≤ s.sourceLen → s.missingBytes n = [] := by
  have some_of_lt : ∀ t (ht : t < s.sourceLen),
      Memory.read s.source.dmem (s.source.srcAddr.toNat + t) = some (data[t]'(by omega)) :=
    fun t ht => by rw [h t ht, List.getElem?_eq_getElem]
  constructor
  · apply List.ext_getElem (by simp [hl])
    intro t ht _
    have ht : t < s.sourceLen := by simpa using ht
    have := State.getElem?_sourceBytes s ht
    rw [State.sourceByte_of_some (some_of_lt t ht), List.getElem?_eq_getElem] at this
    simpa using this
  · refine fun n hn => List.eq_nil_iff_forall_not_mem.mpr fun o ho => ?_
    obtain ⟨t, ht, hm, -⟩ := State.mem_missingBytes.mp ho
    rw [some_of_lt t (by omega)] at hm
    cases hm

/-- A byte command whose source bytes are all specified, as `data`, goes on with what `f` makes of them, or
fails with `c`, and records nothing. -/
theorem withSource_of_specified {s : State} {data : List Byte} (hl : data.length = s.sourceLen)
    (h : ∀ t, t < s.sourceLen → Memory.read s.source.dmem (s.source.srcAddr.toNat + t) = data[t]?)
    (f : Byte → Option Byte) (c : ErrCode) (k : List Byte → State → Result) :
    withSource s f c k = match mapBytes? f data with | some out => k out s | none => raise c s := by
  obtain ⟨hb, hm⟩ := State.sourceBytes_of_specified hl h
  cases h : mapBytes? f data <;>
    simp only [withSource, hb, h, hm _ (hl ▸ readCount_le f data), State.record_nil]

/-! ### Regions -/

theorem regionError?_eq_none (s : State) :
    s.regionError? = none ↔
      s.source.srcAddr.toNat + s.source.srcLen.toNat ≤ s.params.dmemSize ∧
      s.source.dstAddr.toNat + s.source.dstCap.toNat ≤ s.params.dmemSize ∧
      (s.source.srcLen.toNat = 0 ∨ s.source.dstCap.toNat = 0 ∨
        s.source.dstAddr.toNat + s.source.dstCap.toNat ≤ s.source.srcAddr.toNat ∨
        s.source.srcAddr.toNat + s.source.srcLen.toNat ≤ s.source.dstAddr.toNat) := by
  unfold State.regionError? Snapshot.outOfRange Snapshot.overlapping
  simp only [Bool.or_eq_true, Bool.and_eq_true, decide_eq_true_eq]
  split
  · simp; omega
  · split
    · simp; omega
    · simp; omega

/-- A region error is MEM_RANGE or OVERLAP, never NONE. -/
theorem regionError?_ne_none {s : State} {c : ErrCode} (h : s.regionError? = some c) :
    c = .memRange ∨ c = .overlap := by
  unfold State.regionError? at h
  split at h
  · left; simpa using h.symm
  · split at h
    · right; simpa using h.symm
    · cases h

theorem tooLong_iff (s : State) (n : Nat) : s.tooLong n = true ↔ s.source.dstCap.toNat < n := by
  simp [State.tooLong]

/-! ### Output commit -/

/-- Byte `t` of the output stands at `DST_ADDR + t`; every other byte reads as before (R65). -/
theorem read_output (s : State) (out : List Byte) (x : Nat) :
    Memory.read (s.output out).dmem x =
      if s.source.dstAddr.toNat ≤ x ∧ x < s.source.dstAddr.toNat + out.length then
        out[x - s.source.dstAddr.toNat]?
      else Memory.read s.dmem x := Memory.read_writeBytes ..

end Sys2Proof.Machine
end

