-- ==== Sys2Proof/Laws/Exec.lean ====
section
/-! SUPPORT. What a completion can do, said once for every command: it completes in every state, after it
has recorded the unspecified operands it read; it fails with a code and writes nothing, or it writes its
destination registers, or it writes an output to its destination region. -/

namespace Sys2Proof.Machine

/-- Several register writes, in order (R96). -/
def State.writeRegs (s : State) (ws : List (Reg × Nat)) : State :=
  ws.foldl (fun s w => s.writeReg w.1 w.2) s

@[simp] theorem State.writeRegs_nil (s : State) : s.writeRegs [] = s := rfl

@[simp] theorem State.writeRegs_cons (s : State) (w : Reg × Nat) (ws : List (Reg × Nat)) :
    s.writeRegs (w :: ws) = (s.writeReg w.1 w.2).writeRegs ws := rfl

/-- Register writes change the register file alone. -/
theorem State.writeRegs_frame (s : State) (ws : List (Reg × Nat)) :
    s.writeRegs ws = { s with x := (s.writeRegs ws).x } := by
  induction ws generalizing s with
  | nil => rfl
  | cons w ws ih => rw [State.writeRegs_cons, ih]; rfl

/-- A register no write names is unchanged. -/
theorem State.reg_writeRegs_other (s : State) (ws : List (Reg × Nat)) (r : Reg)
    (h : r ∉ ws.map Prod.fst) : (s.writeRegs ws).reg r = s.reg r := by
  induction ws generalizing s with
  | nil => rfl
  | cons w ws ih =>
    simp only [List.map_cons, List.mem_cons, not_or] at h
    rw [State.writeRegs_cons, ih _ h.2, State.reg_writeReg_other _ _ _ _ h.1]

/-- How a completion ends: `fails` for the error codes, `writes` for a command that writes big registers,
`outputs` for a byte command. Before that it has recorded the unspecified operands `os` it read (R97). -/
inductive Completion (i : Instr) (s : State) : State → Prop where
  /-- The command fails (R176). -/
  | fails (os : List Operand) (ho : ∀ o ∈ os, s.Unspecified i o) (c : ErrCode) (hc : c ≠ .none) :
      Completion i s ((s.record os).finish c)
  /-- The command writes its destination registers, each with a value its operands bound (R112). -/
  | writes (os : List Operand) (ho : ∀ o ∈ os, s.Unspecified i o) (ws : List (Reg × Nat))
      (hi : i.usesRegions = false) (hw : ws.map Prod.fst = i.dests)
      (hv : (∀ r, s.operand r < 2 ^ s.params.opw) → ∀ w ∈ ws, w.2 < 2 ^ s.params.opw) :
      Completion i s (((s.record os).writeRegs ws).finish .none)
  /-- The byte command writes its output inside its destination region (R65). -/
  | outputs (os : List Operand) (ho : ∀ o ∈ os, s.Unspecified i o) (out : List Byte)
      (hi : i.usesRegions = true) (hr : s.regionError? = none)
      (hl : out.length ≤ s.source.dstCap.toNat) :
      Completion i s (((s.record os).output out).finish .none)

/-- A meaning completes. -/
def Completes (i : Instr) (s : State) (r : Result) : Prop := ∃ t, r = .next t ∧ Completion i s t

theorem one_lt_two_pow_opw (p : Params) : 1 < 2 ^ p.opw := by
  apply Nat.one_lt_two_pow
  simp only [Params.opw]
  omega

/-- A successful KEYGEN finds no error: its two operands are prime, the modulus fits, and the set it
draws from is not empty (R141). -/
theorem keygenError?_eq_none {opw p q : Nat} (h : keygenError? opw p q = none) :
    isPrime p = true ∧ isPrime q = true ∧ p * q < 2 ^ opw ∧ drawSet (keyPhi p q) ≠ [] := by
  unfold keygenError? at h
  split at h
  · cases h
  split at h
  · cases h
  split at h
  · cases h
  split at h
  · cases h
  split at h
  · cases h
  simp_all

theorem keygenError?_ne_none {opw p q : Nat} {c : ErrCode} (h : keygenError? opw p q = some c) :
    c ≠ .none := by
  unfold keygenError? at h
  rintro rfl
  split at h
  · cases h
  split at h
  · cases h
  split at h
  · cases h
  split at h
  · cases h
  split at h <;> cases h

/-- `phi` is below the modulus (R136). -/
theorem keyPhi_le (p q : Nat) : keyPhi p q ≤ p * q := Nat.mul_le_mul (Nat.sub_le _ _) (Nat.sub_le _ _)

/-- A gcd is below any bound its operands are below. -/
theorem gcd_lt_of_lt {a b n : Nat} (ha : a < n) (hb : b < n) : Nat.gcd a b < n := by
  rcases Nat.eq_zero_or_pos a with h | h
  · simpa [h] using hb
  · exact Nat.lt_of_le_of_lt (Nat.gcd_le_left b h) ha

/-! ### How each kind of end completes -/

section Completes

variable {i : Instr} {s : State}

theorem completes_raise {os : List Operand} (ho : ∀ o ∈ os, s.Unspecified i o) {c : ErrCode}
    (hc : c ≠ .none) : Completes i s (raise c (s.record os)) := ⟨_, rfl, .fails os ho c hc⟩

/-- A command that fails before it has read anything. -/
theorem completes_fails {c : ErrCode} (hc : c ≠ .none) : Completes i s (raise c s) := by
  have := completes_raise (i := i) (s := s) (os := []) (by simp) hc
  rwa [State.record_nil] at this

theorem completes_regionError {c : ErrCode} (h : s.regionError? = some c) : Completes i s (raise c s) :=
  completes_fails (by rcases regionError?_ne_none h with rfl | rfl <;> decide)

theorem completes_commit {os : List Operand} (ho : ∀ o ∈ os, s.Unspecified i o) (out : List Byte)
    (hi : i.usesRegions = true) (hr : s.regionError? = none) (hl : out.length ≤ s.source.dstCap.toNat) :
    Completes i s (commit (s.record os) out) := ⟨_, rfl, .outputs os ho out hi hr hl⟩

theorem completes_writes {os : List Operand} (ho : ∀ o ∈ os, s.Unspecified i o) (ws : List (Reg × Nat))
    (hi : i.usesRegions = false) (hw : ws.map Prod.fst = i.dests)
    (hv : (∀ r, s.operand r < 2 ^ s.params.opw) → ∀ w ∈ ws, w.2 < 2 ^ s.params.opw) :
    Completes i s (complete ((s.record os).writeRegs ws)) := ⟨_, rfl, .writes os ho ws hi hw hv⟩

/-- Reading a source register of `i` records operands of `i` alone. -/
theorem unspecified_missingReg {r : Reg} (hr : r ∈ i.sources) : ∀ o ∈ s.missingReg r, s.Unspecified i o := by
  intro o h
  obtain ⟨hn, rfl⟩ := State.mem_missingReg.mp h
  exact ⟨hr, hn⟩

/-- Reading source bytes of a byte command `i` records operands of `i` alone. -/
theorem unspecified_missingBytes (hi : i.usesRegions = true) {n : Nat} (hn : n ≤ s.sourceLen) :
    ∀ o ∈ s.missingBytes n, s.Unspecified i o := by
  intro o h
  obtain ⟨t, ht, hm, rfl⟩ := State.mem_missingBytes.mp h
  exact ⟨hi, Nat.le_add_right _ _, Nat.add_lt_add_left (Nat.lt_of_lt_of_le ht hn) _, hm⟩

theorem unspecified_readCount (hi : i.usesRegions = true) (f : Byte → Option Byte) :
    ∀ o ∈ s.missingBytes (readCount f s.sourceBytes), s.Unspecified i o :=
  unspecified_missingBytes hi (Nat.le_trans (readCount_le f _) (Nat.le_of_eq s.sourceBytes_length))

theorem unspecified_append {os os' : List Operand} (h : ∀ o ∈ os, s.Unspecified i o)
    (h' : ∀ o ∈ os', s.Unspecified i o) : ∀ o ∈ os ++ os', s.Unspecified i o := by
  intro o ho
  rcases List.mem_append.mp ho with ho | ho
  · exact h o ho
  · exact h' o ho

end Completes

/-! ### Every command completes (R95, R193) -/

section Cases

variable (s : State)

theorem execNop_completes : Completes .nop s (execNop s) := by
  have := completes_writes (i := .nop) (s := s) (os := []) (by simp) [] rfl rfl (by simp)
  rwa [State.record_nil] at this

theorem execModexp_completes (rd b e n : Reg) : Completes (.modexp rd b e n) s (execModexp rd b e n s) := by
  simp only [execModexp, withReg, State.record_operand, State.record_missingReg, State.record_record]
  have ho := unspecified_append (i := .modexp rd b e n) (s := s) (unspecified_append
    (unspecified_missingReg (r := b) (by simp [Instr.sources]))
    (unspecified_missingReg (r := e) (by simp [Instr.sources])))
    (unspecified_missingReg (r := n) (by simp [Instr.sources]))
  split
  · exact completes_raise ho (by decide)
  · next h0 =>
    refine completes_writes ho [(rd, _)] rfl rfl fun bound w hw => ?_
    rw [List.mem_singleton.mp hw]
    exact Nat.lt_trans (powMod_lt _ _ _ h0) (bound n)

theorem execModmul_completes (rd a b n : Reg) : Completes (.modmul rd a b n) s (execModmul rd a b n s) := by
  simp only [execModmul, withReg, State.record_operand, State.record_missingReg, State.record_record]
  have ho := unspecified_append (i := .modmul rd a b n) (s := s) (unspecified_append
    (unspecified_missingReg (r := a) (by simp [Instr.sources]))
    (unspecified_missingReg (r := b) (by simp [Instr.sources])))
    (unspecified_missingReg (r := n) (by simp [Instr.sources]))
  split
  · exact completes_raise ho (by decide)
  · next h0 =>
    refine completes_writes ho [(rd, _)] rfl rfl fun bound w hw => ?_
    rw [List.mem_singleton.mp hw]
    exact Nat.lt_trans (Nat.mod_lt _ (Nat.pos_of_ne_zero h0)) (bound n)

theorem execModred_completes (rd a n : Reg) : Completes (.modred rd a n) s (execModred rd a n s) := by
  simp only [execModred, withReg, State.record_operand, State.record_missingReg, State.record_record]
  have ho := unspecified_append (i := .modred rd a n) (s := s)
    (unspecified_missingReg (r := a) (by simp [Instr.sources]))
    (unspecified_missingReg (r := n) (by simp [Instr.sources]))
  split
  · exact completes_raise ho (by decide)
  · next h0 =>
    refine completes_writes ho [(rd, _)] rfl rfl fun bound w hw => ?_
    rw [List.mem_singleton.mp hw]
    exact Nat.lt_trans (Nat.mod_lt _ (Nat.pos_of_ne_zero h0)) (bound n)

theorem execGcd_completes (rd a b : Reg) : Completes (.gcd rd a b) s (execGcd rd a b s) := by
  simp only [execGcd, withReg, State.record_operand, State.record_missingReg, State.record_record]
  have ho := unspecified_append (i := .gcd rd a b) (s := s)
    (unspecified_missingReg (r := a) (by simp [Instr.sources]))
    (unspecified_missingReg (r := b) (by simp [Instr.sources]))
  refine completes_writes ho [(rd, _)] rfl rfl fun bound w hw => ?_
  rw [List.mem_singleton.mp hw]
  exact gcd_lt_of_lt (bound a) (bound b)

theorem execXgcd_completes (g c a b : Reg) : Completes (.xgcd g c a b) s (execXgcd g c a b s) := by
  simp only [execXgcd, withReg, State.record_operand, State.record_missingReg, State.record_record]
  have ho := unspecified_append (i := .xgcd g c a b) (s := s)
    (unspecified_missingReg (r := a) (by simp [Instr.sources]))
    (unspecified_missingReg (r := b) (by simp [Instr.sources]))
  split
  · exact completes_raise ho (by decide)
  · next h0 =>
    refine completes_writes ho [(g, _), (c, _)] rfl rfl fun bound w hw => ?_
    simp only [List.mem_cons, List.not_mem_nil, or_false] at hw
    rcases hw with rfl | rfl
    · exact gcd_lt_of_lt (bound a) (bound b)
    · exact Nat.lt_of_lt_of_le (xgcdCoeff_spec _ _ h0).1
        (Nat.le_trans (Nat.div_le_self _ _) (Nat.le_of_lt (bound b)))

theorem execModinv_completes (rd a m : Reg) : Completes (.modinv rd a m) s (execModinv rd a m s) := by
  simp only [execModinv, withReg, State.record_operand, State.record_missingReg, State.record_record]
  have ho := unspecified_append (i := .modinv rd a m) (s := s)
    (unspecified_missingReg (r := a) (by simp [Instr.sources]))
    (unspecified_missingReg (r := m) (by simp [Instr.sources]))
  split
  · exact completes_raise ho (by decide)
  · next h0 =>
    split
    · exact completes_raise ho (by decide)
    · next h1 =>
      refine completes_writes ho [(rd, _)] rfl rfl fun bound w hw => ?_
      rw [List.mem_singleton.mp hw]
      exact Nat.lt_trans (inv_spec _ _ h0 (not_not.mp h1)).1 (bound m)

theorem execPrime_completes (rd a : Reg) : Completes (.prime rd a) s (execPrime rd a s) := by
  simp only [execPrime, withReg]
  have ho := unspecified_missingReg (i := .prime rd a) (s := s) (r := a) (by simp [Instr.sources])
  refine completes_writes ho [(rd, if isPrime (s.operand a) then 1 else 0)] rfl rfl fun _ w hw => ?_
  rw [List.mem_singleton.mp hw]
  have := one_lt_two_pow_opw s.params
  dsimp only
  split <;> omega

theorem execKeygen_completes (n pub priv p q : Reg) :
    Completes (.keygen n pub priv p q) s (execKeygen n pub priv p q s) := by
  simp only [execKeygen, withReg, State.record_operand, State.record_missingReg, State.record_record,
    State.record_params, State.record_draws]
  have ho := unspecified_append (i := .keygen n pub priv p q) (s := s)
    (unspecified_missingReg (r := p) (by simp [Instr.sources]))
    (unspecified_missingReg (r := q) (by simp [Instr.sources]))
  split
  · next c hc => exact completes_raise ho (keygenError?_ne_none hc)
  · next hk =>
    obtain ⟨-, -, hn, hS⟩ := keygenError?_eq_none hk
    obtain ⟨-, he, hg, -⟩ := (mem_drawSet _ _).mp (pick_mem _ (Config.drawIndex s.draws) hS)
    refine completes_writes ho [(n, _), (pub, _), (priv, _)] rfl rfl fun _ w hw => ?_
    have hphi := keyPhi_le (s.operand p) (s.operand q)
    simp only [List.mem_cons, List.not_mem_nil, or_false] at hw
    rcases hw with rfl | rfl | rfl
    · exact hn
    · exact Nat.lt_of_lt_of_le (inv_spec _ _ (by omega) hg).1 (by omega)
    · exact Nat.lt_of_lt_of_le he (Nat.le_trans hphi (Nat.le_of_lt hn))

theorem execSplit_completes (w : Nat) : Completes (.split w) s (execSplit w s) := by
  unfold execSplit
  split
  · next c hc => exact completes_regionError hc
  · next hr =>
    split
    · exact completes_fails (by decide)
    · split
      · exact completes_fails (by decide)
      · next hl =>
        rw [tooLong_iff] at hl
        simp only [withSource, mapBytes?_accept]
        exact completes_commit (unspecified_readCount rfl some) _ rfl hr
          (by rw [split_length, State.sourceBytes_length]; omega)

theorem execJoin_completes (w : Nat) : Completes (.join w) s (execJoin w s) := by
  unfold execJoin
  split
  · next c hc => exact completes_regionError hc
  · next hr =>
    split
    · exact completes_fails (by decide)
    · split
      · exact completes_fails (by decide)
      · next hl =>
        rw [tooLong_iff] at hl
        simp only [withSource, mapBytes?_accept]
        exact completes_commit (unspecified_readCount rfl some) _ rfl hr
          (by rw [join_length, State.sourceBytes_length]; omega)

theorem execEncode_completes (n k : Reg) : Completes (.encode n k) s (execEncode n k s) := by
  unfold execEncode
  split
  · next c hc => exact completes_regionError hc
  · next hr =>
    simp only [withReg, withSource, State.record_operand, State.record_missingReg, State.record_record,
      State.record_sourceBytes, State.record_missingBytes, State.record_tooLong]
    have ho := unspecified_append (i := .encode n k) (s := s)
      (unspecified_missingReg (r := n) (by simp [Instr.sources]))
      (unspecified_missingReg (r := k) (by simp [Instr.sources]))
    have hb := unspecified_append ho (unspecified_readCount rfl alnumByte?)
    split
    · exact completes_raise ho (by decide)
    · split
      · split
        · split
          · exact completes_raise hb (by decide)
          · next hl =>
            rw [tooLong_iff] at hl
            split
            · exact completes_raise hb (by decide)
            · next out hout =>
              exact completes_commit hb _ rfl hr (by rw [((mapBytes?_eq_some _ _ _).mp hout).1]; omega)
        · split
          · exact completes_raise hb (by decide)
          · next hl =>
            rw [tooLong_iff] at hl
            exact completes_commit hb _ rfl hr (by rw [encodePacked_length]; omega)
      · exact completes_raise hb (by decide)

theorem execDecode_completes (n k : Reg) : Completes (.decode n k) s (execDecode n k s) := by
  unfold execDecode
  split
  · next c hc => exact completes_regionError hc
  · next hr =>
    simp only [withReg, withSource, State.record_operand, State.record_missingReg, State.record_record,
      State.record_sourceBytes, State.record_missingBytes, State.record_tooLong, State.record_sourceLen,
      mapBytes?_accept]
    have ho := unspecified_append (i := .decode n k) (s := s)
      (unspecified_missingReg (r := n) (by simp [Instr.sources]))
      (unspecified_missingReg (r := k) (by simp [Instr.sources]))
    have hb := fun f => unspecified_append ho (unspecified_readCount rfl f)
    split
    · exact completes_raise ho (by decide)
    · split
      · split
        · exact completes_raise ho (by decide)
        · next hl =>
          rw [tooLong_iff] at hl
          split
          · next out hout =>
            refine completes_commit (hb _) _ rfl hr ?_
            rw [((mapBytes?_eq_some _ _ _).mp hout).1, State.sourceBytes_length]; omega
          · exact completes_raise (hb _) (by decide)
      · split
        · exact completes_raise ho (by decide)
        · split
          · exact completes_raise ho (by decide)
          · next hl =>
            rw [tooLong_iff] at hl
            exact completes_commit (hb _) _ rfl hr
              (by rw [decodePacked_length, State.sourceBytes_length]; omega)

/-- Every command completes, in one of the three ways. -/
theorem exec_completes (i : Instr) : Completes i s (exec i s) := by
  cases i with
  | nop => exact execNop_completes s
  | modexp => exact execModexp_completes s ..
  | modmul => exact execModmul_completes s ..
  | modred => exact execModred_completes s ..
  | gcd => exact execGcd_completes s ..
  | xgcd => exact execXgcd_completes s ..
  | modinv => exact execModinv_completes s ..
  | prime => exact execPrime_completes s ..
  | keygen => exact execKeygen_completes s ..
  | split => exact execSplit_completes s ..
  | join => exact execJoin_completes s ..
  | encode => exact execEncode_completes s ..
  | decode => exact execDecode_completes s ..

end Cases

/-- A command answers a next state, whatever the state. -/
theorem exec_next (i : Instr) (s : State) : ∃ t, exec i s = .next t :=
  let ⟨t, h, _⟩ := exec_completes s i
  ⟨t, h⟩

/-- Every completion is one of the three kinds. -/
theorem exec_cases {s t : State} (i : Instr) (h : exec i s = .next t) : Completion i s t := by
  obtain ⟨u, hu, c⟩ := exec_completes s i
  rw [hu] at h
  cases h
  exact c

end Sys2Proof.Machine
end

