-- ==== Sys2Proof/Laws/HostPort.lean ====
section
/-! SUPPORT. The laws of the host's side: which accesses are admitted, where an offset lands, and what an
abort and a reset change. -/

namespace Sys2Proof.Machine

/-! ### Admission (R55) -/

/-- An access is admitted exactly when it is four bytes at an aligned offset of the window (R55). -/
theorem admits?_eq_some (p : Params) (addr width off : Nat) :
    admits? p addr width = some off ↔
      width = 4 ∧ addr = p.engineBase + off ∧ off < 0x8000 ∧ off % 4 = 0 := by
  unfold admits?
  split
  · rw [Option.some_inj]; omega
  · simp only [reduceCtorEq, false_iff]; omega

theorem admits?_eq_none (p : Params) (addr width : Nat) :
    admits? p addr width = none ↔
      width ≠ 4 ∨ addr < p.engineBase ∨ p.engineBase + 0x8000 ≤ addr ∨
        (addr - p.engineBase) % 4 ≠ 0 := by
  unfold admits?
  split
  · simp only [reduceCtorEq, false_iff]; omega
  · simp only [true_iff]; omega

/-- The accesses the statements and the notation of R92 make are admitted. -/
theorem admits?_window (p : Params) (off : Nat) (h : off < 0x8000) (h4 : off % 4 = 0) :
    admits? p (p.engineBase + off) 4 = some off := (admits?_eq_some ..).mpr ⟨rfl, rfl, h, h4⟩

/-! ### The map of the window (R53) -/

theorem locate_bigReg (r : Reg) (j : Nat) (h : j < 128) :
    locate (0x1000 + 0x200 * r.val + 4 * j) = .bigReg r j := by
  have hr := r.isLt
  have h0 : ∀ n, n < 0x1000 → ¬ (0x1000 + 0x200 * r.val + 4 * j = n) := fun n hn => by omega
  unfold locate
  rw [if_neg (h0 _ (by decide)), if_neg (h0 _ (by decide)), if_neg (h0 _ (by decide)),
    if_neg (h0 _ (by decide)), if_neg (h0 _ (by decide)), if_neg (h0 _ (by decide)),
    if_neg (h0 _ (by decide)), if_neg (h0 _ (by decide)), if_neg (h0 _ (by decide)),
    if_neg (h0 _ (by decide)), if_neg (h0 _ (by decide)), if_neg (h0 _ (by decide)),
    if_neg (h0 _ (by decide)), if_neg (by omega), if_pos (by omega)]
  congr 1
  · apply Fin.ext
    simp only [Fin.ofNat]
    omega
  · omega

theorem locate_dmem (k : Nat) : locate (0x4000 + k) = .dmem k := by
  have h0 : ∀ n, n < 0x4000 → ¬ (0x4000 + k = n) := fun n hn => by omega
  unfold locate
  rw [if_neg (h0 _ (by decide)), if_neg (h0 _ (by decide)), if_neg (h0 _ (by decide)),
    if_neg (h0 _ (by decide)), if_neg (h0 _ (by decide)), if_neg (h0 _ (by decide)),
    if_neg (h0 _ (by decide)), if_neg (h0 _ (by decide)), if_neg (h0 _ (by decide)),
    if_neg (h0 _ (by decide)), if_neg (h0 _ (by decide)), if_neg (h0 _ (by decide)),
    if_neg (h0 _ (by decide)), if_neg (by omega), if_neg (by omega), if_neg (by omega),
    Nat.add_sub_cancel_left]

theorem locate_reserved (off : Nat)
    (h : (0x0034 ≤ off ∧ off < 0x1000) ∨ (0x3000 ≤ off ∧ off < 0x4000)) : locate off = .reserved := by
  have h0 : ∀ n, n < 0x0034 → ¬ (off = n) := fun n hn => by omega
  unfold locate
  rw [if_neg (h0 _ (by decide)), if_neg (h0 _ (by decide)), if_neg (h0 _ (by decide)),
    if_neg (h0 _ (by decide)), if_neg (h0 _ (by decide)), if_neg (h0 _ (by decide)),
    if_neg (h0 _ (by decide)), if_neg (h0 _ (by decide)), if_neg (h0 _ (by decide)),
    if_neg (h0 _ (by decide)), if_neg (h0 _ (by decide)), if_neg (h0 _ (by decide)),
    if_neg (h0 _ (by decide))]
  rcases h with h | h
  · rw [if_pos h.2]
  · rw [if_neg (by omega), if_neg (by omega), if_pos h.2]

/-- An offset between the control registers and DMEM lands in a big register (R57). -/
theorem locate_register_file (off : Nat) (h : 0x1000 ≤ off) (h' : off < 0x3000) :
    ∃ r j, locate off = .bigReg r j := by
  have h0 : ∀ n, n < 0x0034 → ¬ (off = n) := fun n hn => by omega
  unfold locate
  rw [if_neg (h0 _ (by decide)), if_neg (h0 _ (by decide)), if_neg (h0 _ (by decide)),
    if_neg (h0 _ (by decide)), if_neg (h0 _ (by decide)), if_neg (h0 _ (by decide)),
    if_neg (h0 _ (by decide)), if_neg (h0 _ (by decide)), if_neg (h0 _ (by decide)),
    if_neg (h0 _ (by decide)), if_neg (h0 _ (by decide)), if_neg (h0 _ (by decide)),
    if_neg (h0 _ (by decide)), if_neg (by omega), if_pos h']
  exact ⟨_, _, rfl⟩

/-- A choice that is not its first branch is its second. -/
theorem Target.of_ite_ne {c : Prop} [Decidable c] {a b t : Target} (ha : a ≠ t)
    (h : (if c then a else b) = t) : b = t := by
  by_cases hc : c
  · rw [if_pos hc] at h; exact absurd h ha
  · rwa [if_neg hc] at h

/-- Only the offset of CTRL lands at CTRL. -/
theorem locate_ctrl (off : Nat) (h : locate off = .ctrl) : off = 0x0010 := by
  unfold locate at h
  by_contra hne
  have h := Target.of_ite_ne (by nofun) (Target.of_ite_ne (by nofun) (Target.of_ite_ne (by nofun)
    (Target.of_ite_ne (by nofun) h)))
  rw [if_neg hne] at h
  iterate 8 replace h := Target.of_ite_ne (by nofun) h
  cases Target.of_ite_ne (by nofun) (Target.of_ite_ne (by nofun) (Target.of_ite_ne (by nofun) h))

/-- Only the offset of STATUS lands at STATUS. -/
theorem locate_status (off : Nat) (h : locate off = .status) : off = 0x0014 := by
  unfold locate at h
  by_contra hne
  have h := Target.of_ite_ne (by nofun) (Target.of_ite_ne (by nofun) (Target.of_ite_ne (by nofun)
    (Target.of_ite_ne (by nofun) (Target.of_ite_ne (by nofun) h))))
  rw [if_neg hne] at h
  iterate 7 replace h := Target.of_ite_ne (by nofun) h
  cases Target.of_ite_ne (by nofun) (Target.of_ite_ne (by nofun) (Target.of_ite_ne (by nofun) h))

/-- An offset that lands in DMEM lands at the byte as far into it (R59). -/
theorem locate_dmem_offset (off k : Nat) (h : locate off = .dmem k) : off = 0x4000 + k := by
  by_cases h1 : off < 0x1000
  · by_cases h2 : off < 0x34
    · unfold locate at h
      iterate 13 replace h := Target.of_ite_ne (by nofun) h
      rw [if_pos h1] at h
      cases h
    · rw [locate_reserved off (by omega)] at h
      cases h
  · by_cases h3 : off < 0x3000
    · obtain ⟨r, j, e⟩ := locate_register_file off (by omega) h3
      rw [e] at h
      cases h
    · by_cases h4 : off < 0x4000
      · rw [locate_reserved off (by omega)] at h
        cases h
      · obtain ⟨k', rfl⟩ : ∃ k', off = 0x4000 + k' := ⟨off - 0x4000, by omega⟩
        rw [locate_dmem] at h
        cases h
        rfl

/-! ### What a host write does to OVR (R41, R203) -/

/-- A write that acts only while idle leaves OVR as its effect does, or is dropped (R203). -/
theorem State.unlessBusy_ovr (s t : State) (h : t.status.ovr = s.status.ovr) :
    (s.unlessBusy t).status.ovr = s.status.ovr ∨ (s.busy = true ∧ s.unlessBusy t = s.dropWrite) := by
  unfold State.unlessBusy
  split
  · next hb => exact .inr ⟨hb, rfl⟩
  · exact .inl h

/-- What an admitted host write does to OVR (R41): nothing, unless it is dropped at an offset of R203, or
clears it by STATUS bit 3, or resets. -/
theorem State.hostWrite_ovr (s : State) (off : Nat) (v : Word) (hw : off < 0x8000) (h4 : off % 4 = 0) :
    (s.hostWrite off v).status.ovr = s.status.ovr ∨
    (s.busy = true ∧ (off = 0x0018 ∨ (0x0020 ≤ off ∧ off < 0x0030) ∨ (0x1000 ≤ off ∧ off < 0x3000) ∨
        (0x4000 ≤ off ∧ off < 0x8000)) ∧ s.hostWrite off v = s.dropWrite) ∨
    (off = 0x0014 ∧ v.getLsbD 3 = true ∧ (s.hostWrite off v).status.ovr = false) ∨
    (off = 0x0010 ∧ v.getLsbD 1 = true ∧ (s.hostWrite off v).status.ovr = false) := by
  have drop {P : Prop} (t : State) (e : s.hostWrite off v = s.unlessBusy t)
      (ht : t.status.ovr = s.status.ovr) (ho : P) :
      (s.hostWrite off v).status.ovr = s.status.ovr ∨
        (s.busy = true ∧ P ∧ s.hostWrite off v = s.dropWrite) := by
    rw [e]
    exact (s.unlessBusy_ovr t ht).imp id fun h => ⟨h.1, ho, h.2⟩
  by_cases c1 : off < 0x0034
  · have : off = 0x00 ∨ off = 0x04 ∨ off = 0x08 ∨ off = 0x0C ∨ off = 0x10 ∨ off = 0x14 ∨ off = 0x18 ∨
        off = 0x1C ∨ off = 0x20 ∨ off = 0x24 ∨ off = 0x28 ∨ off = 0x2C ∨ off = 0x30 := by omega
    rcases this with rfl | rfl | rfl | rfl | rfl | rfl | rfl | rfl | rfl | rfl | rfl | rfl | rfl
    case inr.inr.inr.inr.inl =>
      change (s.writeCtrl v).status.ovr = _ ∨ _ ∨ _ ∨ _ ∧ _ ∧ (s.writeCtrl v).status.ovr = false
      cases hv : v.getLsbD 1
      · left; simp only [State.writeCtrl, hv]; rfl
      · right; right; right; exact ⟨rfl, rfl, by simp only [State.writeCtrl, hv]; rfl⟩
    case inr.inr.inr.inr.inr.inl =>
      change (s.writeStatus v).status.ovr = _ ∨ _ ∨ (_ ∧ _ ∧ (s.writeStatus v).status.ovr = false) ∨ _
      simp only [State.writeStatus_status, Status.acknowledged_ovr]
      cases hv : v.getLsbD 3
      · left; simp
      · right; right; left; simp
    all_goals first | exact .inl rfl | exact (drop _ rfl rfl (by omega)).imp id .inl
  · by_cases c2 : (0x0034 ≤ off ∧ off < 0x1000) ∨ (0x3000 ≤ off ∧ off < 0x4000)
    · left; rw [State.hostWrite, locate_reserved off c2]; rfl
    · by_cases c3 : off < 0x3000
      · obtain ⟨r, j, e⟩ := locate_register_file off (by omega) c3
        refine (drop (s.writeRegWord r j v) (by rw [State.hostWrite, e]; rfl) ?_ (by omega)).imp id .inl
        unfold State.writeRegWord; split <;> rfl
      · obtain ⟨k, rfl⟩ : ∃ k, off = 0x4000 + k := ⟨off - 0x4000, by omega⟩
        refine (drop (s.writeDmemWord k v) (by rw [State.hostWrite, locate_dmem]; rfl) ?_ (by omega)).imp id .inl
        unfold State.writeDmemWord; split <;> rfl
/-! ### Register updates in a fold -/

theorem State.forgetReg_frame (s : State) (rs : List Reg) :
    rs.foldl State.forgetReg s = { s with x := (rs.foldl State.forgetReg s).x } := by
  induction rs generalizing s with
  | nil => rfl
  | cons r rs ih => rw [List.foldl_cons, ih]; rfl

/-- The registers named become unspecified, the others keep their contents (R199). -/
theorem State.reg_forgetReg (s : State) (rs : List Reg) (r : Reg) :
    (rs.foldl State.forgetReg s).reg r =
      if r ∈ rs then BigReg.unspecified s.params.words else s.reg r := by
  induction rs generalizing s with
  | nil => simp
  | cons q rs ih =>
    rw [List.foldl_cons, ih]
    by_cases h : r ∈ rs
    · simp [h, State.forgetReg]
    · by_cases e : r = q
      · subst e; simp [h, State.forgetReg]
      · simp [h, e, State.forgetReg, State.reg_setReg_other]

/-! ### Abort (R199) -/

/-- An abort changes big registers and DMEM alone. -/
theorem State.abort_frame (s : State) : s.abort = { s with x := s.abort.x, dmem := s.abort.dmem } := by
  unfold State.abort
  split
  · rfl
  · split
    · rfl
    · next i _ =>
      dsimp only
      split
      · rw [State.forgetReg_frame]; rfl
      · rw [State.forgetReg_frame]

theorem State.abort_params (s : State) : s.abort.params = s.params := by rw [s.abort_frame]

theorem State.abort_of_idle (s : State) (h : s.pending = none) : s.abort = s := by
  simp [State.abort, h]

theorem State.abort_of_illegal (s : State) (p : Pending) (e : Illegal) (h : s.pending = some p)
    (hd : decode p.cmd = .error e) : s.abort = s := by
  simp [State.abort, h, hd]

/-- The destination registers of an aborted command become unspecified (R199). -/
theorem State.reg_abort (s : State) (p : Pending) (i : Instr) (r : Reg) (h : s.pending = some p)
    (hd : decode p.cmd = .ok i) :
    s.abort.reg r = if r ∈ i.dests then BigReg.unspecified s.params.words else s.reg r := by
  rw [← State.reg_forgetReg]
  simp only [State.abort, h, hd]
  split <;> rfl

/-- The destination region of an aborted byte command becomes unspecified (R199). -/
theorem State.dmem_abort (s : State) (p : Pending) (i : Instr) (h : s.pending = some p)
    (hd : decode p.cmd = .ok i) :
    s.abort.dmem =
      if i.usesRegions then Memory.forget s.dmem p.snap.dstAddr.toNat p.snap.dstCap.toNat
      else s.dmem := by
  have e : (i.dests.foldl State.forgetReg s).dmem = s.dmem := by rw [State.forgetReg_frame]
  simp only [State.abort, h, hd]
  split
  · rw [State.setDmem_dmem, e]
  · exact e

end Sys2Proof.Machine
end

