-- ==== Sys2Proof/Laws/PerInstr.lean ====
section
/-! SUPPORT. Statements made once per command. -/

namespace Sys2Proof.Laws.SelectsRow

/-- The word of a command selects the command's own row of the opcode map (R81, R89). -/
def Statement (i : Instr) : Prop := i.op.row.selects (encode i) = true

/-- An encoded word agrees with its row on the fixed bits, as numbers. -/
theorem of_toNat (i : Instr)
    (h : (encode i).toNat / 2 ^ i.op.free.1 = i.op.row.pattern.toNat / 2 ^ i.op.free.1 ∧
      (encode i).toNat % 2 ^ i.op.free.2 = i.op.row.pattern.toNat % 2 ^ i.op.free.2) : Statement i := by
  rw [Statement, selects_iff _ (row_mem _), row_op]
  exact h

theorem nop : Statement .nop := by rw [Statement]; decide

theorem modexp (rd base exponent modulus : Reg) : Statement (.modexp rd base exponent modulus) := by
  apply of_toNat
  simp only [encode, commandWord_toNat, Instr.op, Op.free, Op.row, BitVec.toNat_ofNat, BitVec.reduceToNat]
  omega

theorem modmul (rd a b modulus : Reg) : Statement (.modmul rd a b modulus) := by
  apply of_toNat
  simp only [encode, commandWord_toNat, Instr.op, Op.free, Op.row, BitVec.toNat_ofNat, BitVec.reduceToNat]
  omega

theorem modred (rd a modulus : Reg) : Statement (.modred rd a modulus) := by
  apply of_toNat
  simp only [encode, commandWord_toNat, Instr.op, Op.free, Op.row, BitVec.toNat_ofNat, BitVec.reduceToNat]
  omega

theorem gcd (rd a b : Reg) : Statement (.gcd rd a b) := by
  apply of_toNat
  simp only [encode, commandWord_toNat, Instr.op, Op.free, Op.row, BitVec.toNat_ofNat, BitVec.reduceToNat]
  omega

theorem xgcd (g s a b : Reg) : Statement (.xgcd g s a b) := by
  apply of_toNat
  simp only [encode, commandWord_toNat, Instr.op, Op.free, Op.row, BitVec.toNat_ofNat, BitVec.reduceToNat]
  omega

theorem modinv (rd a modulus : Reg) : Statement (.modinv rd a modulus) := by
  apply of_toNat
  simp only [encode, commandWord_toNat, Instr.op, Op.free, Op.row, BitVec.toNat_ofNat, BitVec.reduceToNat]
  omega

theorem prime (rd a : Reg) : Statement (.prime rd a) := by
  apply of_toNat
  simp only [encode, commandWord_toNat, Instr.op, Op.free, Op.row, BitVec.toNat_ofNat, BitVec.reduceToNat]
  omega

theorem keygen (n pub priv p q : Reg) : Statement (.keygen n pub priv p q) := by
  apply of_toNat
  simp only [encode, commandWord_toNat, Instr.op, Op.free, Op.row, BitVec.toNat_ofNat, BitVec.reduceToNat]
  omega

theorem split (width : Nat) : Statement (.split width) := by
  apply of_toNat
  have := (BitVec.ofNat 4 width).isLt
  simp only [encode, commandWord_toNat, Instr.op, Op.free, Op.row, BitVec.toNat_ofNat, BitVec.reduceToNat]
  omega

theorem join (width : Nat) : Statement (.join width) := by
  apply of_toNat
  have := (BitVec.ofNat 4 width).isLt
  simp only [encode, commandWord_toNat, Instr.op, Op.free, Op.row, BitVec.toNat_ofNat, BitVec.reduceToNat]
  omega

theorem encode (modulus exponent : Reg) : Statement (.encode modulus exponent) := by
  apply of_toNat
  simp only [Sys2Proof.encode, commandWord_toNat, Instr.op, Op.free, Op.row, BitVec.toNat_ofNat, BitVec.reduceToNat]
  omega

theorem decode (modulus exponent : Reg) : Statement (.decode modulus exponent) := by
  apply of_toNat
  simp only [Sys2Proof.encode, commandWord_toNat, Instr.op, Op.free, Op.row, BitVec.toNat_ofNat, BitVec.reduceToNat]
  omega

end Sys2Proof.Laws.SelectsRow
end

