-- ==== Sys2Proof/Laws/Step.lean ====
section
/-! SUPPORT. What one step can do, said once: the engine moves, the host's access is made, or the platform
resets; and that every operation keeps each part of the invariant. -/

namespace Sys2Proof.Machine

/-! ### The engine's step -/

/-- The engine's step from a state with a command pending. -/
theorem engineStep_of_ok {s : State} {p : Pending} {i : Instr} (h : s.pending = some p)
    (hd : decode p.cmd = .ok i) : engineStep s = exec i s := by simp [engineStep, h, hd]

theorem engineStep_of_error {s : State} {p : Pending} {e : Illegal} (h : s.pending = some p)
    (hd : decode p.cmd = .error e) : engineStep s = .next (s.finish .illegal) := by
  simp [engineStep, h, hd]

theorem engineStep_of_idle {s : State} (h : s.pending = none) : engineStep s = .next s := by
  simp [engineStep, h]

/-- The engine's step holds an idle engine, completes an illegal word with a failure, and otherwise runs
the command. -/
theorem engineStep_cases {s t : State} (h : engineStep s = .next t) :
    (s.pending = none ∧ t = s) ∨
    ∃ p, s.pending = some p ∧
      ((∃ e, decode p.cmd = .error e ∧ t = s.finish .illegal) ∨
        ∃ i, decode p.cmd = .ok i ∧ Completion i s t) := by
  cases hp : s.pending with
  | none => left; rw [engineStep_of_idle hp] at h; exact ⟨rfl, by cases h; rfl⟩
  | some p =>
    refine .inr ⟨p, rfl, ?_⟩
    cases hd : decode p.cmd with
    | error e => left; rw [engineStep_of_error hp hd] at h; exact ⟨e, rfl, by cases h; rfl⟩
    | ok i => right; rw [engineStep_of_ok hp hd] at h; exact ⟨i, rfl, exec_cases i h⟩

/-! ### One step -/

/-- A step that answers a next state is the engine's, the platform's reset, or an admitted access of the
host. -/
theorem step_cases {s t : State} (h : step s = .next t) :
    (∃ rest, engineStep (s.withInputs rest) = .next t) ∨
    (∃ rest, s.inputs = .powerOn :: rest ∧ t = (s.withInputs rest).powerOnReset) ∨
    ∃ a rest off, s.inputs = .host a :: rest ∧ a.offset? s.params = some off ∧
      t = (s.withInputs rest).hostAccess off a := by
  unfold step takeInput at h
  split at h
  · next hi => exact .inl ⟨s.inputs, h⟩
  · next rest hi => exact .inl ⟨rest, h⟩
  · next rest hi => exact .inr (.inl ⟨rest, hi, by cases h; rfl⟩)
  · next a rest hi =>
    split at h
    · next off ho => exact .inr (.inr ⟨a, rest, off, hi, ho, by cases h; rfl⟩)
    · split at h
      · exact .inl ⟨s.inputs, h⟩
      · cases h

/-- A step that the inputs leave to the engine. -/
theorem step_engine {s : State} {rest : List Input}
    (h : s.inputs = .engine :: rest ∨ (s.inputs = [] ∧ rest = [])) :
    step s = engineStep (s.withInputs rest) := by
  rcases h with h | ⟨h, rfl⟩
  · simp [step, takeInput, h]
  · have : s.withInputs [] = s := by rw [← h]; rfl
    simp [step, takeInput, h, this]

/-- A step that is the host's admitted write. -/
theorem step_hostWrite {s : State} {off : Nat} {v : Word} {rest : List Input}
    (h : s.inputs = .host (.write (s.params.engineBase + off) 4 v) :: rest) (hw : off < 0x8000)
    (h4 : off % 4 = 0) : step s = .next ((s.withInputs rest).hostWrite off v) := by
  unfold step takeInput
  rw [h]
  simp only [Access.offset?, admits?_window _ _ hw h4]
  rfl

/-- A step that is the host's admitted read. -/
theorem step_hostRead {s : State} {off : Nat} {rest : List Input}
    (h : s.inputs = .host (.read (s.params.engineBase + off) 4) :: rest) (hw : off < 0x8000)
    (h4 : off % 4 = 0) : step s = .next ((s.withInputs rest).hostRead off) := by
  unfold step takeInput
  rw [h]
  simp only [Access.offset?, admits?_window _ _ hw h4]
  rfl

/-! ### Runs -/

theorem core_run_next (m : Host.Core) (k : Nat) (s t : m.State) (h : m.step s = .next t) :
    m.run (k + 1) s = m.run k t := by simp only [Host.Core.run, h]

/-- A run goes on from the state its first step answers. -/
theorem run_next (k : Nat) (s t : State) (h : step s = .next t) :
    Host.Core.run Sys2Proof.core (k + 1) s = Host.Core.run Sys2Proof.core k t :=
  core_run_next Sys2Proof.core k s t h

/-! ### A completion keeps the invariant -/

/-- STATUS after a completion is in range (R39, R40, R174). -/
theorem State.statusWf_finish (s : State) (c : ErrCode) : (s.finish c).statusWf = true := by
  cases c <;> rfl

theorem State.pendingWf_finish (s : State) (c : ErrCode) : (s.finish c).pendingWf = true := rfl

theorem State.writeRegs_params (s : State) (ws : List (Reg × Nat)) :
    (s.writeRegs ws).params = s.params := by rw [State.writeRegs_frame]

theorem State.regsWf_writeRegs (s : State) (ws : List (Reg × Nat))
    (hv : ∀ w ∈ ws, w.2 < 2 ^ s.params.opw) (h : s.regsWf = true) :
    (s.writeRegs ws).regsWf = true := by
  induction ws generalizing s with
  | nil => exact h
  | cons w ws ih =>
    rw [State.writeRegs_cons]
    refine ih _ (fun w' hw' => hv w' (List.mem_cons_of_mem _ hw')) ?_
    have := hv w List.mem_cons_self
    rw [opw_eq_words] at this
    exact State.regsWf_writeReg s w.1 w.2 this h

/-- The operands of a state that meets the invariant are below `2^OPW`, the free ones too (R112). -/
theorem operand_lt {s : State} (hr : s.regsWf = true) (hp : s.pendingWf = true) (r : Reg) :
    s.operand r < 2 ^ s.params.opw := by
  have e : s.source = s.snapshot := by
    unfold State.source
    unfold State.pendingWf at hp
    split <;> simp_all
  rw [State.operand, e, opw_eq_words]
  exact BigReg.fill_lt ((State.regsWf_iff s).mp hr r) _

/-- A completion keeps the registers in range. -/
theorem Completion.regsWf {i : Instr} {s t : State} (c : Completion i s t) (hr : s.regsWf = true)
    (hp : s.pendingWf = true) : t.regsWf = true := by
  cases c with
  | fails => exact hr
  | writes os ho ws hi hw hv => exact State.regsWf_writeRegs (s.record os) ws (hv (operand_lt hr hp)) hr
  | outputs => exact hr

/-- A completion keeps DMEM canonical and inside its bounds. -/
theorem Completion.dmemWf {i : Instr} {s t : State} (c : Completion i s t) (hd : s.dmemWf = true) :
    t.dmemWf = true := by
  cases c with
  | fails => exact hd
  | writes os ho ws hi hw hv =>
    change ((s.record os).writeRegs ws).dmemWf = true
    rw [State.writeRegs_frame]
    exact hd
  | outputs os ho out hi hr hl =>
    have fit := (regionError?_eq_none s).mp hr
    unfold State.dmemWf at hd ⊢
    rw [Bool.and_eq_true] at hd ⊢
    exact ⟨Memory.wf_writeBytes _ _ _ hd.1,
      Memory.inside_writeBytes s.params.dmemSize _ _ _ (by simp only [State.record_source]; omega) hd.2⟩

/-- A completion ends with STATUS as R95 says and nothing pending, and what it has recorded names operands
of its command that are unspecified (R97). -/
theorem Completion.ending {i : Instr} {s t : State} (c : Completion i s t) :
    ∃ (code : ErrCode) (u : State) (os : List Operand), t = u.finish code ∧ u.status = s.status ∧
      u.operandFaults = s.operandFaults ++ os.map (OperandFault.mk s.commandInFlight) ∧
      ∀ o ∈ os, s.Unspecified i o := by
  cases c with
  | fails os ho c hc => exact ⟨c, s.record os, os, rfl, rfl, rfl, ho⟩
  | writes os ho ws hi hw hv =>
    refine ⟨.none, (s.record os).writeRegs ws, os, rfl, ?_, ?_, ho⟩ <;> rw [State.writeRegs_frame] <;> rfl
  | outputs os ho out hi hr hl => exact ⟨.none, (s.record os).output out, os, rfl, rfl, rfl, ho⟩

/-! ### The host's accesses and the resets keep the invariant -/

theorem State.wf_iff (s : State) :
    s.wf = true ↔ s.regsWf = true ∧ s.dmemWf = true ∧ s.statusWf = true ∧ s.pendingWf = true := by
  simp [State.wf, and_assoc]

theorem Status.wf_iff (s : State) :
    s.statusWf = true ↔ s.status.errcode ≤ 0xB ∧ (s.status.err = decide (s.status.errcode ≠ 0)) ∧
      (s.pending.isSome = true → s.status.done = false ∧ s.status.err = false) := by
  simp only [State.statusWf, State.busy, Bool.and_eq_true, decide_eq_true_eq, beq_iff_eq, Bool.or_eq_true,
    Bool.not_eq_true']
  cases s.pending.isSome <;> simp [and_assoc]

theorem State.regsWf_forgetReg (s : State) (rs : List Reg) (h : s.regsWf = true) :
    (rs.foldl State.forgetReg s).regsWf = true := by
  induction rs generalizing s with
  | nil => exact h
  | cons r rs ih => exact ih _ (State.regsWf_setReg s r _ (BigReg.wf_unspecified _) h)

/-- An abort keeps the registers in range and DMEM canonical (R199). -/
theorem State.wf_abort (s : State) (hr : s.regsWf = true) (hd : s.dmemWf = true) :
    s.abort.regsWf = true ∧ s.abort.dmemWf = true := by
  cases hp : s.pending with
  | none => rw [State.abort_of_idle s hp]; exact ⟨hr, hd⟩
  | some p =>
    cases hc : decode p.cmd with
    | error e => rw [State.abort_of_illegal s p e hp hc]; exact ⟨hr, hd⟩
    | ok i =>
      have hd' := hd
      unfold State.dmemWf at hd' ⊢
      rw [Bool.and_eq_true] at hd'
      rw [State.abort_params, State.dmem_abort s p i hp hc]
      refine ⟨?_, ?_⟩
      · simp only [State.abort, hp, hc]
        have := State.regsWf_forgetReg s i.dests hr
        split <;> exact this
      · split
        · rw [Memory.wf_forget _ _ _ hd'.1, Memory.inside_forget _ _ _ _ hd'.2]; rfl
        · exact hd

/-- A soft reset keeps the invariant (R198). -/
theorem State.wf_softReset (s : State) (h : s.wf = true) : s.softReset.wf = true := by
  obtain ⟨hr, hd, -, -⟩ := (State.wf_iff s).mp h
  obtain ⟨hr, hd⟩ := State.wf_abort s hr hd
  exact (State.wf_iff _).mpr ⟨hr, hd, rfl, rfl⟩

/-- The platform's reset establishes the invariant, from any state (R196, R197). -/
theorem State.wf_powerOnReset (s : State) : s.powerOnReset.wf = true := by
  refine (State.wf_iff _).mpr ⟨?_, rfl, rfl, rfl⟩
  rw [State.regsWf_iff]
  intro r
  rw [State.reg_powerOnReset]
  exact BigReg.wf_unspecified _

theorem State.wf_withInputs (s : State) (rest : List Input) : (s.withInputs rest).wf = s.wf := rfl

/-- A host read keeps the invariant (R70). -/
theorem State.wf_hostRead (s : State) (off : Nat) (h : s.wf = true) : (s.hostRead off).wf = true := h

theorem State.wf_dropWrite (s : State) (h : s.wf = true) : s.dropWrite.wf = true := h

theorem State.wf_writeStatus (s : State) (v : Word) (h : s.wf = true) : (s.writeStatus v).wf = true := by
  obtain ⟨hr, hd, hs, hp⟩ := (State.wf_iff s).mp h
  refine (State.wf_iff _).mpr ⟨hr, hd, ?_, hp⟩
  rw [Status.wf_iff] at hs ⊢
  refine ⟨hs.1, hs.2.1, fun hb => ?_⟩
  have := hs.2.2 hb
  simp [this]

theorem State.wf_writeCtrl (s : State) (v : Word) (h : s.wf = true) : (s.writeCtrl v).wf = true := by
  unfold State.writeCtrl
  split
  · exact State.wf_softReset s h
  · exact h

/-- An issue keeps the invariant, and sets up its clause on the snapshot (R93, R96). -/
theorem State.wf_issue (s : State) (cmd : Word) (h : s.wf = true) : (s.issue cmd).wf = true := by
  obtain ⟨hr, hd, -, -⟩ := (State.wf_iff s).mp h
  refine (State.wf_iff _).mpr ⟨hr, hd, rfl, ?_⟩
  simp [State.pendingWf, State.issue, State.snapshot]

theorem State.wf_writeRegWord (s : State) (r : Reg) (j : Nat) (v : Word) (hb : s.busy = false)
    (h : s.wf = true) : (s.writeRegWord r j v).wf = true := by
  obtain ⟨hr, hd, hs, -⟩ := (State.wf_iff s).mp h
  unfold State.writeRegWord
  split
  · next hj =>
    refine (State.wf_iff _).mpr ⟨?_, hd, hs, ?_⟩
    · exact State.regsWf_setReg s r _ (BigReg.wf_setWord _ _ _ _ hj ((State.regsWf_iff s).mp hr r)) hr
    · have : s.pending = none := by simpa [State.busy] using hb
      simp [State.pendingWf, this]
  · exact h

theorem State.wf_writeDmemWord (s : State) (k : Nat) (v : Word) (hb : s.busy = false) (hk : k % 4 = 0)
    (h : s.wf = true) : (s.writeDmemWord k v).wf = true := by
  obtain ⟨hr, hd, hs, -⟩ := (State.wf_iff s).mp h
  unfold State.writeDmemWord
  split
  · next hj =>
    refine (State.wf_iff _).mpr ⟨hr, ?_, hs, ?_⟩
    · unfold State.dmemWf at hd ⊢
      rw [Bool.and_eq_true] at hd ⊢
      refine ⟨Memory.wf_writeBytes _ _ _ hd.1, Memory.inside_writeBytes _ _ _ _ ?_ hd.2⟩
      rw [wordBytes_length]
      simp only [Params.dmemSize, State.setDmem_params] at hj ⊢
      omega
    · have : s.pending = none := by simpa [State.busy] using hb
      simp [State.pendingWf, this]
  · exact h

/-- With no command pending, the clause on the snapshot holds of any state. -/
theorem State.pendingWf_of_idle (s : State) (h : s.busy = false) : s.pendingWf = true := by
  have : s.pending = none := by simpa [State.busy] using h
  simp [State.pendingWf, this]

/-- A region register may take any value while BUSY = 0 (R44). -/
theorem State.wf_regionRegister (s t : State) (hb : s.busy = false)
    (ht : t = { s with srcAddr := t.srcAddr, srcLen := t.srcLen, dstAddr := t.dstAddr, dstCap := t.dstCap })
    (h : s.wf = true) : t.wf = true := by
  obtain ⟨hr, hd, hs, -⟩ := (State.wf_iff s).mp h
  have hb' : t.busy = false := by rw [ht]; exact hb
  rw [State.wf_iff]
  refine ⟨?_, ?_, ?_, State.pendingWf_of_idle t hb'⟩ <;> rw [ht] <;> assumption

/-- A host write keeps the invariant. -/
theorem State.wf_hostWrite (s : State) (off : Nat) (v : Word) (h4 : off % 4 = 0) (h : s.wf = true) :
    (s.hostWrite off v).wf = true := by
  have busy : ∀ t : State, (s.busy = false → t.wf = true) → (s.unlessBusy t).wf = true := by
    intro t ht
    unfold State.unlessBusy
    split
    · exact State.wf_dropWrite s h
    · exact ht (by simp_all)
  unfold State.hostWrite
  cases e : locate off with
  | id => exact h
  | version => exact h
  | paramOpw => exact h
  | paramDmem => exact h
  | ctrl => exact State.wf_writeCtrl s v h
  | status => exact State.wf_writeStatus s v h
  | cmd => exact busy _ fun _ => State.wf_issue s v h
  | lastCmd => exact h
  | srcAddr => exact busy _ fun hb => State.wf_regionRegister s _ hb rfl h
  | srcLen => exact busy _ fun hb => State.wf_regionRegister s _ hb rfl h
  | dstAddr => exact busy _ fun hb => State.wf_regionRegister s _ hb rfl h
  | dstCap => exact busy _ fun hb => State.wf_regionRegister s _ hb rfl h
  | dstLen => exact h
  | reserved => exact h
  | bigReg r j => exact busy _ fun hb => State.wf_writeRegWord s r j v hb h
  | dmem k =>
    have := locate_dmem_offset off k e
    exact busy _ fun hb => State.wf_writeDmemWord s k v hb (by omega) h

end Sys2Proof.Machine
end

