-- ==== Sys2Proof/Machine/Assembler.lean ====
section
/-! DEFINITION. The assembler syntax (30_encoding.md R88 to R91) as a function from a line of text to a
command. It is host software; no step of the machine uses it. What the spec leaves open of the text
(spaces, leading zeros, mixed case, a line without a command) is log 20. -/

namespace Sys2Proof.Machine

/-- Blanks between the parts of a line. -/
def isBlank (c : Char) : Bool := c == ' ' || c == '\t'

/-- A text without the blanks around it. -/
def trimBlanks (t : List Char) : List Char :=
  ((t.dropWhile isBlank).reverse.dropWhile isBlank).reverse

/-- The text before a comment, which starts with `;` (R88). -/
def stripComment (t : List Char) : List Char := t.takeWhile (fun c => c != ';')

/-- The operands between commas, each without the blanks around it. -/
def splitCommas : List Char → List (List Char)
  | [] => [[]]
  | c :: cs =>
    if c = ',' then [] :: splitCommas cs
    else
      match splitCommas cs with
      | f :: fs => (c :: f) :: fs
      | [] => [[c]]

/-- `i` below 16 in decimal. -/
def smallDecimal (i : Nat) : List Char :=
  if i < 10 then [Char.ofNat (48 + i)] else ['1', Char.ofNat (48 + (i - 10))]

/-- A register operand, `x0` to `x15` (R88). -/
def asmReg? (t : List Char) : Option Reg :=
  (List.finRange 16).find? fun r => decide (t = 'x' :: smallDecimal r.val)

/-- A width operand, a decimal integer 0 to 15 (R88); a width outside is an assembly error (R91). -/
def asmWidth? (t : List Char) : Option Nat :=
  (List.range 16).find? fun i => decide (t = smallDecimal i)

/-- The register operands of a command, if every one of them is a register. -/
def asmRegs? (ops : List (List Char)) : Option (List Reg) :=
  match ops with
  | [] => some []
  | o :: os =>
    match asmReg? o, asmRegs? os with
    | some r, some rs => some (r :: rs)
    | _, _ => none

/-- The command of a mnemonic in upper case and its register operands, in the order of R89, with the
pseudo-instructions of R90. -/
def asmRegCommand (m : String) (rs : List Reg) : Option Instr :=
  match rs with
  | [] => if m = "NOP" then some .nop else none
  | [a, b] =>
    if m = "PRIME" then some (.prime a b)
    else if m = "ENCODE" then some (.encode a b)
    else if m = "DECODE" then some (.decode a b)
    else none
  | [a, b, c] =>
    if m = "MODRED" then some (.modred a b c)
    else if m = "GCD" then some (.gcd a b c)
    else if m = "MODINV" then some (.modinv a b c)
    else if m = "MODSQR" then some (.modsqr a b c)
    else if m = "MOD" then some (.mod a b c)
    else if m = "INV" then some (.inv a b c)
    else none
  | [a, b, c, d] =>
    if m = "MODEXP" then some (.modexp a b c d)
    else if m = "MODMUL" then some (.modmul a b c d)
    else if m = "XGCD" then some (.xgcd a b c d)
    else none
  | [a, b, c, d, e] => if m = "KEYGEN" then some (.keygen a b c d e) else none
  | _ => none

/-- The mnemonics of the command set and of the pseudo-instructions (R81, R90). -/
def mnemonics : List String :=
  ["NOP", "MODEXP", "MODMUL", "MODRED", "GCD", "XGCD", "MODINV", "PRIME", "KEYGEN", "SPLIT", "JOIN",
    "ENCODE", "DECODE", "MODSQR", "MOD", "INV"]

/-- The mnemonic a text names, in upper or in lower case (R88). -/
def asmMnemonic? (t : List Char) : Option String :=
  mnemonics.find? fun m => decide (t = m.toList) || decide (t = m.toList.map Char.toLower)

/-- One line of assembler text (R88 to R91): the command it denotes, or none where it denotes none. That
is an assembly error (R91) or, DESIGN CHOICE (log 20), a line of blanks or of a comment alone: the spec
says that a comment starts with `;` and not what such a line is, and the model gives it no command. -/
def assembleLine (line : List Char) : Option Instr :=
  let t := trimBlanks (stripComment line)
  let head := t.takeWhile (fun c => !isBlank c)
  let rest := trimBlanks (t.dropWhile (fun c => !isBlank c))
  let ops := if rest = [] then [] else (splitCommas rest).map trimBlanks
  match asmMnemonic? head with
  | none => none
  | some m =>
    if m = "SPLIT" ∨ m = "JOIN" then
      match ops with
      | [o] =>
        match asmWidth? o with
        | some w => some (if m = "SPLIT" then .split w else .join w)
        | none => none
      | _ => none
    else
      match asmRegs? ops with
      | some rs => asmRegCommand m rs
      | none => none

/-- The word a line assembles to (R89), if it denotes a command. -/
def assembleWord (line : List Char) : Option Word :=
  match assembleLine line with
  | some i => some (encode i)
  | none => none

end Sys2Proof.Machine
end

