-- ==== Sys2Proof/Tests/Slice0.lean ====
section
/-! SUPPORT. Tests on fixed values, the expected results taken from the tables and the worked examples of
95_test_vectors.md and from words written out by hand; and a witness for the hypotheses of each obligation. -/

/- One test at a time: many at once, each waiting for the kernel, take more threads than check.sh's limit on
memory allows. -/
set_option Elab.async false

namespace Sys2Proof.Tests

open Sys2Proof.Machine

/-! ### Small states -/

/-- The reset state with the given register values, written in order. -/
def withRegs (ws : List (Reg × Nat)) : State := ws.foldl (fun s w => s.writeReg w.1 w.2) State.reset

/-- `s` with the source region `[0, len)` holding `data`, and the destination region at `dst`. -/
def withData (s : State) (data : List Byte) (dst cap : Word) : State :=
  { s with
    dmem := Memory.writeBytes [] 0 data, srcAddr := 0, srcLen := BitVec.ofNat 32 data.length
    dstAddr := dst, dstCap := cap }

/-- The state after the command word `w` is issued in `s` and completes. -/
def run (s : State) (w : Word) : Option State :=
  match step (s.withFetchWord 32 w.toNat) with
  | .next t => some t
  | .fault _ => none
  | .refused _ => none

/-- What a test looks at: STATUS and the values of some registers. -/
def look (s : State) (w : Word) (rs : List Reg) : Option (Word × List Nat) :=
  (run s w).map fun t => (t.statusWord, rs.map fun r => (t.reg r).val)

/-- What a test of a byte command looks at: STATUS, DST_LEN and the output bytes. -/
def lookBytes (s : State) (w : Word) : Option (Word × List (Option Byte)) :=
  (run s w).map fun t =>
    (t.statusWord, (List.range t.dstLen.toNat).map fun k => Memory.read t.dmem (t.dstAddr.toNat + k))

/-- `s` with one host write to come. -/
def writing (s : State) (off : Nat) (v : Word) : State :=
  { s with inputs := [.host (.write (s.params.engineBase + off) 4 v)] }

/-- `s` with one host read to come. -/
def reading (s : State) (off : Nat) : State :=
  { s with inputs := [.host (.read (s.params.engineBase + off) 4)] }

/-- What the next host read in `s` returns. -/
def readOf (s : State) : Option Word :=
  match step s with
  | .next t => t.readData
  | .fault _ => none
  | .refused _ => none

/-! ### WellFormed: every check refuses an ill-formed term -/

theorem smoke_split_width : (Instr.split 16).wellFormed = false := by decide

theorem smoke_join_width : (Instr.join 16).wellFormed = false := by decide

theorem smoke_accepted : (Instr.split 15).wellFormed = true ∧ (Instr.join 0).wellFormed = true := by decide

/-! ### Decoding: words written out field by field, `op rd rs1 rs2 r3 r4 res imm4` (R75, R81, R89) -/

theorem test_decode_nop : decode 0b00000000000000000000000000000000#32 = .ok .nop := by decide

/-- 000001 0011 0000 0001 0010 0000 00 0000. -/
theorem test_decode_modexp : decode 0b00000100110000000100100000000000#32 = .ok (.modexp 3 0 1 2) := by
  decide

/-- 000010 0101 0011 0100 0110 0000 00 0000. -/
theorem test_decode_modmul : decode 0b00001001010011010001100000000000#32 = .ok (.modmul 5 3 4 6) := by
  decide

/-- 000011 0010 0000 0001 0000 0000 00 0000. -/
theorem test_decode_modred : decode 0b00001100100000000100000000000000#32 = .ok (.modred 2 0 1) := by decide

/-- 000100 1010 0010 0011 0000 0000 00 0000. -/
theorem test_decode_gcd : decode 0b00010010100010001100000000000000#32 = .ok (.gcd 10 2 3) := by decide

/-- 000101 0010 0000 0001 0011 0000 00 0000: `g` is rd, `s` is r3. -/
theorem test_decode_xgcd : decode 0b00010100100000000100110000000000#32 = .ok (.xgcd 2 3 0 1) := by decide

/-- 000110 0100 0010 0011 0000 0000 00 0000. -/
theorem test_decode_modinv : decode 0b00011001000010001100000000000000#32 = .ok (.modinv 4 2 3) := by decide

/-- 000111 0101 0001 0000 0000 0000 00 0000. -/
theorem test_decode_prime : decode 0b00011101010001000000000000000000#32 = .ok (.prime 5 1) := by decide

/-- 001000 0000 0001 0010 0011 0100 00 0000: n, p, q, public, private. -/
theorem test_decode_keygen : decode 0b00100000000001001000110100000000#32 = .ok (.keygen 0 3 4 1 2) := by
  decide

/-- 001001 0000 0000 0000 0000 0000 00 0101. -/
theorem test_decode_split : decode 0b00100100000000000000000000000101#32 = .ok (.split 5) := by decide

/-- 001010 0000 0000 0000 0000 0000 00 1111: the width 15 decodes (R79). -/
theorem test_decode_join : decode 0b00101000000000000000000000001111#32 = .ok (.join 15) := by decide

/-- 001011 0000 0000 0011 0000 0000 00 0000. -/
theorem test_decode_encode : decode 0b00101100000000001100000000000000#32 = .ok (.encode 0 3) := by decide

/-- 001100 0000 0000 0100 0000 0000 00 0000. -/
theorem test_decode_decode : decode 0b00110000000000010000000000000000#32 = .ok (.decode 0 4) := by decide

/-- The illegal words of 95_test_vectors.md section 3.1. -/
theorem test_decode_illegal :
    decode 0x00000001 = .error .unusedField ∧ decode 0x04C04801 = .error .unusedField ∧
    decode 0x04C04810 = .error .reservedBits ∧ decode 0x24400003 = .error .unusedField ∧
    decode 0x2C40C000 = .error .unusedField ∧ decode 0x34000000 = .error .reservedOpcode ∧
    decode 0xFC000000 = .error .reservedOpcode := by decide

/-! ### One step of each command (95_test_vectors.md sections 2 and 3) -/

theorem test_nop : look State.reset 0x00000000 [] = some (0x00000002, []) := by decide +kernel

theorem test_illegal : look State.reset 0x00000001 [] = some (0x00000106, []) := by decide +kernel

theorem test_modexp :
    look (withRegs [(0, 65), (1, 17), (2, 3233)]) 0x04C04800 [3] = some (0x00000002, [2790]) := by
  decide +kernel

theorem test_modexp_zero_modulus :
    look (withRegs [(0, 9), (1, 9), (3, 5)]) 0x04C04800 [3] = some (0x00000606, [5]) := by decide +kernel

theorem test_modmul :
    look (withRegs [(0, 123456789), (1, 987654321), (2, 1000000007)]) 0x08C04800 [3] =
      some (0x00000002, [259106859]) := by decide +kernel

theorem test_modred :
    look (withRegs [(0, 2 ^ 64 - 1), (1, 2 ^ 32 + 1)]) 0x0C804000 [2] = some (0x00000002, [0]) := by
  decide +kernel

theorem test_gcd : look (withRegs [(0, 240), (1, 46)]) 0x10804000 [2] = some (0x00000002, [2]) := by
  decide +kernel

theorem test_gcd_of_zero : look (withRegs [(1, 9)]) 0x10804000 [2] = some (0x00000002, [9]) := by
  decide +kernel

theorem test_xgcd : look (withRegs [(0, 46), (1, 240)]) 0x14804C00 [2, 3] = some (0x00000002, [2, 47]) := by
  decide +kernel

/-- One register named twice ends as the coefficient (R96). -/
theorem test_xgcd_same_register :
    look (withRegs [(0, 17), (1, 3120)]) 0x14804800 [2] = some (0x00000002, [2753]) := by decide +kernel

theorem test_modinv : look (withRegs [(0, 10), (1, 7)]) 0x18804000 [2] = some (0x00000002, [5]) := by
  decide +kernel

theorem test_modinv_no_inverse :
    look (withRegs [(0, 6), (1, 9), (2, 4)]) 0x18804000 [2] = some (0x00000706, [4]) := by decide +kernel

theorem test_prime : look (withRegs [(0, 7919)]) 0x1C400000 [1] = some (0x00000002, [1]) := by decide +kernel

theorem test_prime_not : look (withRegs [(0, 91), (1, 7)]) 0x1C400000 [1] = some (0x00000002, [0]) := by
  decide +kernel

/-- `p = 13`, `q = 19`, draw 5 (section 3.5): the draw is a free value, so the writes are tested for it. -/
theorem test_keygen_writes :
    let t := State.reset.writeKeys 0 3 4 13 19 5
    5 ∈ drawSet (keyPhi 13 19) ∧ (drawSet (keyPhi 13 19)).length = 64 ∧
      [t.reg 0, t.reg 3, t.reg 4].map BigReg.val = [247, 173, 5] := by decide +kernel

/-- Section 3.5; the WIDTH_OVERFLOW case with a small width, for a product that needs more bits. -/
theorem test_keygen_errors :
    [keygenError? 64 4 7, keygenError? 64 7 4, keygenError? 64 2 3, keygenError? 64 5 7,
      keygenError? 8 17 19, keygenError? 64 7 7] =
    [some .notPrimeP, some .notPrimeQ, some .noCandidate, some .noCandidate, some .widthOverflow, none] := by
  decide +kernel

theorem test_split :
    lookBytes (withData State.reset [0xDE, 0xAD, 0xBE] 0x10 8) 0x24000005 =
      some (0x00000002, [some 0x1B, some 0x1A, some 0x16, some 0x1B, some 0x1C]) := by decide +kernel

theorem test_split_overlap :
    lookBytes (withData State.reset [0x1B, 0x1A, 0x16, 0x1B, 0x1C] 0x02 8) 0x24000005 =
      some (0x00000B06, []) := by decide +kernel

theorem test_join :
    lookBytes (withData State.reset [0x1B, 0x1A, 0x16, 0x1B, 0x1C] 0x18 8) 0x28000005 =
      some (0x00000002, [some 0xDE, some 0xAD, some 0xBE]) := by decide +kernel

/-- The tail that completes no byte is discarded (E8). -/
theorem test_join_tail :
    lookBytes (withData State.reset [0x05] 0x18 8) 0x28000005 = some (0x00000002, []) := by decide +kernel

theorem test_encode_packed :
    lookBytes (withData (withRegs [(0, 247), (1, 173)]) [0x48, 0x69] 0x80 64) 0x2C004000 =
      some (0x00000002, [some 0x04, some 0xB6, some 0x02]) := by decide +kernel

theorem test_encode_byte_overflow :
    lookBytes (withData (withRegs [(0, 323), (1, 247)]) [0x41] 0x80 64) 0x2C004000 =
      some (0x00000906, []) := by decide +kernel

theorem test_decode_packed :
    lookBytes (withData (withRegs [(0, 247), (1, 5)]) [0x04, 0xB6, 0x02] 0x80 64) 0x30004000 =
      some (0x00000002, [some 0x48, some 0x69]) := by decide +kernel

theorem test_decode_per_byte :
    lookBytes (withData (withRegs [(0, 323), (1, 5)]) [0xC8] 0x80 64) 0x30004000 =
      some (0x00000002, [some 0x62]) := by decide +kernel

/-- SPLIT 3 with SRC_LEN = 2 over unwritten bytes (section 3.3): the fault is recorded, and the command goes
on to DONE. -/
theorem test_split_unwritten :
    let s := { State.reset with srcLen := 2, dstAddr := 0x10, dstCap := 8 }
    (run s 0x24000003).map (fun t => (t.statusWord, t.dstLen, t.operandFaults)) =
      some (0x00000002, 6, [⟨0x24000003, .byte 0⟩, ⟨0x24000003, .byte 1⟩]) := by decide +kernel

/-! ### The register window (section 3.2), key text (E9) and the assembler -/

theorem test_window_reads :
    [0x0000, 0x0004, 0x0008, 0x000C, 0x0014, 0x0018, 0x1608, 0x4100, 0x0100, 0x3000].map
      (fun off => readOf (reading State.reset off)) =
    [some 0x52534131, some 1, some 64, some 256, some 0, some 0, some 0, some 0, some 0, some 0] := by
  decide +kernel

theorem test_dmem_lanes :
    [0, 1, 2, 3].map (Memory.read (State.reset.hostWrite 0x4000 0x44434241).dmem) =
      [some 0x41, some 0x42, some 0x43, some 0x44] := by decide +kernel

theorem test_register_words :
    (((State.reset.hostWrite 0x1600 0x89ABCDEF).hostWrite 0x1604 0x01234567).reg 3).val =
      0x0123456789ABCDEF := by decide +kernel

/-- The second of two issues without a wait is dropped (section 3.8). -/
theorem test_dropped_issue :
    let s := (State.reset.hostWrite 0x18 0x00000000).hostWrite 0x18 0x04C04800
    s.lastCmd = 0 ∧ s.statusWord = 0x00000009 := by decide +kernel

/-- The aborted destination of MODEXP is unspecified after the soft reset (program P4). -/
theorem test_soft_reset :
    let s := ((withRegs [(2, 497), (3, 445)]).hostWrite 0x18 0x04C04800).hostWrite 0x10 2
    s.statusWord = 0 ∧ s.lastCmd = 0 ∧ s.reg 3 = { val := 0, unspec := [0, 1] } ∧
      s.reg 2 = { val := 497, unspec := [] } := by decide +kernel

/-- "F7\n05" and "0143\n00AD". -/
theorem test_key_text :
    serializeKey 247 5 = [0x46, 0x37, 0x0A, 0x30, 0x35] ∧
    serializeKey 323 173 = [0x30, 0x31, 0x34, 0x33, 0x0A, 0x30, 0x30, 0x41, 0x44] := by decide +kernel

/-- One field and three fields fail; the two fields of a key are read back (R20). -/
theorem test_parse_key :
    parseKey [0x46, 0x37] = none ∧ parseKey [0x46, 0x0A, 0x37, 0x0A, 0x30] = none ∧
    parseKey [0x46, 0x37, 0x0A, 0x30, 0x35] = some (247, 5) := by decide +kernel

theorem test_assemble :
    assembleWord "KEYGEN x0, x3, x4, x1, x2".toList = some 0x20048D00 ∧
    assembleWord "modexp x3, x0, x1, x2 ; comment".toList = some 0x04C04800 ∧
    assembleWord "MODSQR x1, x2, x3".toList = some 0x08488C00 ∧
    assembleWord "JOIN 16".toList = none := by decide +kernel

/-- Reset memory has the canonical form. -/
theorem test_reset_memory : Memory.wf State.reset.dmem = true := by decide

/-! ### Witnesses: a concrete state that meets the hypotheses of each obligation, clause by clause -/

/-- The reset state with the engine's turn next. -/
def turn (s : State) : State := { s with inputs := [.engine] }

/-- One register set, one byte of source data. -/
def one : State := withData (withRegs [(0, 247), (1, 173)]) [0x41] 0x80 64

/-- The same with another destination region, which starts at `dst` and has `cap` bytes. -/
def oneAt (dst cap : Word) : State := withData (withRegs [(0, 247), (1, 173)]) [0x41] dst cap

/-- Modulus and exponent given, the source byte `b`, room for `cap` bytes. -/
def codec (n k : Nat) (b : Byte) (cap : Word) : State := withData (withRegs [(0, n), (1, k)]) [b] 0x80 cap

/-- After a power-on reset: nothing has a value. -/
def blank : State := State.reset.powerOnReset

theorem witness_DecodeOfEncode : (Instr.join 15).wellFormed = true ∧ (Instr.split 0).wellFormed = true := by
  decide

theorem witness_EncodeOfDecode :
    decode 0x28000000 = .ok (.join 0) ∧ decode 0x303FC000 = .ok (.decode 15 15) := by decide

theorem witness_DecodesWhenRowSelected :
    (∃ i, decode 0x2400000F = .ok i) ∧ ∃ r ∈ opcodeMap, (0x2400000F : Word) &&& r.mask = r.pattern :=
  ⟨⟨.split 15, by decide⟩, ⟨⟨.split, 0x24000000#32, 0xFFFFFFF0#32⟩, by decide⟩⟩

theorem witness_ReservedWordsIllegal :
    0x0D ≤ ((0x34000000 : Word).extractLsb' 26 6).toNat ∧ 0x0D ≤ ((0xFC000000 : Word).extractLsb' 26 6).toNat ∧
      (0x00000010 : Word).extractLsb' 4 2 ≠ 0 ∧ (0x00000030 : Word).extractLsb' 4 2 ≠ 0 := by decide

theorem witness_StepRunsPendingCommand :
    (turn (State.reset.issue 0x0C804000)).pending = some ⟨0x0C804000, State.reset.snapshot⟩ ∧
      decode 0x0C804000 = .ok (.modred 2 0 1) ∧ enginesTurn (turn (State.reset.issue 0x0C804000)) [] ∧
      enginesTurn (State.reset.issue 0x0C804000) [] :=
  ⟨rfl, by decide, .inl rfl, .inr ⟨rfl, rfl⟩⟩

theorem witness_IssueCapturesOperands :
    (writing State.reset 0x18 0x04C04800).pending = none ∧
      hostWrites (writing State.reset 0x18 0x04C04800) 0x18 0x04C04800 [] := ⟨rfl, rfl⟩

theorem witness_IllegalWordCompletes :
    let s := { State.reset with inputs := [.host (.write 0x18 4 0x34000000), .engine] }
    s.pending = none ∧ (∀ r ∈ opcodeMap, (0x34000000 : Word) &&& r.mask ≠ r.pattern) ∧
      hostWrites s 0x18 0x34000000 [.engine] := ⟨rfl, by decide, rfl⟩

theorem witness_NopCompletes :
    (0x03FFFFFF : Word).extractLsb' 26 6 = 0x00 ∧ (0x03FFFFFF : Word) ≠ 0x00000000 ∧
      (0x00000001 : Word).extractLsb' 26 6 = 0x00 := by decide

/-- For the encoding clause of each result statement, the word of its row with every free bit 1. -/
theorem witness_EncodedAs :
    (0x07FFFFFF : Word) &&& 0xFC0003FF ≠ 0x04000000 ∧ (0x07FFFC00 : Word) &&& 0xFC0003FF = 0x04000000 ∧
      (0x0BFFFC00 : Word) &&& 0xFC0003FF = 0x08000000 ∧ (0x0FFFC000 : Word) &&& 0xFC003FFF = 0x0C000000 ∧
      (0x13FFC000 : Word) &&& 0xFC003FFF = 0x10000000 ∧ (0x17FFFC00 : Word) &&& 0xFC0003FF = 0x14000000 ∧
      (0x1BFFC000 : Word) &&& 0xFC003FFF = 0x18000000 ∧ (0x1FFC0000 : Word) &&& 0xFC03FFFF = 0x1C000000 ∧
      (0x23FFFFC0 : Word) &&& 0xFC00003F = 0x20000000 ∧ (0x2400000F : Word) &&& 0xFFFFFFF0 = 0x24000000 ∧
      (0x2800000F : Word) &&& 0xFFFFFFF0 = 0x28000000 ∧ (0x2C3FC000 : Word) &&& 0xFFC03FFF = 0x2C000000 ∧
      (0x303FC000 : Word) &&& 0xFFC03FFF = 0x30000000 := by decide

theorem witness_IdleHoldsState : State.reset.pending = none ∧ State.reset.inputs = [] := ⟨rfl, rfl⟩

theorem specified_one (o : Operand) : ¬ one.Unspecified (.encode 0 1) o := by
  cases o with
  | reg r =>
    rintro ⟨hr, hn⟩
    simp only [Instr.sources, List.mem_cons, List.not_mem_nil, or_false] at hr
    rcases hr with rfl | rfl <;> cases hn
  | byte a =>
    rintro ⟨-, -, h, hn⟩
    have : a = 0 := Nat.lt_one_iff.mp h
    subst this
    cases hn

/-- ENCODE with its registers and its source byte specified. -/
theorem witness_EveryCommandCompletes : ∀ o, ¬ one.Unspecified (.encode 0 1) o := specified_one

/-- MODRED whose second source is unspecified, and ENCODE whose first one is. -/
theorem witness_UnspecifiedOperandsRecorded :
    let s := (blank.writeReg 0 5).issue 0x0C804000
    let t := blank.issue 0x2C004000
    (s.pending = some ⟨0x0C804000, (blank.writeReg 0 5).snapshot⟩ ∧
      ((Instr.modred 2 0 1).usesRegions = true → RegionsFit s ∧ ¬ RegionsShare s) ∧
      1 ∈ (Instr.modred 2 0 1).sources ∧ s.source.value? 1 = none ∧
      ∃ u, exec (.modred 2 0 1) s = .next u) ∧
    (t.pending = some ⟨0x2C004000, blank.snapshot⟩ ∧ 0 ∈ (Instr.encode 0 1).sources ∧
      t.source.value? 0 = none ∧ RegionsFit t ∧ ¬ RegionsShare t) := by
  refine ⟨⟨rfl, (fun h => by cases h), by decide, rfl, ?_⟩, rfl, by decide, rfl, ⟨by decide, by decide⟩,
    fun h => absurd h.1 (by decide)⟩
  simp only [exec, execModred, withReg, raise, complete]
  split <;> exact ⟨_, rfl⟩

/-- A source of two bytes, the second unspecified, under modulus `n` and exponent 1. -/
def half (n : Nat) (cap : Word) : State :=
  { codec n 1 0x41 cap with srcLen := 2 }.issue 0x2C004000

theorem half_first (n : Nat) (cap : Word) (ok : Byte → Prop) (h : ok 0x41) : FirstUnspecified (half n cap) 1 ok :=
  ⟨⟨by change 1 < (2#32).toNat; decide, rfl⟩, fun t ht => ⟨0x41, by rw [Nat.lt_one_iff.mp ht]; rfl, h⟩⟩

/-- Widths 1 and 7 of SPLIT and JOIN, ENCODE with the least modulus, and DECODE with the least modulus of
each branch and the greatest of the packed one. -/
theorem witness_UnspecifiedOperandsRecorded_bytes :
    (half 2 64).pending = some ⟨0x2C004000, { codec 2 1 0x41 64 with srcLen := 2 }.snapshot⟩ ∧
      RegionsFit (half 2 64) ∧ ¬ RegionsShare (half 2 64) ∧
      UnspecifiedByte (half 2 64) 1 ∧ FirstUnspecified (half 2 64) 1 AlnumByte ∧
      FirstUnspecified (half 256 64) 1 (fun b => b.toNat ^ 1 % 256 < 256) ∧
      (half 2 64).source.value? 0 = some 2 ∧ (half 2 64).source.value? 1 = some 1 ∧
      (half 256 64).source.value? 0 = some 256 ∧ (half 255 64).source.value? 0 = some 255 ∧
      (2 ^ 1 ≤ 2 ∧ 2 < 2 ^ (1 + 1)) ∧ (2 ^ 7 ≤ 255 ∧ 255 < 2 ^ (7 + 1)) ∧
      (half 2 64).source.srcLen.toNat ≤ (half 2 64).source.dstCap.toNat ∧
      (8 * (half 2 64).source.srcLen.toNat + 1 - 1) / 1 ≤ (half 2 64).source.dstCap.toNat ∧
      7 * (half 2 64).source.srcLen.toNat / 8 ≤ (half 2 64).source.dstCap.toNat :=
  ⟨rfl, ⟨by decide, by decide⟩, fun h => absurd h.2.2.2 (by decide), (half_first _ _ (fun _ => True) trivial).1,
    half_first _ _ _ (.inr (.inl (by decide))), half_first _ _ _ (by decide), rfl, rfl, rfl, rfl,
    by decide, by decide, by decide, by decide, by decide⟩

/-- MODRED of two registers no word of which is specified. -/
theorem witness_UnspecifiedOperandsComputeWithSomeValue :
    let s := blank.issue 0x0C804000
    s.pending = some ⟨0x0C804000, blank.snapshot⟩ ∧ s.wf = true ∧ 63 / 32 ∈ (blank.snapshot.x.get 0).unspec ∧
      63 / 32 ∉ ((blank.setReg 0 ((blank.reg 0).setWord 1 7)).snapshot.x.get 0).unspec := by
  refine ⟨rfl, by decide +kernel, by decide, by decide⟩

theorem witness_OperandsComeFromSnapshot :
    let s := (withRegs [(0, 7), (1, 4)]).issue 0x0C804000
    let s' := (s.writeReg 0 99)
    s.pending = some ⟨0x0C804000, (withRegs [(0, 7), (1, 4)]).snapshot⟩ ∧ s'.pending = s.pending ∧
      s'.params = s.params ∧ s'.draws = s.draws ∧
      exec (.modred 2 0 1) s = .next (succeeded (withX 2 3 s)) := by
  refine ⟨rfl, rfl, rfl, rfl, ?_⟩
  rfl

/-- Three sources with a modulus of 0, and of 1. -/
theorem witness_ModexpResult :
    (withRegs [(0, 9), (1, 9)]).source.value? 0 = some 9 ∧ (withRegs [(0, 9), (1, 9)]).source.value? 1 = some 9 ∧
      (withRegs [(0, 9), (1, 9)]).source.value? 2 = some 0 ∧ (withRegs [(2, 1)]).source.value? 2 = some 1 := by
  decide

theorem witness_ModmulResult :
    (withRegs [(0, 9), (1, 9)]).source.value? 0 = some 9 ∧ (withRegs [(0, 9), (1, 9)]).source.value? 2 = some 0 ∧
      (withRegs [(2, 1)]).source.value? 2 = some 1 := by decide

theorem witness_ModredResult :
    (withRegs [(0, 9)]).source.value? 0 = some 9 ∧ (withRegs [(0, 9)]).source.value? 1 = some 0 ∧
      (withRegs [(1, 1)]).source.value? 1 = some 1 := by decide

theorem witness_GcdResult :
    State.reset.source.value? 0 = some 0 ∧ State.reset.source.value? 1 = some 0 := by decide

theorem witness_XgcdResult :
    (withRegs [(0, 6)]).source.value? 0 = some 6 ∧ (withRegs [(0, 6)]).source.value? 1 = some 0 ∧
      (withRegs [(1, 1)]).source.value? 1 = some 1 := by decide

/-- Modulus 0; no inverse; the modulus 1, whose inverse is 0. -/
theorem witness_ModinvResult :
    (withRegs [(0, 3)]).source.value? 1 = some 0 ∧
      ((withRegs [(0, 6), (1, 9)]).source.value? 0 = some 6 ∧
        (withRegs [(0, 6), (1, 9)]).source.value? 1 = some 9 ∧ Nat.gcd 6 9 ≠ 1) ∧
      ((withRegs [(0, 9), (1, 1)]).source.value? 0 = some 9 ∧
        (withRegs [(0, 9), (1, 1)]).source.value? 1 = some 1 ∧ Nat.gcd 9 1 = 1) := by decide

theorem trialPrime_of (v : Nat) (h : isPrime v = true) : TrialPrime v := (isPrime_iff_trial v).mp h

theorem not_trialPrime_of (v : Nat) (h : isPrime v = false) : ¬ TrialPrime v :=
  fun c => by rw [(isPrime_iff_trial v).mpr c] at h; cases h

theorem witness_PrimeResult :
    (withRegs [(0, 2)]).source.value? 0 = some 2 ∧ TrialPrime 2 ∧
      (withRegs [(0, 1)]).source.value? 0 = some 1 ∧ ¬ TrialPrime 1 :=
  ⟨by decide, trialPrime_of 2 (by decide), by decide, not_trialPrime_of 1 (by decide)⟩

/-- `2^61 - 1`, with which a 64-bit product is reached at the boundary. -/
theorem trialPrime_mersenne : TrialPrime (2 ^ 61 - 1) := by
  refine trialPrime_of _ ((isPrime_iff _).mpr ?_)
  exact lucas_lehmer_sufficiency 61 (by norm_num) (by norm_num)

/-- The two operands, and each clause: not prime, not prime, too wide (`11 * (2^61 - 1)`), nothing to draw
(`phi = 4`), a draw (`phi = 10`, the least that has one). -/
theorem witness_KeygenResult :
    (withRegs [(1, 2), (2, 5)]).source.value? 1 = some 2 ∧ (withRegs [(1, 2), (2, 5)]).source.value? 2 = some 5 ∧
      ¬ TrialPrime 1 ∧ (TrialPrime 2 ∧ ¬ TrialPrime 4) ∧
      (TrialPrime (2 ^ 61 - 1) ∧ TrialPrime 11 ∧ 2 ^ State.reset.params.opw ≤ (2 ^ 61 - 1) * 11) ∧
      (TrialPrime 2 ∧ TrialPrime 5 ∧ 2 * 5 < 2 ^ State.reset.params.opw ∧
        ∀ v, ¬ Drawable ((2 - 1) * (5 - 1)) v) ∧
      (TrialPrime 2 ∧ TrialPrime 11 ∧ 2 * 11 < 2 ^ State.reset.params.opw ∧
        ∃ v, Drawable ((2 - 1) * (11 - 1)) v) := by
  refine ⟨by decide, by decide, not_trialPrime_of 1 (by decide),
    ⟨trialPrime_of 2 (by decide), not_trialPrime_of 4 (by decide)⟩,
    ⟨trialPrime_mersenne, trialPrime_of 11 (by decide), by decide⟩,
    ⟨trialPrime_of 2 (by decide), trialPrime_of 5 (by decide), by decide, ?_⟩,
    ⟨trialPrime_of 2 (by decide), trialPrime_of 11 (by decide), by decide, 3, ?_⟩⟩
  · rintro v ⟨h2, h4, hg, hs⟩
    have : v = 2 ∨ v = 3 := by omega
    rcases this with rfl | rfl <;> simp_all
  · exact ⟨by decide, by decide, by decide, by decide⟩

theorem witness_KeygenKeyRelation :
    (withRegs [(1, 2), (2, 11)]).source.value? 1 = some 2 ∧
      (withRegs [(1, 2), (2, 11)]).source.value? 2 = some 11 ∧ (0 : Reg) ≠ 3 ∧ (0 : Reg) ≠ 4 ∧ (3 : Reg) ≠ 4 ∧
      ∃ t, exec (.keygen 0 3 4 1 2) (withRegs [(1, 2), (2, 11)]) = .next t ∧ t.status.err = false := by
  have hk : keygenError? (withRegs [(1, 2), (2, 11)]).params.opw 2 11 = none := by decide +kernel
  have h1 : (withRegs [(1, 2), (2, 11)]).source.value? 1 = some 2 := by decide
  have h2 : (withRegs [(1, 2), (2, 11)]).source.value? 2 = some 11 := by decide
  refine ⟨h1, h2, by decide, by decide, by decide, ?_⟩
  simp only [exec, execKeygen, withReg_of_some h1, withReg_of_some h2, hk, complete]
  exact ⟨_, rfl, rfl⟩

theorem witness_SplitBits :
    1 ≤ 1 ∧ 7 ≤ 7 ∧ (split [0x41] 7).length = 2 ∧ (split [0x41] 1).length = 8 := by decide

theorem witness_JoinBits :
    1 ≤ 1 ∧ 7 ≤ 7 ∧ (join [0x20, 0x40] 7).length = 1 ∧ (join [1, 1, 1, 1, 1, 1, 1, 1] 1).length = 1 := by decide

theorem witness_SplitJoinRoundTrip : 1 ≤ 1 ∧ 1 ≤ 7 ∧ 7 ≤ 7 := by decide

/-- Each clause of SPLIT: a region one byte too far, one shared byte, widths 0 and 8, room for one byte less
than `ceil(8/7) = 2`, and just enough room. -/
theorem witness_SplitResult :
    ¬ RegionsFit (oneAt 0xC1 64) ∧ (RegionsFit (oneAt 0x00 1) ∧ RegionsShare (oneAt 0x00 1)) ∧
      (RegionsFit (oneAt 0xC0 64) ∧ ¬ RegionsShare (oneAt 0xC0 64) ∧ 0 < 1 ∧ 7 < 8) ∧
      (RegionsFit (oneAt 0x01 1) ∧ ¬ RegionsShare (oneAt 0x01 1) ∧
        (oneAt 0x01 1).source.dstCap.toNat < (8 * (oneAt 0x01 1).source.srcLen.toNat + 7 - 1) / 7) ∧
      (RegionsFit (oneAt 0x01 2) ∧ ¬ RegionsShare (oneAt 0x01 2) ∧
        (8 * (oneAt 0x01 2).source.srcLen.toNat + 7 - 1) / 7 ≤ (oneAt 0x01 2).source.dstCap.toNat ∧
        SourceIs (oneAt 0x01 2) [0x41]) := by
  unfold RegionsFit RegionsShare SourceIs
  decide

/-- Each clause of JOIN: the region clauses as for SPLIT, widths 0 and 8, no room for the one byte two groups
of 7 make, and room for it. -/
theorem witness_JoinResult :
    let s := withData State.reset [0x20, 0x40] 0x10 0
    let t := withData State.reset [0x20, 0x40] 0x10 1
    ¬ RegionsFit (oneAt 0xC1 64) ∧ (RegionsFit (oneAt 0x00 1) ∧ RegionsShare (oneAt 0x00 1)) ∧
      (RegionsFit (oneAt 0xC0 64) ∧ ¬ RegionsShare (oneAt 0xC0 64) ∧ 0 < 1 ∧ 7 < 8) ∧
      (RegionsFit s ∧ ¬ RegionsShare s ∧ s.source.dstCap.toNat < 7 * s.source.srcLen.toNat / 8) ∧
      (RegionsFit t ∧ ¬ RegionsShare t ∧ 7 * t.source.srcLen.toNat / 8 ≤ t.source.dstCap.toNat ∧
        SourceIs t [0x20, 0x40]) := by
  unfold RegionsFit RegionsShare SourceIs
  decide

/-- The regions pass, the modulus is `n`, the exponent `k`, and the source bytes are `data`. -/
def Ready (s : State) (n k : Nat) (data : List Byte) : Prop :=
  RegionsFit s ∧ ¬ RegionsShare s ∧ s.source.value? 0 = some n ∧ s.source.value? 1 = some k ∧ SourceIs s data

/-- Each clause of ENCODE: a region too far, a shared byte, modulus 1, a source byte that is not alphanumeric;
in the per-byte branch no room (`n = 256`), an overflow (`n = 323`, 65^247 = 312), and success (`n = 256`); in
the packed branch (`n = 255`, `w = 7`) one byte too little room, and enough. -/
theorem witness_EncodeResult :
    ¬ RegionsFit (oneAt 0xC1 64) ∧ (RegionsFit (oneAt 0x00 1) ∧ RegionsShare (oneAt 0x00 1)) ∧
      Ready (codec 1 1 0x41 64) 1 1 [0x41] ∧
      (Ready (codec 2 1 0x2D 64) 2 1 [0x2D] ∧ ¬ AlnumByte 0x2D) ∧
      (Ready (codec 256 3 0x41 0) 256 3 [0x41] ∧ AlnumByte 0x41 ∧
        (codec 256 3 0x41 0).source.dstCap.toNat < 1) ∧
      (Ready (codec 323 247 0x41 1) 323 247 [0x41] ∧ 1 ≤ (codec 323 247 0x41 1).source.dstCap.toNat ∧
        256 ≤ (0x41 : Byte).toNat ^ 247 % 323) ∧
      (Ready (codec 256 3 0x41 1) 256 3 [0x41] ∧ 1 ≤ (codec 256 3 0x41 1).source.dstCap.toNat ∧
        (0x41 : Byte).toNat ^ 3 % 256 < 256) ∧
      (Ready (codec 255 3 0x41 1) 255 3 [0x41] ∧ 2 ^ 7 ≤ 255 ∧ 255 < 2 ^ (7 + 1) ∧
        (codec 255 3 0x41 1).source.dstCap.toNat < (8 * 1 + 7 - 1) / 7) ∧
      (Ready (codec 255 3 0x41 2) 255 3 [0x41] ∧
        (8 * 1 + 7 - 1) / 7 ≤ (codec 255 3 0x41 2).source.dstCap.toNat) := by
  unfold Ready RegionsFit RegionsShare SourceIs AlnumByte
  refine ⟨?_, ?_, ?_, ?_, ?_, ?_, ?_, ?_, ?_⟩ <;> decide +kernel

/-- Each clause of DECODE, at the same boundaries; the packed branch with `n = 255`, `w = 7` and two source
bytes, and with `n = 2`, `w = 1`. -/
theorem witness_DecodeResult :
    ¬ RegionsFit (oneAt 0xC1 64) ∧ (RegionsFit (oneAt 0x00 1) ∧ RegionsShare (oneAt 0x00 1)) ∧
      Ready (codec 1 1 0x41 64) 1 1 [0x41] ∧
      (Ready (codec 256 3 0x41 0) 256 3 [0x41] ∧
        (codec 256 3 0x41 0).source.dstCap.toNat < (codec 256 3 0x41 0).source.srcLen.toNat) ∧
      (Ready (codec 323 247 0x41 1) 323 247 [0x41] ∧
        (codec 323 247 0x41 1).source.srcLen.toNat ≤ (codec 323 247 0x41 1).source.dstCap.toNat ∧
        256 ≤ (0x41 : Byte).toNat ^ 247 % 323) ∧
      (Ready (codec 323 5 0xC8 1) 323 5 [0xC8] ∧
        (codec 323 5 0xC8 1).source.srcLen.toNat ≤ (codec 323 5 0xC8 1).source.dstCap.toNat ∧
        (0xC8 : Byte).toNat ^ 5 % 323 < 256) ∧
      (let s := withData (withRegs [(0, 255), (1, 5)]) [0x02, 0xDC] 0x80 0
       Ready s 255 5 [0x02, 0xDC] ∧ 2 ^ 7 ≤ 255 ∧ 255 < 2 ^ (7 + 1) ∧
         s.source.dstCap.toNat < 7 * s.source.srcLen.toNat / 8) ∧
      (let s := withData (withRegs [(0, 2), (1, 5)]) [0x02, 0xDC] 0x80 0
       Ready s 2 5 [0x02, 0xDC] ∧ 2 ^ 1 ≤ 2 ∧ 2 < 2 ^ (1 + 1) ∧
         1 * s.source.srcLen.toNat / 8 ≤ s.source.dstCap.toNat) := by
  unfold Ready RegionsFit RegionsShare SourceIs
  refine ⟨?_, ?_, ?_, ?_, ?_, ?_, ?_, ?_⟩ <;> decide +kernel

theorem witness_PackedRoundTrip :
    Nat.Prime 13 ∧ Nat.Prime 19 ∧ 13 ≠ 19 ∧ 13 * 19 < 256 ∧
      173 * 5 % ((13 - 1) * (19 - 1)) = 1 % ((13 - 1) * (19 - 1)) := by norm_num

theorem witness_FailedCommandWritesNothing :
    ∃ t, exec (.modred 2 0 1) State.reset = .next t ∧ t.status.err = true := ⟨_, rfl, rfl⟩

theorem witness_RegisterCommandsFrame :
    (Instr.gcd 2 0 1).usesRegions = false ∧ ∃ t, exec (.gcd 2 0 1) State.reset = .next t := ⟨rfl, _, rfl⟩

/-- A failure, and a success that writes no byte (JOIN of an empty source). -/
theorem witness_ByteCommandsFrame :
    (Instr.split 0).usesRegions = true ∧
      (∃ t, exec (.split 0) State.reset = .next t ∧ t.status.err = true) ∧
      ∃ t, exec (.join 7) State.reset = .next t ∧ t.status.err = false :=
  ⟨rfl, ⟨_, rfl, rfl⟩, ⟨_, rfl, rfl⟩⟩

theorem witness_InterruptLine :
    (∃ t, exec .nop State.reset = .next t) ∧
      hostWrites (writing State.reset 0x14 2) 0x14 2 [] ∧ (2 : Word).getLsbD 1 = true ∧
      hostWrites (writing State.reset 0x10 0xFFFFFFFD) 0x10 0xFFFFFFFD [] ∧
      (0xFFFFFFFD : Word).getLsbD 1 = false := ⟨⟨_, rfl⟩, rfl, rfl, rfl, rfl⟩

/-- A two-byte access, an address below the window, the first address past it, an unaligned offset. -/
theorem witness_UnadmittedAccessSticks :
    let s := { State.reset with params := { Params.ofReset with baseSteps := 1 } }
    s.pending = none ∧ (2 ≠ 4) ∧ 0x7FFC < s.params.engineBase ∧ s.params.engineBase + 0x8000 ≤ 0x10000 ∧
      (0x8002 - s.params.engineBase) % 4 ≠ 0 ∧
      { s with inputs := [.host (.read 0x8002 4)] }.inputs = .host (.read 0x8002 4) :: [] := by decide

theorem witness_ConstantRegistersRead :
    hostReads (reading State.reset 0x0000) 0x0000 [] ∧ hostReads (reading State.reset 0x0004) 0x0004 [] ∧
      hostReads (reading State.reset 0x0008) 0x0008 [] ∧ hostReads (reading State.reset 0x000C) 0x000C [] ∧
      hostWrites (writing State.reset 0x0000 1) 0x0000 1 [] ∧ hostWrites (writing State.reset 0x000C 1) 0x000C 1 [] :=
  ⟨rfl, rfl, rfl, rfl, rfl, rfl⟩

theorem witness_StatusLayout : hostReads (reading State.reset 0x0014) 0x0014 [] := rfl

theorem witness_ControlRegistersRead :
    hostReads (reading State.reset 0x0010) 0x0010 [] ∧ hostReads (reading State.reset 0x0018) 0x0018 [] ∧
      hostReads (reading State.reset 0x001C) 0x001C [] ∧ hostReads (reading State.reset 0x0020) 0x0020 [] ∧
      hostReads (reading State.reset 0x0024) 0x0024 [] ∧ hostReads (reading State.reset 0x0028) 0x0028 [] ∧
      hostReads (reading State.reset 0x002C) 0x002C [] ∧ hostReads (reading State.reset 0x0030) 0x0030 [] ∧
      (hostReads (reading State.reset 0x0034) 0x0034 [] ∧ 0x0034 % 4 = 0) ∧
      (hostReads (reading State.reset 0x3FFC) 0x3FFC [] ∧ 0x3FFC % 4 = 0) :=
  ⟨rfl, rfl, rfl, rfl, rfl, rfl, rfl, rfl, ⟨rfl, rfl⟩, rfl, rfl⟩

theorem witness_ReadsChangeNothing :
    hostReads (reading State.reset 0x7FFC) 0x7FFC [] ∧ 0x7FFC < 0x8000 ∧ 0x7FFC % 4 = 0 :=
  ⟨rfl, by decide, rfl⟩

theorem witness_CtrlWriteSetsIrqEnable :
    hostWrites (writing State.reset 0x0010 1) 0x0010 1 [] ∧ (1 : Word).getLsbD 1 = false := ⟨rfl, rfl⟩

theorem witness_StatusWriteClears : hostWrites (writing State.reset 0x0014 0xA) 0x0014 0xA [] := rfl

theorem witness_RegionRegisterWrites :
    State.reset.pending = none ∧ hostWrites (writing State.reset 0x0020 0xFFFFFFFF) 0x0020 0xFFFFFFFF [] ∧
      hostWrites (writing State.reset 0x0024 1) 0x0024 1 [] ∧ hostWrites (writing State.reset 0x0028 1) 0x0028 1 [] ∧
      hostWrites (writing State.reset 0x002C 1) 0x002C 1 [] := ⟨rfl, rfl, rfl, rfl, rfl⟩

theorem witness_ReadOnlyWritesIgnored :
    (hostWrites (writing State.reset 0x000C 1) 0x000C 1 [] ∧ 0x000C < 0x0010) ∧
      hostWrites (writing State.reset 0x001C 1) 0x001C 1 [] ∧
      (hostWrites (writing State.reset 0x0030 1) 0x0030 1 [] ∧ hostWrites (writing State.reset 0x0FFC 1) 0x0FFC 1 []) ∧
      hostWrites (writing State.reset 0x3000 1) 0x3000 1 [] ∧ hostWrites (writing State.reset 0x3FFC 1) 0x3FFC 1 [] :=
  ⟨⟨rfl, by decide⟩, rfl, ⟨rfl, rfl⟩, rfl, rfl⟩

theorem witness_BusyWritesDropped :
    let s := State.reset.issue 0
    s.pending = some ⟨0, State.reset.snapshot⟩ ∧ hostWrites (writing s 0x0018 1) 0x0018 1 [] ∧
      hostWrites (writing s 0x0020 1) 0x0020 1 [] ∧ hostWrites (writing s 0x002C 1) 0x002C 1 [] ∧
      hostWrites (writing s 0x1000 1) 0x1000 1 [] ∧ hostWrites (writing s 0x2FFC 1) 0x2FFC 1 [] ∧
      hostWrites (writing s 0x4000 1) 0x4000 1 [] ∧ hostWrites (writing s 0x7FFC 1) 0x7FFC 1 [] :=
  ⟨rfl, rfl, rfl, rfl, rfl, rfl, rfl, rfl⟩

/-- Word 127 of x15, past the width, and word 1 of x15, the last inside it. -/
theorem witness_BigRegisterWordWrite :
    State.reset.pending = none ∧ 127 < 128 ∧
      hostWrites (writing State.reset 0x2FFC 1) (0x1000 + 0x200 * (15 : Reg).val + 4 * 127) 1 [] ∧
      State.reset.params.opw / 32 ≤ 2 ∧
      hostWrites (writing State.reset 0x2E04 1) (0x1000 + 0x200 * (15 : Reg).val + 4 * 1) 1 [] ∧
      1 < State.reset.params.opw / 32 := ⟨rfl, by decide, rfl, by decide, rfl, by decide⟩

theorem witness_BigRegisterWordRead :
    State.reset.pending = none ∧
      hostReads (reading State.reset 0x1608) (0x1000 + 0x200 * (3 : Reg).val + 4 * 2) [] ∧
      State.reset.params.opw / 32 ≤ 2 ∧
      hostReads (reading State.reset 0x1604) (0x1000 + 0x200 * (3 : Reg).val + 4 * 1) [] ∧
      1 < State.reset.params.opw / 32 ∧ 1 ∉ (State.reset.reg 3).unspec :=
  ⟨rfl, rfl, by decide, rfl, by decide, by decide⟩

/-- The byte 0x100, the first past DMEM, and the word at 0xFC, the last inside it. -/
theorem witness_DmemWindow :
    let s := { State.reset with dmem := [(0xFF, 7)] }
    s.pending = none ∧ hostWrites (writing s 0x4100 1) (0x4000 + 0x100) 1 [] ∧ s.params.dmemSize ≤ 0x100 ∧
      hostWrites (writing s 0x40FC 1) (0x4000 + 0xFC) 1 [] ∧ 0xFC < s.params.dmemSize ∧
      hostReads (reading s 0x4100) (0x4000 + 0x100) [] ∧ hostReads (reading s 0x40FC) (0x4000 + 0xFC) [] ∧
      Memory.read s.dmem (0xFC + 3) = some 7 :=
  ⟨rfl, rfl, by decide, rfl, by decide, rfl, rfl, by decide⟩

theorem witness_LdxLoadsRegister :
    let s := { blank with inputs := ldx blank.params 15 (2 ^ 64 - 1) }
    s.pending = none ∧ s.wf = true ∧ 2 ^ 64 - 1 < 2 ^ s.params.opw ∧
      s.inputs = ldx s.params 15 (2 ^ 64 - 1) ++ [] := by
  refine ⟨rfl, by decide +kernel, by decide, ?_⟩
  rw [List.append_nil]

theorem witness_PowerOnReset :
    { State.reset with inputs := [.powerOn] }.inputs = .powerOn :: [] ∧ 1 < State.reset.params.opw / 32 :=
  ⟨rfl, by decide⟩

/-- Idle; an illegal word, a register command and a byte command in flight. -/
theorem witness_SoftReset :
    hostWrites (writing State.reset 0x0010 2) 0x0010 2 [] ∧ (2 : Word).getLsbD 1 = true ∧
      State.reset.pending = none ∧
      ((State.reset.issue 1).pending = some ⟨1, State.reset.snapshot⟩ ∧ decode 1 = .error .unusedField) ∧
      ((State.reset.issue 0x0C804000).pending = some ⟨0x0C804000, State.reset.snapshot⟩ ∧
        decode 0x0C804000 = .ok (.modred 2 0 1) ∧ (2 : Reg) ∈ (Instr.modred 2 0 1).dests ∧
        (Instr.modred 2 0 1).usesRegions = false) ∧
      ((one.issue 0x24000007).pending = some ⟨0x24000007, one.snapshot⟩ ∧
        decode 0x24000007 = .ok (.split 7) ∧ (Instr.split 7).usesRegions = true) :=
  ⟨rfl, rfl, rfl, ⟨rfl, by decide⟩, ⟨rfl, by decide, by decide, rfl⟩, rfl, by decide, rfl⟩

theorem witness_StepKeepsInvariant :
    (State.reset.issue 0x0C804000).wf = true ∧ ∃ t, step (State.reset.issue 0x0C804000) = .next t :=
  ⟨by decide +kernel, _, rfl⟩

theorem witness_ParametersConstant : ∃ t, step State.reset = .next t := ⟨_, rfl⟩

/-- A stuck host; a step that records; and a step with every operand specified. -/
theorem witness_OnlyTwoModelOutcomes :
    step { State.reset with inputs := [.host (.read 2 4)] } = .fault (.hostStuck (.read 2 4)) ∧
      (∃ t, step (blank.issue 0x1C400000) = .next t ∧ t.operandFaults = [⟨0x1C400000, .reg 0⟩]) ∧
      (one.issue 0x2C004000).hostAdmitted = true ∧ (one.issue 0x2C004000).pending ≠ none ∧
      ∀ p i, (one.issue 0x2C004000).pending = some p → decode p.cmd = .ok i →
        ∀ o, ¬ (one.issue 0x2C004000).Unspecified i o := by
  refine ⟨rfl, ⟨_, rfl, rfl⟩, rfl, by decide, fun p i hp hd => ?_⟩
  cases hp
  have : decode 0x2C004000 = .ok (.encode 0 1) := by decide
  rw [this] at hd
  cases hd
  exact specified_one

/-- A write of CMD is dropped while busy; the last word of each window is one of R203 too. -/
theorem witness_DroppedWhileBusy :
    DroppedWhileBusy 0x0018 ∧ DroppedWhileBusy 0x002C ∧ DroppedWhileBusy 0x2FFC ∧ DroppedWhileBusy 0x7FFC ∧
      ¬ DroppedWhileBusy 0x0030 ∧ ¬ DroppedWhileBusy 0x3000 := by
  unfold DroppedWhileBusy
  decide

/-- A dropped write sets OVR; a write of STATUS clears it. -/
theorem witness_OverrunOnlyFromDroppedWrites :
    (∃ t, step (writing (State.reset.issue 0) 0x0018 1) = .next t ∧
      (writing (State.reset.issue 0) 0x0018 1).status.ovr = false ∧ t.status.ovr = true) ∧
    ∃ t, step (writing (State.reset.issue 0).dropWrite 0x0014 8) = .next t ∧
      (writing (State.reset.issue 0).dropWrite 0x0014 8).status.ovr = true ∧ t.status.ovr = false :=
  ⟨⟨_, rfl, rfl, rfl⟩, ⟨_, rfl, rfl, rfl⟩⟩

theorem witness_InFlightCommandFixed :
    let s := writing (State.reset.issue 0) 0x0010 2
    s.pending = some ⟨0, State.reset.snapshot⟩ ∧ s.inputs = .host (.write 0x0010 4 2) :: [] ∧
      (Access.write 0x0010 4 2).offset? s.params = some 0x0010 ∧ ∃ t, step s = .next t :=
  ⟨rfl, rfl, by decide, _, rfl⟩

end Sys2Proof.Tests
end

section
/-! No step changes a parameter: every operation of a step keeps the field `params`. -/

namespace Sys2Proof.Machine

/-! ### The host's accesses -/

@[simp] theorem State.hostRead_params (s : State) (off : Nat) : (s.hostRead off).params = s.params := rfl

@[simp] theorem State.softReset_params (s : State) : s.softReset.params = s.params :=
  s.abort_params

/-- A write that may be dropped keeps the parameters if its effect does (R203). -/
theorem State.unlessBusy_params (s t : State) (h : t.params = s.params) :
    (s.unlessBusy t).params = s.params := by
  unfold State.unlessBusy
  split
  · rfl
  · exact h

@[simp] theorem State.writeCtrl_params (s : State) (v : Word) : (s.writeCtrl v).params = s.params := by
  unfold State.writeCtrl
  split
  · exact s.softReset_params
  · rfl

@[simp] theorem State.writeRegWord_params (s : State) (r : Reg) (j : Nat) (v : Word) :
    (s.writeRegWord r j v).params = s.params := by
  unfold State.writeRegWord
  split <;> rfl

@[simp] theorem State.writeDmemWord_params (s : State) (k : Nat) (v : Word) :
    (s.writeDmemWord k v).params = s.params := by
  unfold State.writeDmemWord
  split <;> rfl

/-- No place of the window lets a host write reach a parameter (R34). -/
theorem State.writeTarget_params (s : State) (v : Word) (place : Target) :
    (s.writeTarget v place).params = s.params := by
  cases place with
  | id | version | paramOpw | paramDmem | lastCmd | dstLen | reserved => rfl
  | ctrl => exact s.writeCtrl_params v
  | status => exact s.writeStatus_params v
  | cmd => exact s.unlessBusy_params _ (s.issue_params v)
  | srcAddr | srcLen | dstAddr | dstCap => exact s.unlessBusy_params _ rfl
  | bigReg r j => exact s.unlessBusy_params _ (s.writeRegWord_params r j v)
  | dmem k => exact s.unlessBusy_params _ (s.writeDmemWord_params k v)

@[simp] theorem State.hostAccess_params (s : State) (off : Nat) (a : Access) :
    (s.hostAccess off a).params = s.params := by
  cases a with
  | read => exact s.hostRead_params off
  | write addr width v => exact s.writeTarget_params v (locate off)

/-! ### The engine -/

/-- A command completes with the parameters it was issued under. -/
theorem Completion.params_eq {i : Instr} {s t : State} (c : Completion i s t) : t.params = s.params := by
  cases c with
  | fails => rfl
  | writes os ho ws => exact State.writeRegs_params (s.record os) ws
  | outputs => rfl

theorem engineStep_params {s t : State} (h : engineStep s = .next t) : t.params = s.params := by
  obtain ⟨-, rfl⟩ | ⟨p, -, ⟨e, -, rfl⟩ | ⟨i, -, c⟩⟩ := engineStep_cases h
  · rfl
  · rfl
  · exact c.params_eq

/-- Settles O56, over the three kinds of step: the engine's, the platform's reset, the host's access. -/
theorem parametersConstant : Obligations.ParametersConstant := by
  intro s t h
  obtain ⟨rest, he⟩ | ⟨rest, -, rfl⟩ | ⟨a, rest, off, -, -, rfl⟩ := step_cases h
  · exact (engineStep_params he).trans (s.withInputs_params rest)
  · rfl
  · exact (s.withInputs rest).hostAccess_params off a

end Sys2Proof.Machine
end

section
/-! The host-side key text (00_scope.md section 7): a field of enough digits has the value it was written
from, and holds no newline, so the split finds the two fields again. -/

namespace Sys2Proof.Machine

/-! ### Digits -/

/-- A field read with one more digit at its end. -/
theorem hexValue_append_hexDigit (field : List Byte) (d : Nat) (hd : d < 16) :
    hexValue (field ++ [hexDigit d]) = 16 * hexValue field + d := by
  have digit : ∀ e : Fin 16, (if (hexDigit e).toNat < 0x41 then (hexDigit e).toNat - 0x30
      else (hexDigit e).toNat - 0x41 + 10) = e.val := by decide
  rw [hexValue, List.foldl_append, List.foldl_cons, List.foldl_nil, digit ⟨d, hd⟩]
  rfl

theorem hexDigit_ne_newline (d : Nat) (hd : d < 16) : hexDigit d ≠ 0x0A#8 := by
  have digit : ∀ e : Fin 16, hexDigit e ≠ 0x0A#8 := by decide
  exact digit ⟨d, hd⟩

/-! ### Fields -/

/-- The last `n` hexadecimal digits of `v`, the highest first. -/
def hexDigits (n v : Nat) : List Byte := (List.range n).map fun i => hexDigit (v / 16 ^ (n - 1 - i) % 16)

/-- A field of the key text is the digits of its number. -/
theorem hexField_eq_hexDigits (pad v : Nat) : hexField pad v = hexDigits (max pad (hexLen v)) v := rfl

/-- The last digit written is the remainder by 16, and those before it write the quotient. -/
theorem hexDigits_succ (n v : Nat) : hexDigits (n + 1) v = hexDigits n (v / 16) ++ [hexDigit (v % 16)] := by
  have shift : ∀ i ∈ List.range n,
      hexDigit (v / 16 ^ (n + 1 - 1 - i) % 16) = hexDigit (v / 16 / 16 ^ (n - 1 - i) % 16) := by
    intro i hi
    have hi := List.mem_range.mp hi
    rw [Nat.div_div_eq_div_mul, ← Nat.pow_add_one', show n - 1 - i + 1 = n + 1 - 1 - i by omega]
  rw [hexDigits, List.range_succ, List.map_append, List.map_congr_left shift]
  simp [hexDigits]

/-- Reading `n` digits of `v` gives `v` back, up to the digits above them. -/
theorem hexValue_hexDigits (n v : Nat) : hexValue (hexDigits n v) = v % 16 ^ n := by
  induction n generalizing v with
  | zero => rw [Nat.pow_zero, Nat.mod_one]; rfl
  | succ n ih =>
    rw [hexDigits_succ, hexValue_append_hexDigit _ _ (Nat.mod_lt _ (by decide)), ih, Nat.pow_succ',
      Nat.mod_mul, Nat.add_comm]

/-- `hexLen(v)` digits are enough to write `v`. -/
theorem lt_pow_hexLen (v : Nat) : v < 16 ^ hexLen v := by
  have enough : bitlen v ≤ 4 * hexLen v := by unfold hexLen; omega
  calc v < 2 ^ bitlen v := lt_two_pow_bitlen v
    _ ≤ 2 ^ (4 * hexLen v) := Nat.pow_le_pow_right (by decide) enough
    _ = 16 ^ hexLen v := Nat.pow_mul ..

@[simp] theorem hexValue_hexField (pad v : Nat) : hexValue (hexField pad v) = v := by
  rw [hexField_eq_hexDigits, hexValue_hexDigits]
  exact Nat.mod_eq_of_lt
    ((lt_pow_hexLen v).trans_le (Nat.pow_le_pow_right (by decide) (Nat.le_max_right ..)))

theorem newline_notMem_hexField (pad v : Nat) : 0x0A#8 ∉ hexField pad v := by
  intro h
  obtain ⟨i, -, hi⟩ := List.mem_map.mp h
  exact hexDigit_ne_newline _ (Nat.mod_lt _ (by decide)) hi

/-! ### Lines -/

/-- A text without a newline is one line. -/
theorem splitLines_of_notMem (line : List Byte) (h : 0x0A#8 ∉ line) : splitLines line = [line] := by
  induction line with
  | nil => rfl
  | cons b bs ih =>
    obtain ⟨hb, hbs⟩ := not_or.mp (mt List.mem_cons.mpr h)
    rw [splitLines, if_neg (Ne.symm hb), ih hbs]

/-- What stands before the first newline is the first line. -/
theorem splitLines_append_newline (line text : List Byte) (h : 0x0A#8 ∉ line) :
    splitLines (line ++ 0x0A#8 :: text) = line :: splitLines text := by
  induction line with
  | nil => rw [List.nil_append, splitLines, if_pos rfl]
  | cons b bs ih =>
    obtain ⟨hb, hbs⟩ := not_or.mp (mt List.mem_cons.mpr h)
    rw [List.cons_append, splitLines, if_neg (Ne.symm hb), ih hbs]

/-! ### The key -/

/-- The lines of a key's text are its two fields (R19). -/
theorem splitLines_serializeKey (modulus exponent : Nat) :
    splitLines (serializeKey modulus exponent) =
      [hexField (2 * unitSize modulus) modulus, hexField (2 * unitSize modulus) exponent] := by
  rw [serializeKey, splitLines_append_newline _ _ (newline_notMem_hexField _ _),
    splitLines_of_notMem _ (newline_notMem_hexField _ _)]

/-- Settles O60: the text splits into its two fields, and each field reads as the number it was written
from. -/
theorem keyTextRoundTrip : Obligations.KeyTextRoundTrip := by
  intro modulus exponent
  simp only [parseKey, splitLines_serializeKey, hexValue_hexField, if_true]

end Sys2Proof.Machine
end

section
/-! The invariant holds right after reset and every step keeps it: the engine's completion, the platform's
reset, and the host's access each keep the four parts of it. -/

namespace Sys2Proof.Machine

/-- Right after reset only the big registers have a part of the invariant to meet, so any canonical content
of theirs meets it all (log 1). -/
theorem State.wf_reset_of_regsWf (x : Vector BigReg 16) (h : { State.reset with x := x }.regsWf = true) :
    { State.reset with x := x }.wf = true := (State.wf_iff _).mpr ⟨h, rfl, rfl, rfl⟩

@[simp] theorem State.reg_reset (r : Reg) : State.reset.reg r = BigReg.ofNat 0 :=
  Vector.getElem_replicate r.isLt

/-- A big register that holds 0 is canonical. -/
theorem State.regsWf_reset : State.reset.regsWf = true := by
  rw [State.regsWf_iff]
  intro r
  rw [State.reg_reset]
  decide

/-- Settles O54: the big registers hold 0 (log 1). -/
theorem resetMeetsInvariant : Obligations.ResetMeetsInvariant :=
  State.wf_reset_of_regsWf State.reset.x State.regsWf_reset

/-- The end of a completion keeps the invariant, whatever it has done to STATUS and the command in flight,
if registers and DMEM meet it (R95). -/
theorem State.wf_finish (s : State) (code : ErrCode) (hr : s.regsWf = true) (hd : s.dmemWf = true) :
    (s.finish code).wf = true :=
  (State.wf_iff _).mpr ⟨hr, hd, s.statusWf_finish code, s.pendingWf_finish code⟩

/-- A completion keeps the invariant: its operands, the snapshot of the state as it stands, bound what it
writes (R96, R112). -/
theorem Completion.wf {i : Instr} {s t : State} (c : Completion i s t) (h : s.wf = true) : t.wf = true := by
  obtain ⟨hr, hd, -, hp⟩ := (State.wf_iff s).mp h
  have regs : t.regsWf = true := c.regsWf hr hp
  have dmem : t.dmemWf = true := c.dmemWf hd
  obtain ⟨code, u, -, rfl, -⟩ := c.ending
  exact u.wf_finish code regs dmem

theorem engineStep_wf {s t : State} (h : s.wf = true) (hs : engineStep s = .next t) : t.wf = true := by
  obtain ⟨-, rfl⟩ | ⟨p, -, ⟨e, -, rfl⟩ | ⟨i, -, c⟩⟩ := engineStep_cases hs
  · exact h
  · obtain ⟨hr, hd, -⟩ := (State.wf_iff s).mp h
    exact s.wf_finish .illegal hr hd
  · exact c.wf h

/-- An admitted access is at an aligned offset of the window (R55). -/
theorem Access.offset?_window {p : Params} {a : Access} {off : Nat} (h : a.offset? p = some off) :
    off < 0x8000 ∧ off % 4 = 0 := by
  cases a with
  | read addr width | write addr width v =>
    obtain ⟨-, -, window⟩ := (admits?_eq_some p addr width off).mp h
    exact window

theorem State.wf_hostAccess (s : State) (off : Nat) (a : Access) (h4 : off % 4 = 0) (h : s.wf = true) :
    (s.hostAccess off a).wf = true := by
  cases a with
  | read => exact s.wf_hostRead off h
  | write addr width v => exact s.wf_hostWrite off v h4 h

/-- Settles O55, over the three kinds of step: the engine's, the platform's reset, the host's access. -/
theorem stepKeepsInvariant : Obligations.StepKeepsInvariant := by
  intro s t h hs
  obtain ⟨rest, he⟩ | ⟨rest, -, rfl⟩ | ⟨a, rest, off, -, ho, rfl⟩ := step_cases hs
  · exact engineStep_wf (s := s.withInputs rest) h he
  · exact State.wf_powerOnReset _
  · exact (s.withInputs rest).wf_hostAccess off a (Access.offset?_window ho).2 h

end Sys2Proof.Machine
end

section
/-! The frames of the commands (10_state.md R52): what a command that uses no region and what a byte command
leaves unchanged, from the three ways a completion ends. -/

namespace Sys2Proof.Machine

/-- A completion keeps OVR (R41, R95). -/
theorem Completion.ovr_eq {i : Instr} {s t : State} (c : Completion i s t) : t.status.ovr = s.status.ovr := by
  obtain ⟨code, u, -, rfl, status, -⟩ := c.ending
  rw [State.finish_status, Status.completed_ovr, status]

/-- A completion with a code other than NONE raises ERR (R95). -/
theorem Status.completed_err_of_ne (st : Status) {code : ErrCode} (h : code ≠ .none) :
    (st.completed code).err = true :=
  decide_eq_true (mt code.code_eq_zero.mp h)

/-- A command that uses no region changes only its destination registers and what every completion does. -/
theorem Completion.frame_of_registers {i : Instr} {s t : State} (c : Completion i s t)
    (hi : i.usesRegions = false) :
    t = { s with
      x := t.x, status := t.status, pending := none, draws := t.draws, operandFaults := t.operandFaults } ∧
    ∀ r, r ∉ i.dests → t.reg r = s.reg r := by
  cases c with
  | fails => exact ⟨rfl, fun _ _ => rfl⟩
  | writes os ho ws _ hw =>
    refine ⟨by rw [State.writeRegs_frame]; rfl, fun r hr => ?_⟩
    exact (s.record os).reg_writeRegs_other ws r (hw ▸ hr)
  | outputs os ho out hu => cases hi.symm.trans hu

/-- Settles O34, by the ways a command that uses no region completes. -/
theorem registerCommandsFrame : Obligations.RegisterCommandsFrame := by
  intro i s t hi h
  have c := exec_cases i h
  obtain ⟨frame, regs⟩ := c.frame_of_registers hi
  exact ⟨frame, c.ovr_eq, regs⟩

/-- DST_LEN is the length of the output, which fits a word because DST_CAP does (R45, R65). -/
theorem State.dstLen_output_toNat (s : State) (out : List Byte) (h : out.length ≤ s.source.dstCap.toNat) :
    (s.output out).dstLen.toNat = out.length := by
  rw [State.output_dstLen, BitVec.toNat_ofNat, Nat.mod_eq_of_lt (h.trans_lt s.source.dstCap.isLt)]

/-- Bytes outside the output read as before (R65). -/
theorem State.read_output_outside (s : State) (out : List Byte) (a : Nat)
    (h : a < s.source.dstAddr.toNat ∨ s.source.dstAddr.toNat + out.length ≤ a) :
    Memory.read (s.output out).dmem a = Memory.read s.dmem a :=
  Memory.read_writeBytes_outside out s.dmem s.source.dstAddr.toNat a h

/-- A byte command changes only DMEM, DST_LEN and what every completion does. -/
theorem Completion.frame_of_regions {i : Instr} {s t : State} (c : Completion i s t)
    (hi : i.usesRegions = true) :
    t = { s with
      dmem := t.dmem, dstLen := t.dstLen, status := t.status, pending := none
      draws := t.draws, operandFaults := t.operandFaults } := by
  cases c with
  | fails | outputs => rfl
  | writes os ho ws hu => cases hi.symm.trans hu

/-- A byte command that fails writes no byte and leaves DST_LEN (R176). -/
theorem Completion.dmem_of_failed {i : Instr} {s t : State} (c : Completion i s t)
    (hi : i.usesRegions = true) (he : t.status.err = true) : t.dmem = s.dmem ∧ t.dstLen = s.dstLen := by
  cases c with
  | fails => exact ⟨rfl, rfl⟩
  | writes os ho ws hu => cases hi.symm.trans hu
  | outputs => cases he

/-- A byte command that succeeds writes DST_LEN bytes from DST_ADDR on, inside the destination region and
DMEM (R62, R65). -/
theorem Completion.dmem_of_succeeded {i : Instr} {s t : State} (c : Completion i s t)
    (hi : i.usesRegions = true) (he : t.status.err = false) :
    t.dstLen.toNat ≤ s.source.dstCap.toNat ∧
    s.source.dstAddr.toNat + t.dstLen.toNat ≤ s.params.dmemSize ∧
    ∀ a, a < s.source.dstAddr.toNat ∨ s.source.dstAddr.toNat + t.dstLen.toNat ≤ a →
      Memory.read t.dmem a = Memory.read s.dmem a := by
  cases c with
  | fails os ho code hc =>
    rw [State.finish_status, Status.completed_err_of_ne _ hc] at he
    cases he
  | writes os ho ws hu => cases hi.symm.trans hu
  | outputs os ho out _ hr hl =>
    obtain ⟨-, dst, -⟩ := (regionError?_eq_none s).mp hr
    rw [State.finish_dstLen, State.dstLen_output_toNat (s.record os) out hl]
    exact ⟨hl, by omega, (s.record os).read_output_outside out⟩

/-- Settles O35, by the ways a byte command completes: a failure, or an output to its destination region. -/
theorem byteCommandsFrame : Obligations.ByteCommandsFrame := by
  intro i s t hi h
  have c := exec_cases i h
  exact ⟨c.frame_of_regions hi, c.ovr_eq, c.dmem_of_failed hi, c.dmem_of_succeeded hi⟩

end Sys2Proof.Machine
end

section
/-! The register window of 10_state.md section 4 as the host reads and writes it: the control and status
registers, and when OVR rises and falls. -/

namespace Sys2Proof

/-! ### The range of the parameters (R9, R10) -/

theorem Params.opw_bounds (p : Params) : 64 ≤ p.opw ∧ p.opw ≤ 4096 := by
  have := p.opwSteps.isLt
  unfold Params.opw
  omega

theorem Params.dmemSize_bounds (p : Params) : 16 ≤ p.dmemSize ∧ p.dmemSize ≤ 16384 := by
  have := p.dmemSteps.isLt
  unfold Params.dmemSize
  omega

end Sys2Proof

namespace Sys2Proof.Machine

/-! ### Reads -/

/-- What a host read returns does not depend on the inputs to come. -/
@[simp] theorem State.readTarget_withInputs (s : State) (rest : List Input) (place : Target) :
    (s.withInputs rest).readTarget place = s.readTarget place := by
  cases place <;> rfl

/-- The host's read of an aligned offset of the window answers what the place there holds. -/
theorem step_hostReads {s : State} {off : Nat} {rest : List Input} (h : hostReads s off rest)
    (hw : off < 0x8000) (h4 : off % 4 = 0) :
    ∃ t, step s = .next t ∧ t.readData = some (s.readTarget (locate off)) :=
  ⟨_, step_hostRead h hw h4, congrArg some (s.readTarget_withInputs rest (locate off))⟩

/-- The host's write of an aligned offset of the window does what the place there says. -/
theorem step_hostWrites {s : State} {off : Nat} {v : Word} {rest : List Input} (h : hostWrites s off v rest)
    (hw : off < 0x8000) (h4 : off % 4 = 0) :
    step s = .next ((s.withInputs rest).writeTarget v (locate off)) := step_hostWrite h hw h4

/-! ### The constant registers (R32 to R34) -/

theorem State.readTarget_paramOpw_toNat (s : State) : (s.readTarget .paramOpw).toNat = s.params.opw := by
  have := s.params.opw_bounds
  rw [State.readTarget, BitVec.toNat_ofNat]
  omega

theorem State.readTarget_paramDmem_toNat (s : State) :
    (s.readTarget .paramDmem).toNat = s.params.dmemSize := by
  have := s.params.dmemSize_bounds
  rw [State.readTarget, BitVec.toNat_ofNat]
  omega

/-- The four constant registers stand at the first four offsets, and a write there is ignored (R32 to R34). -/
theorem State.writeTarget_constant (s : State) (v : Word) {off : Nat}
    (h : off = 0x0000 ∨ off = 0x0004 ∨ off = 0x0008 ∨ off = 0x000C) : s.writeTarget v (locate off) = s := by
  rcases h with rfl | rfl | rfl | rfl <;> rfl

/-- Settles O38: each offset is located, and OPW and DMEM_SIZE fit a word. -/
theorem constantRegistersRead : Obligations.ConstantRegistersRead := by
  refine fun s rest => ⟨fun off v ho h => ?_, fun h => ?_, fun h => ?_, fun h => ?_, fun h => ?_⟩
  · rw [step_hostWrites h (by omega) (by omega), State.writeTarget_constant _ v ho]
    rfl
  · exact step_hostReads h (by decide) rfl
  · exact step_hostReads h (by decide) rfl
  · obtain ⟨t, hs, hv⟩ := step_hostReads h (by decide) rfl
    have value : (s.readTarget .paramOpw).toNat = s.params.opw := s.readTarget_paramOpw_toNat
    exact ⟨t, _, hs, hv, value, value ▸ s.params.opw_bounds⟩
  · obtain ⟨t, hs, hv⟩ := step_hostReads h (by decide) rfl
    have value : (s.readTarget .paramDmem).toNat = s.params.dmemSize := s.readTarget_paramDmem_toNat
    exact ⟨t, _, hs, hv, value, value ▸ s.params.dmemSize_bounds⟩

/-! ### STATUS and CTRL bit by bit (R35, R37) -/

/-- STATUS is BUSY, DONE, ERR and OVR from bit 0 up, then ERRCODE in bits 11:8 among zeros. -/
theorem State.getLsbD_statusWord (s : State) (i : Nat) :
    s.statusWord.getLsbD i =
      if i = 0 then s.busy else if i = 1 then s.status.done else if i = 2 then s.status.err
      else if i = 3 then s.status.ovr else decide (8 ≤ i) && s.status.errcode.getLsbD (i - 8) := by
  change BitVec.getLsbD (w := 20 + 4 + 4 + 1 + 1 + 1 + 1) s.statusWord i = _
  simp only [State.statusWord, BitVec.getLsbD_append, BitVec.getLsbD_ofBool, BitVec.getLsbD_zero]
  match i with
  | 0 | 1 | 2 | 3 => simp
  | i + 4 => grind

/-- STATUS above its four flags. -/
theorem State.getLsbD_statusWord_of_ge (s : State) (i : Nat) (h : 4 ≤ i) :
    s.statusWord.getLsbD i = (decide (8 ≤ i) && s.status.errcode.getLsbD (i - 8)) := by
  rw [s.getLsbD_statusWord, if_neg (by omega), if_neg (by omega), if_neg (by omega), if_neg (by omega)]

/-- CTRL is IRQ_EN in bit 0 and zeros above it. -/
theorem State.getLsbD_ctrlWord (s : State) (i : Nat) : s.ctrlWord.getLsbD i = (decide (i = 0) && s.irqEn) := by
  change BitVec.getLsbD (w := 31 + 1) s.ctrlWord i = _
  rw [State.ctrlWord, BitVec.getLsbD_append]
  cases i <;> simp

/-- Settles O39, from STATUS bit by bit. -/
theorem statusLayout : Obligations.StatusLayout := by
  intro s rest h
  obtain ⟨t, hs, hv⟩ := step_hostReads h (by decide) rfl
  have bit := s.getLsbD_statusWord
  refine ⟨t, s.statusWord, hs, hv, bit 0, bit 1, bit 2, bit 3, fun i _ _ => ?_, fun i _ => ?_, fun i _ => ?_⟩
  · rw [s.getLsbD_statusWord_of_ge i (by omega), decide_eq_false (by omega), Bool.false_and]
  · rw [s.getLsbD_statusWord_of_ge (8 + i) (by omega), decide_eq_true (by omega), Bool.true_and,
      Nat.add_sub_cancel_left]
  · rw [s.getLsbD_statusWord_of_ge i (by omega), BitVec.getLsbD_of_ge _ _ (by omega), Bool.and_false]

/-- Settles O40: each offset is located, and what its place reads as is a field or 0. -/
theorem controlRegistersRead : Obligations.ControlRegistersRead := by
  refine fun s off rest h => ⟨?_, ?_, ?_, ?_, ?_, ?_, ?_, ?_, fun h4 ho => ?_⟩
  case refine_1 =>
    rintro rfl
    obtain ⟨t, hs, hv⟩ := step_hostReads h (by decide) rfl
    refine ⟨t, s.ctrlWord, hs, hv, s.getLsbD_ctrlWord 0, fun i hi => ?_⟩
    rw [s.getLsbD_ctrlWord, decide_eq_false (by omega), Bool.false_and]
  case refine_9 =>
    have read := step_hostReads h (by omega) h4
    rwa [locate_reserved off ho] at read
  all_goals
    rintro rfl
    exact step_hostReads h (by decide) rfl

/-! ### Writes of CTRL, STATUS and the region registers -/

/-- Settles O42: without bit 1 a write of CTRL is no soft reset. -/
theorem ctrlWriteSetsIrqEnable : Obligations.CtrlWriteSetsIrqEnable := by
  intro s v rest h hv
  rw [step_hostWrites h (by decide) rfl]
  change Host.Outcome.next ((s.withInputs rest).writeCtrl v) = _
  rw [State.writeCtrl, hv]
  rfl

/-- W1C bit by bit (R37). -/
theorem Status.acknowledged_eq (st : Status) (v : Word) :
    st.acknowledged v =
      { done := if v.getLsbD 1 then false else st.done
        err := st.err
        ovr := if v.getLsbD 3 then false else st.ovr
        errcode := st.errcode } := by
  unfold Status.acknowledged
  cases v.getLsbD 1 <;> cases v.getLsbD 3 <;> simp

/-- Settles O43: the write acknowledges STATUS and does no more. -/
theorem statusWriteClears : Obligations.StatusWriteClears := by
  intro s v rest h
  rw [step_hostWrites h (by decide) rfl, ← Status.acknowledged_eq]
  rfl

/-- A write that acts only while idle acts while no command is pending. -/
theorem State.unlessBusy_of_idle (s t : State) (h : s.pending = none) : s.unlessBusy t = t := by
  simp [State.unlessBusy, State.busy, h]

/-- Settles O44: with no command pending none of the four writes is dropped. -/
theorem regionRegisterWrites : Obligations.RegionRegisterWrites := by
  intro s v rest hp
  have idle (t : State) : (s.withInputs rest).unlessBusy t = t := State.unlessBusy_of_idle _ t hp
  refine ⟨fun h => ?_, fun h => ?_, fun h => ?_, fun h => ?_⟩ <;>
    exact (step_hostWrites h (by decide) rfl).trans (congrArg Host.Outcome.next (idle _))

/-! ### OVR (R41, R203) -/

theorem engineStep_ovr {s t : State} (h : engineStep s = .next t) : t.status.ovr = s.status.ovr := by
  obtain ⟨-, rfl⟩ | ⟨p, -, ⟨e, -, rfl⟩ | ⟨i, -, c⟩⟩ := engineStep_cases h
  · rfl
  · rfl
  · exact c.ovr_eq

/-- The step from `s` to `t` drops a host write because a command is pending, and only OVR tells (R203). -/
def DropsWrite (s t : State) : Prop :=
  ∃ p off v rest, s.pending = some p ∧ hostWrites s off v rest ∧ off % 4 = 0 ∧ DroppedWhileBusy off ∧
    t = { s with inputs := rest, status := { s.status with ovr := true } }

theorem DropsWrite.ovr_eq_true {s t : State} (d : DropsWrite s t) : t.status.ovr = true := by
  obtain ⟨p, off, v, rest, -, -, -, -, rfl⟩ := d
  rfl

/-- What comes next clears OVR: the platform's reset, STATUS bit 3, or a soft reset (R37, R196, R198). -/
def ClearsOvr (s : State) : Prop :=
  ∃ rest, s.inputs = .powerOn :: rest ∨
    (∃ v, hostWrites s 0x0014 v rest ∧ v.getLsbD 3 = true) ∨
    (∃ v, hostWrites s 0x0010 v rest ∧ v.getLsbD 1 = true)

/-- A host write keeps OVR, is dropped, or clears OVR. -/
theorem hostWrite_keeps_drops_or_clears_ovr {s : State} {off : Nat} {v : Word} {rest : List Input}
    (h : hostWrites s off v rest) (hw : off < 0x8000) (h4 : off % 4 = 0) :
    ((s.withInputs rest).hostWrite off v).status.ovr = s.status.ovr ∨
    DropsWrite s ((s.withInputs rest).hostWrite off v) ∨
    (ClearsOvr s ∧ ((s.withInputs rest).hostWrite off v).status.ovr = false) := by
  obtain same | ⟨busy, dropped, e⟩ | ⟨rfl, hv, low⟩ | ⟨rfl, hv, low⟩ :=
    (s.withInputs rest).hostWrite_ovr off v hw h4
  · exact .inl same
  · obtain ⟨p, hp⟩ := Option.isSome_iff_exists.mp busy
    exact .inr (.inl ⟨p, off, v, rest, hp, h, h4, dropped, e⟩)
  · exact .inr (.inr ⟨⟨rest, .inr (.inl ⟨v, h, hv⟩)⟩, low⟩)
  · exact .inr (.inr ⟨⟨rest, .inr (.inr ⟨v, h, hv⟩)⟩, low⟩)

/-- What a step does to OVR (R41). -/
theorem step_keeps_drops_or_clears_ovr {s t : State} (h : step s = .next t) :
    t.status.ovr = s.status.ovr ∨ DropsWrite s t ∨ (ClearsOvr s ∧ t.status.ovr = false) := by
  obtain ⟨rest, he⟩ | ⟨rest, hi, rfl⟩ | ⟨a, rest, off, hi, ho, rfl⟩ := step_cases h
  · exact .inl (engineStep_ovr (s := s.withInputs rest) he)
  · exact .inr (.inr ⟨⟨rest, .inl hi⟩, rfl⟩)
  · cases a with
    | read => exact .inl rfl
    | write addr width v =>
      obtain ⟨rfl, rfl, hw, h4⟩ := (admits?_eq_some s.params addr width off).mp ho
      exact hostWrite_keeps_drops_or_clears_ovr hi hw h4

/-- Settles O58: a step that keeps OVR does neither, one that drops a write only raises it, one that clears
it only lowers it. -/
theorem overrunOnlyFromDroppedWrites : Obligations.OverrunOnlyFromDroppedWrites := by
  intro s t h
  obtain same | drops | ⟨clears, low⟩ := step_keeps_drops_or_clears_ovr h
  · rw [same]
    exact ⟨fun low high => absurd (low.symm.trans high) (by decide),
      fun high low => absurd (low.symm.trans high) (by decide)⟩
  · exact ⟨fun _ _ => drops, fun _ low => absurd (low.symm.trans drops.ovr_eq_true) (by decide)⟩
  · exact ⟨fun _ high => absurd (low.symm.trans high) (by decide), fun _ _ => clears⟩

end Sys2Proof.Machine
end

section
/-! The host's accesses by 20_memory.md: which have a step (R55), what a read, and a write of a read-only or
reserved place, leave unchanged (R54, R70), the big-register words and the DMEM window word by word (R57 to
R60), and the command in flight under the host's accesses (R74, R96). -/

namespace Sys2Proof.Machine

/-! ### Accesses without a step (R55) -/

/-- An access that is not admitted stops the step while no command is pending (log 9). -/
theorem step_of_unadmitted {s : State} {a : Access} {rest : List Input} (hp : s.pending = none)
    (hi : s.inputs = .host a :: rest) (ha : a.offset? s.params = none) : step s = .fault (.hostStuck a) := by
  simp [step, takeInput, hi, ha, State.busy, hp]

/-- Settles O37: neither access has an offset. -/
theorem unadmittedAccessSticks : Obligations.UnadmittedAccessSticks := by
  intro s addr width v rest hp h
  have unadmitted : admits? s.params addr width = none := (admits?_eq_none ..).mpr h
  exact ⟨fun hi => step_of_unadmitted hp hi unadmitted, fun hi => step_of_unadmitted hp hi unadmitted⟩

/-! ### Accesses that change nothing (R54, R70) -/

/-- Settles O41: a read advances the counter of draws and hands over its value. -/
theorem readsChangeNothing : Obligations.ReadsChangeNothing :=
  fun _ _ _ h hw h4 => ⟨_, step_hostRead h hw h4, rfl⟩

/-- A write of a read-only or reserved place is ignored (R54, R70). -/
theorem State.writeTarget_readOnly (s : State) (v : Word) {off : Nat} (h4 : off % 4 = 0)
    (h : off < 0x0010 ∨ off = 0x001C ∨ (0x0030 ≤ off ∧ off < 0x1000) ∨ (0x3000 ≤ off ∧ off < 0x4000)) :
    s.writeTarget v (locate off) = s := by
  obtain constant | rfl | rfl | reserved : off < 0x0010 ∨ off = 0x001C ∨ off = 0x0030 ∨
      (0x0034 ≤ off ∧ off < 0x1000) ∨ (0x3000 ≤ off ∧ off < 0x4000) := by omega
  · exact s.writeTarget_constant v (by omega)
  · rfl
  · rfl
  · rw [locate_reserved off reserved]
    rfl

/-- Settles O45: busy or not, the place ignores the write. -/
theorem readOnlyWritesIgnored : Obligations.ReadOnlyWritesIgnored := by
  intro s off v rest h h4 ho
  rw [step_hostWrites h (by omega) h4, State.writeTarget_readOnly _ v h4 ho]
  rfl

/-! ### Big-register words (R57, R58) -/

theorem opw_div_eq_words (p : Params) : p.opw / 32 = p.words := by
  rw [opw_eq_words, Nat.mul_div_cancel_left _ (by decide)]

/-- The host's write of a big-register word while no command is pending. -/
theorem step_hostWrites_bigReg {s : State} {r : Reg} {j : Nat} {v : Word} {rest : List Input}
    (hp : s.pending = none) (hj : j < 128) (h : hostWrites s (0x1000 + 0x200 * r.val + 4 * j) v rest) :
    step s = .next ((s.withInputs rest).writeRegWord r j v) := by
  have := r.isLt
  rw [step_hostWrites h (by omega) (by omega), locate_bigReg r j hj]
  exact congrArg Host.Outcome.next (State.unlessBusy_of_idle _ _ hp)

/-- The host's read of a big-register word. -/
theorem step_hostReads_bigReg {s : State} {r : Reg} {j : Nat} {rest : List Input} (hj : j < 128)
    (h : hostReads s (0x1000 + 0x200 * r.val + 4 * j) rest) :
    ∃ t, step s = .next t ∧ t.readData = some (s.readRegWord r j) := by
  have := r.isLt
  have read := step_hostReads h (by omega) (by omega)
  rwa [locate_bigReg r j hj] at read

theorem State.writeRegWord_of_ge (s : State) (r : Reg) {j : Nat} (v : Word) (h : s.params.words ≤ j) :
    s.writeRegWord r j v = s := if_neg (Nat.not_lt.mpr h)

theorem State.writeRegWord_of_lt (s : State) (r : Reg) {j : Nat} (v : Word) (h : j < s.params.words) :
    s.writeRegWord r j v = s.setReg r ((s.reg r).setWord j v) := if_pos h

theorem State.readRegWord_of_ge (s : State) (r : Reg) {j : Nat} (h : s.params.words ≤ j) :
    s.readRegWord r j = 0 := if_pos h

/-- A specified word inside the register reads as its bits while no command is pending. -/
theorem State.readRegWord_of_specified (s : State) (r : Reg) {j : Nat} (hp : s.pending = none)
    (h : j < s.params.words) (hu : j ∉ (s.reg r).unspec) : s.readRegWord r j = (s.reg r).word j := by
  simp [State.readRegWord, State.busy, hp, h, hu]

/-- Bit `b` of word `j` is bit `32j + b` of the register (R57). -/
theorem BigReg.getLsbD_word (r : BigReg) (j b : Nat) :
    (r.word j).getLsbD b = (decide (b < 32) && r.val.testBit (32 * j + b)) := by
  rw [BigReg.word, BitVec.getLsbD_ofNat, Nat.testBit_div_two_pow, Nat.add_comm b]

/-- Settles O47: past the width the write is ignored, inside it it is one word write of one register. -/
theorem bigRegisterWordWrite : Obligations.BigRegisterWordWrite := by
  intro s r j v rest hp hj h
  rw [opw_div_eq_words, step_hostWrites_bigReg hp hj h]
  refine ⟨fun past => ?_, fun inside => ?_⟩
  · rw [(s.withInputs rest).writeRegWord_of_ge r v past]
    rfl
  · rw [(s.withInputs rest).writeRegWord_of_lt r v inside]
    refine ⟨_, rfl, rfl, fun r' hr => State.reg_setReg_other _ r r' _ hr, fun b => ?_, fun k => ?_⟩
    · rw [State.reg_setReg_same]
      exact BigReg.testBit_setWord (s.reg r) j v b
    · rw [State.reg_setReg_same]
      exact BigReg.mem_unspec_setWord (s.reg r) j k v

/-- Settles O48: past the width a read gives 0, inside it the word of the register. -/
theorem bigRegisterWordRead : Obligations.BigRegisterWordRead := by
  intro s r j rest hp hj h
  obtain ⟨t, hs, hv⟩ := step_hostReads_bigReg hj h
  rw [opw_div_eq_words]
  refine ⟨fun past => ⟨t, hs, ?_⟩, fun inside hu => ⟨t, (s.reg r).word j, hs, ?_, fun b hb => ?_⟩⟩
  · rw [hv, s.readRegWord_of_ge r past]
  · rw [hv, s.readRegWord_of_specified r hp inside hu]
  · rw [BigReg.getLsbD_word, decide_eq_true hb, Bool.true_and]

/-! ### The DMEM window (R56, R59, R60) -/

/-- The host's write of a DMEM word while no command is pending. -/
theorem step_hostWrites_dmem {s : State} {k : Nat} {v : Word} {rest : List Input} (hp : s.pending = none)
    (hk : k < 0x4000) (h4 : k % 4 = 0) (h : hostWrites s (0x4000 + k) v rest) :
    step s = .next ((s.withInputs rest).writeDmemWord k v) := by
  rw [step_hostWrites h (by omega) (by omega), locate_dmem]
  exact congrArg Host.Outcome.next (State.unlessBusy_of_idle _ _ hp)

/-- The host's read of a DMEM word. -/
theorem step_hostReads_dmem {s : State} {k : Nat} {rest : List Input} (hk : k < 0x4000) (h4 : k % 4 = 0)
    (h : hostReads s (0x4000 + k) rest) :
    ∃ t, step s = .next t ∧ t.readData = some (s.readDmemWord k) := by
  have read := step_hostReads h (by omega) (by omega)
  rwa [locate_dmem] at read

theorem State.writeDmemWord_of_ge (s : State) {k : Nat} (v : Word) (h : s.params.dmemSize ≤ k) :
    s.writeDmemWord k v = s := if_neg (Nat.not_lt.mpr h)

theorem State.writeDmemWord_of_lt (s : State) {k : Nat} (v : Word) (h : k < s.params.dmemSize) :
    s.writeDmemWord k v = s.setDmem (Memory.writeBytes s.dmem k (wordBytes v)) := if_pos h

theorem State.readDmemWord_of_ge (s : State) {k : Nat} (h : s.params.dmemSize ≤ k) :
    s.readDmemWord k = 0 := if_pos h

theorem State.readDmemWord_of_lt (s : State) {k : Nat} (hp : s.pending = none) (h : k < s.params.dmemSize) :
    s.readDmemWord k = Memory.readWord s.dmem k (Config.freeWord s.draws) := by
  simp [State.readDmemWord, State.busy, hp, h]

/-- Byte `j` of a word is its byte lane `j` (R56). -/
theorem getElem?_wordBytes (v : Word) {j : Nat} (hj : j < 4) :
    (wordBytes v)[j]? = some (v.extractLsb' (8 * j) 8) := by
  interval_cases j <;> rfl

/-- A byte that has a value stands in its lane of the word read (R59). -/
theorem Memory.readWord_lane (m : Memory) (k : Nat) (free : Word) {j : Nat} {b : Byte} (hj : j < 4)
    (h : Memory.read m (k + j) = some b) : (Memory.readWord m k free).extractLsb' (8 * j) 8 = b := by
  rw [Memory.readWord, bytesWord_lane _ _ _ _ j hj]
  interval_cases j <;> simp_all

/-- Settles O49: past DMEM a write is ignored and a read gives 0, inside it the word's four bytes are written
and read. -/
theorem dmemWindow : Obligations.DmemWindow := by
  intro s k v rest hp hk h4
  refine ⟨fun h past => ?_, fun h inside => ?_, fun h past => ?_, fun h inside => ?_⟩
  · rw [step_hostWrites_dmem hp hk h4 h, (s.withInputs rest).writeDmemWord_of_ge v past]
    rfl
  · rw [step_hostWrites_dmem hp hk h4 h, (s.withInputs rest).writeDmemWord_of_lt v inside]
    refine ⟨_, rfl, rfl, fun j hj => ?_, fun a ha => ?_⟩
    · exact (Memory.read_writeBytes_inside (wordBytes v) s.dmem k j hj).trans (getElem?_wordBytes v hj)
    · exact Memory.read_writeBytes_outside (wordBytes v) s.dmem k a ha
  · obtain ⟨t, hs, hv⟩ := step_hostReads_dmem hk h4 h
    exact ⟨t, hs, by rw [hv, s.readDmemWord_of_ge past]⟩
  · obtain ⟨t, hs, hv⟩ := step_hostReads_dmem hk h4 h
    rw [s.readDmemWord_of_lt hp inside] at hv
    exact ⟨t, _, hs, hv, fun j b hj hb => Memory.readWord_lane s.dmem k _ hj hb⟩

/-! ### The command in flight (R74, R96) -/

/-- A write that acts only while idle is dropped while a command is pending. -/
theorem State.unlessBusy_of_pending (s t : State) {p : Pending} (h : s.pending = some p) :
    s.unlessBusy t = s.dropWrite := by
  simp [State.unlessBusy, State.busy, h]

/-- A host write of CTRL keeps the command in flight, unless it is a soft reset, which removes it (R35, R198). -/
theorem State.writeCtrl_pending (s : State) (v : Word) :
    (s.writeCtrl v).pending = if v.getLsbD 1 then none else s.pending := by
  unfold State.writeCtrl
  split <;> rfl

/-- While a command is pending, a host write of any place but CTRL keeps it: most are ignored or dropped
(R203). -/
theorem State.writeTarget_pending (s : State) (v : Word) {p : Pending} (h : s.pending = some p) (place : Target)
    (hc : place ≠ .ctrl) : (s.writeTarget v place).pending = some p := by
  have dropped (t : State) : (s.unlessBusy t).pending = some p := by
    rw [s.unlessBusy_of_pending t h, State.dropWrite_pending, h]
  cases place with
  | ctrl => exact absurd rfl hc
  | id | version | paramOpw | paramDmem | lastCmd | dstLen | reserved | status => exact h
  | cmd | srcAddr | srcLen | dstAddr | dstCap | bigReg | dmem => exact dropped _

/-- Settles O59: a read keeps the command, and of the writes only one of CTRL can remove it. -/
theorem inFlightCommandFixed : Obligations.InFlightCommandFixed := by
  intro s t p a off rest hp hi ho hs
  cases a with
  | read addr width =>
    obtain ⟨rfl, rfl, hw, h4⟩ := (admits?_eq_some s.params addr width off).mp ho
    cases (step_hostRead hi hw h4).symm.trans hs
    exact .inl hp
  | write addr width v =>
    obtain ⟨rfl, rfl, hw, h4⟩ := (admits?_eq_some s.params addr width off).mp ho
    cases (step_hostWrites hi hw h4).symm.trans hs
    by_cases hc : locate off = .ctrl
    · obtain rfl := locate_ctrl off hc
      have pending : ((s.withInputs rest).writeCtrl v).pending = if v.getLsbD 1 then none else some p := by
        rw [State.writeCtrl_pending, State.withInputs_pending, hp]
      cases hv : v.getLsbD 1 with
      | false => exact .inl (pending.trans (by rw [hv]; rfl))
      | true => exact .inr ⟨pending.trans (if_pos hv), v, hi, hv⟩
    · exact .inl ((s.withInputs rest).writeTarget_pending v hp _ hc)

end Sys2Proof.Machine
end

section
/-! The command word (30_encoding.md): encode and decode are inverse, a word decodes exactly when it selects a
row, and a word that no command assembles to is illegal. -/

namespace Sys2Proof

/-! ### From a command to its word and back (R83, R89) -/

/-- The word of a command selects the command's own row of the opcode map. -/
theorem selects_encode (i : Instr) : i.op.row.selects (encode i) = true := by
  cases i with
  | nop => exact Laws.SelectsRow.nop
  | modexp => exact Laws.SelectsRow.modexp ..
  | modmul => exact Laws.SelectsRow.modmul ..
  | modred => exact Laws.SelectsRow.modred ..
  | gcd => exact Laws.SelectsRow.gcd ..
  | xgcd => exact Laws.SelectsRow.xgcd ..
  | modinv => exact Laws.SelectsRow.modinv ..
  | prime => exact Laws.SelectsRow.prime ..
  | keygen => exact Laws.SelectsRow.keygen ..
  | split => exact Laws.SelectsRow.split _
  | join => exact Laws.SelectsRow.join _
  | encode => exact Laws.SelectsRow.encode ..
  | decode => exact Laws.SelectsRow.decode ..

/-- A width that SPLIT and JOIN may have is the one in their `imm4` field (R91). -/
theorem toNat_ofNat_width {width : Nat} (h : width < 16) : (BitVec.ofNat 4 width).toNat = width := by
  rw [BitVec.toNat_ofNat, Nat.mod_eq_of_lt h]

/-- The fields of a command's word are its operands, each where its row reads it (R81, R89). -/
theorem op_instr_encode (i : Instr) (h : i.wellFormed = true) : i.op.instr (encode i) = i := by
  cases i with
  | nop => rfl
  | split w | join w =>
    simp only [Instr.op, Op.instr, encode, commandWord_imm4, toNat_ofNat_width (of_decide_eq_true h)]
  | _ => simp only [Instr.op, Op.instr, encode, commandWord_rd, commandWord_rs1, commandWord_rs2,
      commandWord_r3, commandWord_r4]

/-- Settles O2: the word selects its command's row, whose fields are the command's operands. -/
theorem decodeOfEncode : Obligations.DecodeOfEncode := by
  intro i h
  rw [decode_of_selects i.op (encode i) (selects_encode i), op_instr_encode i h]

/-! ### From a word to its command and back (R82, R89) -/

/-- Every command a word can denote is well formed: the width of SPLIT and JOIN is read from four bits (R79). -/
theorem wellFormed_instr (op : Op) (cmd : Word) : (op.instr cmd).wellFormed = true := by
  cases op with
  | split | join => exact decide_eq_true cmd.imm4.isLt
  | _ => rfl

/-- A word is its fields one after another, if `res` is 0 (R75). -/
theorem commandWord_fields {cmd : Word} (h : cmd.res = 0) :
    commandWord cmd.op cmd.rd cmd.rs1 cmd.rs2 cmd.r3 cmd.r4 cmd.imm4 = cmd := by
  have res : cmd.toNat / 2 ^ 4 % 2 ^ 2 = 0 := (field_toNat cmd 4 2).symm.trans (congrArg BitVec.toNat h)
  apply BitVec.eq_of_toNat_eq
  simp only [commandWord_toNat, Word.op, Word.rd, Word.rs1, Word.rs2, Word.r3, Word.r4, Word.imm4,
    BitVec.val_toFin, field_toNat]
  omega

/-- A word that selects a row has the row's bits in every field the row's mask covers (R81). -/
theorem field_of_selects {r : Row} {cmd : Word} (h : r.selects cmd = true) (lo len : Nat)
    (covered : r.mask.extractLsb' lo len = BitVec.allOnes len) :
    cmd.extractLsb' lo len = r.pattern.extractLsb' lo len := by
  rw [← beq_iff_eq.mp h, BitVec.extractLsb'_and, covered, BitVec.and_allOnes]

/-- A word that selects a row is assembled from the command it denotes: the mask covers the opcode, `res` and
every field the row does not use, in which the row's pattern is 0 (R82, R88). -/
theorem encode_instr_of_selects (op : Op) (cmd : Word) (h : op.row.selects cmd = true) :
    encode (op.instr cmd) = cmd := by
  have opcode : cmd.op = op.row.pattern.op := field_of_selects h 26 6 (by cases op <;> rfl)
  have res : cmd.res = 0 := (field_of_selects h 4 2 (by cases op <;> rfl)).trans (by cases op <;> rfl)
  have rd : _ → cmd.rd = op.row.pattern.rd := fun c => congrArg BitVec.toFin (field_of_selects h 22 4 c)
  have rs1 : _ → cmd.rs1 = op.row.pattern.rs1 := fun c => congrArg BitVec.toFin (field_of_selects h 18 4 c)
  have rs2 : _ → cmd.rs2 = op.row.pattern.rs2 := fun c => congrArg BitVec.toFin (field_of_selects h 14 4 c)
  have r3 : _ → cmd.r3 = op.row.pattern.r3 := fun c => congrArg BitVec.toFin (field_of_selects h 10 4 c)
  have r4 : _ → cmd.r4 = op.row.pattern.r4 := fun c => congrArg BitVec.toFin (field_of_selects h 6 4 c)
  have imm4 : _ → cmd.imm4 = op.row.pattern.imm4 := field_of_selects h 0 4
  refine Eq.trans ?_ (commandWord_fields res)
  rw [opcode]
  cases op with
  | nop => rw [rd rfl, rs1 rfl, rs2 rfl, r3 rfl, r4 rfl, imm4 rfl]; rfl
  | modexp | modmul | xgcd => rw [r4 rfl, imm4 rfl]; rfl
  | modred | gcd | modinv => rw [r3 rfl, r4 rfl, imm4 rfl]; rfl
  | prime => rw [rs2 rfl, r3 rfl, r4 rfl, imm4 rfl]; rfl
  | keygen => rw [imm4 rfl]; rfl
  | split | join =>
    have width : BitVec.ofNat 4 cmd.imm4.toNat = cmd.imm4 := by rw [BitVec.ofNat_toNat, BitVec.setWidth_eq]
    rw [rd rfl, rs1 rfl, rs2 rfl, r3 rfl, r4 rfl]
    exact congrArg (commandWord _ 0 0 0 0 0) width
  | encode | decode => rw [rd rfl, r3 rfl, r4 rfl, imm4 rfl]; rfl

/-- Settles O3: the word selects the row of the command it denotes. -/
theorem encodeOfDecode : Obligations.EncodeOfDecode := by
  intro cmd i h
  obtain ⟨op, selected, rfl⟩ := selects_of_decode cmd i h
  exact ⟨wellFormed_instr op cmd, encode_instr_of_selects op cmd selected⟩

/-! ### Which words decode (R81, R83) -/

/-- Settles O4: the rows of the map are the rows of the mnemonics. -/
theorem decodesWhenRowSelected : Obligations.DecodesWhenRowSelected := by
  intro cmd
  constructor
  · rintro ⟨i, h⟩
    obtain ⟨op, selected, -⟩ := selects_of_decode cmd i h
    exact ⟨op.row, row_mem op, beq_iff_eq.mp selected⟩
  · rintro ⟨r, hr, selected⟩
    rw [eq_row r hr] at selected
    exact ⟨_, decode_of_selects r.op cmd (beq_iff_eq.mpr selected)⟩

/-- A word that decodes to no command is rejected by its name (R83). -/
theorem decode_eq_illegalName {cmd : Word} (h : ∀ i, decode cmd ≠ .ok i) :
    decode cmd = .error (illegalName cmd) := by
  unfold decode at h ⊢
  split at h
  · exact absurd rfl (h _)
  · rfl

/-- No command has a reserved opcode (R84). -/
theorem op_encode_lt (i : Instr) : (encode i).op < 0x0D#6 := by
  cases i <;> rw [encode, commandWord_op] <;> decide

/-- No command has a bit in `res` (R80). -/
theorem res_encode (i : Instr) : (encode i).res = 0 := by
  cases i <;> exact commandWord_res ..

/-- Settles O5: a word that decodes is the word of its command, and no command's word has a reserved opcode
or a reserved bit. -/
theorem reservedWordsIllegal : Obligations.ReservedWordsIllegal := by
  intro cmd
  have assembled (i : Instr) (h : decode cmd = .ok i) : encode i = cmd := (encodeOfDecode cmd i h).2
  refine ⟨fun reserved => ?_, fun reserved => ⟨illegalName cmd, decode_eq_illegalName fun i h => ?_⟩⟩
  · have high : 0x0D#6 ≤ cmd.op := reserved
    rw [decode_eq_illegalName fun i h => ?_, illegalName, if_pos high]
    rw [← assembled i h] at high
    exact BitVec.not_lt.mpr high (op_encode_lt i)
  · rw [← assembled i h] at reserved
    exact reserved (res_encode i)

/-- Settles O1: each of the words is the one its command assembles to. -/
theorem decodeListedWords : Obligations.DecodeListedWords :=
  ⟨decodeOfEncode .nop rfl, decodeOfEncode (.modexp 3 0 1 2) rfl, decodeOfEncode (.modmul 5 3 4 6) rfl,
    decodeOfEncode (.gcd 10 2 3) rfl, decodeOfEncode (.xgcd 2 3 0 1) rfl, decodeOfEncode (.modinv 4 2 3) rfl,
    decodeOfEncode (.prime 5 1) rfl, decodeOfEncode (.keygen 0 3 4 1 2) rfl, decodeOfEncode (.split 5) rfl,
    decodeOfEncode (.join 15) rfl, decodeOfEncode (.encode 0 3) rfl, decodeOfEncode (.decode 0 4) rfl⟩

end Sys2Proof
end

section
/-! LDX (30_encoding.md R92): the host's word writes of one big register, one after another, and what they
make of the register (20_memory.md R57, R58). -/

namespace Sys2Proof.Machine

/-! ### The register -/

/-- A register after the first `n` words of the value `v` have been written to it, lowest first (R57, R92). -/
def BigReg.load (r : BigReg) (v n : Nat) : BigReg :=
  (List.range n).foldl (fun b j => b.setWord j ((BigReg.ofNat v).word j)) r

theorem BigReg.load_succ (r : BigReg) (v n : Nat) :
    r.load v (n + 1) = (r.load v n).setWord n ((BigReg.ofNat v).word n) := by
  rw [BigReg.load, List.range_succ, List.foldl_append]
  rfl

/-- The words written hold the bits of the value, those above them what they held. -/
theorem BigReg.testBit_load (r : BigReg) (v n b : Nat) :
    (r.load v n).val.testBit b = if b < 32 * n then v.testBit b else r.val.testBit b := by
  induction n with
  | zero => rfl
  | succ n ih =>
    rw [BigReg.load_succ, BigReg.testBit_setWord, ih, BigReg.getLsbD_word, BigReg.val_ofNat]
    by_cases below : b < 32 * n
    · rw [if_neg (by omega), if_pos below, if_pos (by omega)]
    · by_cases inside : b < 32 * n + 32
      · rw [if_pos (by omega), if_pos (by omega), decide_eq_true (by omega), Bool.true_and,
          Nat.add_sub_cancel' (by omega)]
      · rw [if_neg (by omega), if_neg below, if_neg (by omega)]

/-- The words written are specified (R58). -/
theorem BigReg.mem_unspec_load (r : BigReg) (v n k : Nat) :
    k ∈ (r.load v n).unspec ↔ k ∈ r.unspec ∧ n ≤ k := by
  induction n with
  | zero => exact (and_iff_left k.zero_le).symm
  | succ n ih =>
    rw [BigReg.load_succ, BigReg.mem_unspec_setWord, ih, and_assoc, Nat.add_one_le_iff, lt_iff_le_and_ne, ne_comm]

/-- Once all its words are written, a register holds the value, every word specified. -/
theorem BigReg.load_all {r : BigReg} {v n : Nat} (hr : r.wf n = true) (hv : v < 2 ^ (32 * n)) :
    r.load v n = BigReg.ofNat v := by
  obtain ⟨hval, -, hunspec⟩ := (BigReg.wf_iff n r).mp hr
  have specified : (r.load v n).unspec = [] := by
    refine List.eq_nil_iff_forall_not_mem.mpr fun k hk => ?_
    obtain ⟨unspecified, past⟩ := (r.mem_unspec_load v n k).mp hk
    exact Nat.not_lt.mpr past (hunspec k unspecified).1
  have value : (r.load v n).val = v := by
    refine Nat.eq_of_testBit_eq fun b => ?_
    rw [BigReg.testBit_load]
    split
    · rfl
    · next past =>
      have le : 2 ^ (32 * n) ≤ 2 ^ b := Nat.pow_le_pow_right (by decide) (Nat.not_lt.mp past)
      rw [Nat.testBit_lt_two_pow (hval.trans_le le), Nat.testBit_lt_two_pow (hv.trans_le le)]
  exact (BigReg.value?_eq_some _ v).mp (by rw [BigReg.value?, if_pos specified, value])

/-! ### The run -/

@[simp] theorem State.setReg_reg (s : State) (r : Reg) : s.setReg r (s.reg r) = s := by
  simp [State.setReg, State.reg, Vector.get_eq_getElem]

@[simp] theorem State.setReg_setReg (s : State) (r : Reg) (a b : BigReg) :
    (s.setReg r a).setReg r b = s.setReg r b := by
  simp [State.setReg]

/-- A big register has at most as many words as the window has places for (R9, R57). -/
theorem words_le (p : Params) : p.words ≤ 128 := by
  have := p.opwSteps.isLt
  unfold Params.words
  omega

/-- The host's write of a word inside a big register while no command is pending. -/
theorem step_hostWrites_regWord {s : State} {r : Reg} {j : Nat} {v : Word} {rest : List Input}
    (hp : s.pending = none) (hj : j < s.params.words) (h : hostWrites s (regOffset r j) v rest) :
    step s = .next ((s.withInputs rest).setReg r ((s.reg r).setWord j v)) := by
  rw [step_hostWrites_bigReg hp (hj.trans_le (words_le s.params)) h]
  exact congrArg Host.Outcome.next (State.writeRegWord_of_lt (s.withInputs rest) r v hj)

/-- The run of a host's writes of words of one big register, `f j` to word `j`, while no command is pending. -/
theorem run_regWrites (r : Reg) (f : Nat → Word) (js : List Nat) (rest : List Input) (s : State)
    (hp : s.pending = none) (hj : ∀ j ∈ js, j < s.params.words) :
    Host.Core.run Sys2Proof.core js.length
        (s.withInputs (js.map (fun j => wr s.params (regOffset r j) (f j)) ++ rest)) =
      .next ((s.withInputs rest).setReg r (js.foldl (fun b j => b.setWord j (f j)) (s.reg r))) := by
  induction js generalizing s with
  | nil => exact congrArg Host.Outcome.next (State.setReg_reg (s.withInputs rest) r).symm
  | cons j js ih =>
    have first := step_hostWrites_regWord (r := r) (v := f j) (s := s.withInputs
      ((j :: js).map (fun j => wr s.params (regOffset r j) (f j)) ++ rest)) hp (hj j List.mem_cons_self) rfl
    have others := ih (s.setReg r ((s.reg r).setWord j (f j))) hp
      fun k hk => hj k (List.mem_cons_of_mem j hk)
    rw [State.reg_setReg_same] at others
    exact (run_next _ _ _ first).trans (others.trans
      (congrArg Host.Outcome.next (State.setReg_setReg (s.withInputs rest) r _ _)))

/-- Settles O50: the run loads every word of the register, and the register was canonical. -/
theorem ldxLoadsRegister : Obligations.LdxLoadsRegister := by
  intro s r v rest hp hw hv hi
  have canonical : (s.reg r).wf s.params.words = true :=
    (State.regsWf_iff s).mp ((State.wf_iff s).mp hw).1 r
  have run := run_regWrites r (BigReg.ofNat v).word (List.range s.params.words) rest s hp
    fun j hj => List.mem_range.mp hj
  rw [opw_eq_words] at hv
  rw [List.length_range, ← BigReg.load, BigReg.load_all canonical hv] at run
  rw [opw_div_eq_words]
  have load : s = s.withInputs (ldx s.params r v ++ rest) := by rw [← hi]; rfl
  exact (congrArg (Host.Core.run Sys2Proof.core s.params.words) load).trans run

end Sys2Proof.Machine
end

section
/-! Issue and completion (40_control.md): the host's write of CMD while idle (R93) and while busy (R94, R203),
the engine's turn on a word that decodes and on one that does not (R95, R100), NOP (R98), and that every
command completes (R193). -/

namespace Sys2Proof.Machine

/-! ### Issue (R93) and the writes dropped while busy (R94, R203) -/

/-- The host's write of CMD while no command is pending. -/
theorem step_issue {s : State} {cmd : Word} {rest : List Input} (hp : s.pending = none)
    (h : hostWrites s 0x0018 cmd rest) : step s = .next ((s.withInputs rest).issue cmd) :=
  (step_hostWrites h (by decide) rfl).trans (congrArg Host.Outcome.next (State.unlessBusy_of_idle _ _ hp))

/-- Settles O7: the write is not dropped, and issue does not look at the word. -/
theorem issueCapturesOperands : Obligations.IssueCapturesOperands :=
  fun _ _ _ hp h => step_issue hp h

/-- While a command is pending, a write of CMD, of a region register, of a big register or of DMEM is dropped,
past a register's width and past DMEM too (log 11). -/
theorem State.writeTarget_dropped (s : State) (v : Word) {p : Pending} {off : Nat} (hp : s.pending = some p)
    (h4 : off % 4 = 0) (h : DroppedWhileBusy off) : s.writeTarget v (locate off) = s.dropWrite := by
  have dropped (t : State) : s.unlessBusy t = s.dropWrite := s.unlessBusy_of_pending t hp
  obtain rfl | region | ⟨lo, hi⟩ | ⟨lo, -⟩ := h
  · exact dropped _
  · obtain rfl | rfl | rfl | rfl : off = 0x0020 ∨ off = 0x0024 ∨ off = 0x0028 ∨ off = 0x002C := by omega
    all_goals exact dropped _
  · obtain ⟨r, j, place⟩ := locate_register_file off lo hi
    rw [place]
    exact dropped _
  · obtain ⟨k, rfl⟩ := Nat.exists_eq_add_of_le lo
    rw [locate_dmem]
    exact dropped _

/-- Settles O46: the offset's place drops the write. -/
theorem busyWritesDropped : Obligations.BusyWritesDropped := by
  intro s p off v rest hp h h4 ho
  have window : off < 0x8000 := by unfold DroppedWhileBusy at ho; omega
  rw [step_hostWrites h window h4, (s.withInputs rest).writeTarget_dropped v hp h4 ho]
  rfl

/-! ### Completion (R95, R100, R193) -/

/-- Settles O6: the inputs leave the engine its step, and the pending word decodes. -/
theorem stepRunsPendingCommand : Obligations.StepRunsPendingCommand := by
  intro s p i rest hp hd h
  rw [step_engine h]
  exact engineStep_of_ok hp hd

/-- A word that selects no row of the map is rejected (R82, R83). -/
theorem decode_error_of_selects_none {cmd : Word} (h : ∀ r ∈ opcodeMap, cmd &&& r.mask ≠ r.pattern) :
    ∃ e, decode cmd = .error e := by
  refine ⟨_, decode_eq_illegalName fun i hi => ?_⟩
  obtain ⟨r, hr, selected⟩ := (decodesWhenRowSelected cmd).mp ⟨i, hi⟩
  exact h r hr selected

/-- Settles O8: issue takes the word as it is, and the engine then finds it illegal. -/
theorem illegalWordCompletes : Obligations.IllegalWordCompletes := by
  intro s cmd rest hp none h
  obtain ⟨e, illegal⟩ := decode_error_of_selects_none none
  refine ⟨_, step_issue hp h, ?_⟩
  rw [step_engine (.inl rfl), engineStep_of_error rfl illegal]
  rfl

/-- NOP is the one command with opcode 0 (R81). -/
theorem eq_nop_of_op_encode {i : Instr} (h : (encode i).op = 0x00#6) : i = .nop := by
  cases i with
  | nop => rfl
  | _ =>
    rw [encode, commandWord_op] at h
    exact absurd h (by decide)

/-- Settles O10: the word of NOP is 0, no other command has its opcode, and it completes at once. -/
theorem nopCompletes : Obligations.NopCompletes := by
  refine ⟨fun cmd => ⟨fun h => ?_, ?_⟩, fun cmd hop hne => ?_, fun s => rfl⟩
  · exact (encodeOfDecode cmd .nop h).2.symm
  · rintro rfl
    exact decodeOfEncode .nop rfl
  · refine ⟨_, decode_eq_illegalName fun i hi => hne ?_⟩
    have word : encode i = cmd := (encodeOfDecode cmd i hi).2
    obtain rfl : i = .nop := eq_nop_of_op_encode (word ▸ hop)
    exact word.symm

/-- Settles O11: a completion ends with `finish`, having recorded only unspecified operands. -/
theorem everyCommandCompletes : Obligations.EveryCommandCompletes := by
  intro i s
  obtain ⟨t, ht, c⟩ := exec_completes s i
  obtain ⟨code, u, os, rfl, -, faults, unspecified⟩ := c.ending
  refine ⟨_, ht, rfl, rfl, decide_eq_true_iff, code.code_le, fun specified => ?_⟩
  obtain rfl : os = [] := List.eq_nil_iff_forall_not_mem.mpr fun o ho => specified o (unspecified o ho)
  rw [State.finish_operandFaults, faults, List.map_nil, List.append_nil]

end Sys2Proof.Machine
end

section
/-! A command depends on its operands alone (40_control.md R96): two states that give it the same operands end
it the same way. With it, that a command computes with some value for an unspecified operand (R97). -/

namespace Sys2Proof.Machine

/-! ### States that give a command the same operands, and ends that are the same -/

/-- Two states of one implementation, at the same draw, give a command the same operands: the same values of
the source registers and bytes, specified or free, and the same regions. -/
structure SameOperands (s s' : State) : Prop where
  params : s'.params = s.params
  draws : s'.draws = s.draws
  operand : ∀ r, s'.operand r = s.operand r
  sourceBytes : s'.sourceBytes = s.sourceBytes
  srcAddr : s'.source.srcAddr = s.source.srcAddr
  srcLen : s'.source.srcLen = s.source.srcLen
  dstAddr : s'.source.dstAddr = s.source.dstAddr
  dstCap : s'.source.dstCap = s.source.dstCap

namespace SameOperands

variable {s s' : State} (h : SameOperands s s')

include h

/-- Records do not touch the operands. -/
theorem record (os os' : List Operand) : SameOperands (s.record os) (s'.record os') :=
  ⟨h.params, h.draws, h.operand, h.sourceBytes, h.srcAddr, h.srcLen, h.dstAddr, h.dstCap⟩

theorem sourceLen : s'.sourceLen = s.sourceLen := congrArg BitVec.toNat h.srcLen

theorem tooLong (len : Nat) : s'.tooLong len = s.tooLong len := by
  rw [State.tooLong, h.dstCap, State.tooLong]

theorem regionError? : s'.regionError? = s.regionError? := by
  have range : s'.source.outOfRange s'.params.dmemSize = s.source.outOfRange s.params.dmemSize := by
    simp only [Snapshot.outOfRange, h.params, h.srcAddr, h.srcLen, h.dstAddr, h.dstCap]
  have overlap : s'.source.overlapping = s.source.overlapping := by
    simp only [Snapshot.overlapping, h.srcAddr, h.srcLen, h.dstAddr, h.dstCap]
  rw [State.regionError?, range, overlap, State.regionError?]

end SameOperands

/-- Command `i` ends the same way from `s` and from `s'`, in `t` and in `t'`: with the same code, the same
writes of its destination registers, or the same output. What it has recorded may differ. -/
inductive SameEnd (i : Instr) (s s' : State) : State → State → Prop where
  /-- Both fail with one code (R176). -/
  | fails (os os' : List Operand) (c : ErrCode) (hc : c ≠ .none) :
      SameEnd i s s' ((s.record os).finish c) ((s'.record os').finish c)
  /-- Both write the same values to the destination registers (R96). -/
  | writes (os os' : List Operand) (ws : List (Reg × Nat)) (hi : i.usesRegions = false)
      (hw : ws.map Prod.fst = i.dests) :
      SameEnd i s s' (((s.record os).writeRegs ws).finish .none) (((s'.record os').writeRegs ws).finish .none)
  /-- Both write the same output to the destination region (R65). -/
  | outputs (os os' : List Operand) (out : List Byte) (hi : i.usesRegions = true) :
      SameEnd i s s' (((s.record os).output out).finish .none) (((s'.record os').output out).finish .none)

/-- What has been recorded before is part of what is recorded. -/
theorem SameEnd.of_record {i : Instr} {s s' t t' : State} {os os' : List Operand}
    (e : SameEnd i (s.record os) (s'.record os') t t') : SameEnd i s s' t t' := by
  cases e with
  | fails as as' c hc =>
    rw [State.record_record, State.record_record]
    exact .fails _ _ c hc
  | writes as as' ws hi hw =>
    rw [State.record_record, State.record_record]
    exact .writes _ _ ws hi hw
  | outputs as as' out hi =>
    rw [State.record_record, State.record_record]
    exact .outputs _ _ out hi

/-- Between `s` and `t` the unspecified ones of the registers `rs` have been recorded (R97). -/
def RecordsRegs (rs : List Reg) (s t : State) : Prop :=
  ∃ os, t.operandFaults = (s.record os).operandFaults ∧ ∀ r ∈ rs, s.missingReg r ⊆ os

theorem SameEnd.recordsRegs_nil {i : Instr} {s s' t t' : State} (e : SameEnd i s s' t t') :
    RecordsRegs [] s t := by
  cases e with
  | fails os | outputs os => exact ⟨os, rfl, by simp⟩
  | writes os os' ws =>
    refine ⟨os, ?_, by simp⟩
    rw [State.finish_operandFaults, State.writeRegs_frame]

/-- What a register that is read first adds to the record. -/
theorem RecordsRegs.cons {rs : List Reg} {r : Reg} {s t : State}
    (h : RecordsRegs rs (s.record (s.missingReg r)) t) : RecordsRegs (r :: rs) s t := by
  obtain ⟨os, faults, regs⟩ := h
  refine ⟨s.missingReg r ++ os, by rw [faults, State.record_record], fun q hq => ?_⟩
  obtain rfl | hq := List.mem_cons.mp hq
  · exact List.subset_append_left _ os
  · exact fun o ho => List.mem_append_right _ (regs q hq ho)

/-- A meaning of command `i` depends on its operands alone: from any two states with the same operands it ends
the same way. And, unless the region checks of a byte command stop it first, it records the unspecified ones of
the registers `rs`. -/
def EndsAlike (i : Instr) (rs : List Reg) (m : State → Result) : Prop :=
  ∀ s s', SameOperands s s' → ∃ t t', m s = .next t ∧ m s' = .next t' ∧ SameEnd i s s' t t' ∧
    ((i.usesRegions = true → s.regionError? = none) → RecordsRegs rs s t)

/-! ### One rule for each way a meaning goes on or ends -/

namespace EndsAlike

variable {i : Instr} {rs : List Reg} {m m' : State → Result}

/-- A meaning that reads no source register. -/
theorem of_sameEnd
    (h : ∀ s s', SameOperands s s' → ∃ t t', m s = .next t ∧ m s' = .next t' ∧ SameEnd i s s' t t') :
    EndsAlike i [] m := by
  intro s s' same
  obtain ⟨t, t', ht, ht', e⟩ := h s s' same
  exact ⟨t, t', ht, ht', e, fun _ => e.recordsRegs_nil⟩

theorem raise {c : ErrCode} (hc : c ≠ .none) : EndsAlike i [] (Machine.raise c) :=
  of_sameEnd fun s s' _ => ⟨_, _, rfl, rfl, by
    have e := SameEnd.fails (i := i) (s := s) (s' := s') [] [] c hc
    rwa [State.record_nil, State.record_nil] at e⟩

theorem writes (ws : State → List (Reg × Nat)) (same : ∀ s s', SameOperands s s' → ws s' = ws s)
    (hi : i.usesRegions = false) (hw : ∀ s, (ws s).map Prod.fst = i.dests) :
    EndsAlike i [] fun s => complete (s.writeRegs (ws s)) :=
  of_sameEnd fun s s' h => ⟨_, _, rfl, congrArg (fun w => complete (s'.writeRegs w)) (same s s' h), by
    have e := SameEnd.writes (s := s) (s' := s') [] [] (ws s) hi (hw s)
    rwa [State.record_nil, State.record_nil] at e⟩

/-- The one write of a command with one destination. -/
theorem write {rd : Reg} (v : Nat) (hi : i.usesRegions = false) (hd : i.dests = [rd]) :
    EndsAlike i [] fun s => complete (s.writeReg rd v) :=
  writes (fun _ => [(rd, v)]) (fun _ _ _ => rfl) hi (fun _ => hd.symm)

theorem commit (out : List Byte) (hi : i.usesRegions = true) : EndsAlike i [] fun s => Machine.commit s out :=
  of_sameEnd fun s s' _ => ⟨_, _, rfl, rfl, by
    have e := SameEnd.outputs (i := i) (s := s) (s' := s') [] [] out hi
    rwa [State.record_nil, State.record_nil] at e⟩

/-- A check of the state which the operands fix. -/
theorem ite (c : State → Prop) [∀ s, Decidable (c s)] (same : ∀ s s', SameOperands s s' → (c s' ↔ c s))
    (hm : EndsAlike i rs m) (hm' : EndsAlike i rs m') : EndsAlike i rs fun s => if c s then m s else m' s := by
  intro s s' h
  by_cases hc : c s
  · simp only [if_pos hc, if_pos ((same s s' h).mpr hc)]
    exact hm s s' h
  · simp only [if_neg hc, if_neg (mt (same s s' h).mp hc)]
    exact hm' s s' h

/-- A check of values the meaning has already read. -/
theorem cond (c : Prop) [Decidable c] (hm : EndsAlike i rs m) (hm' : EndsAlike i rs m') :
    EndsAlike i rs fun s => if c then m s else m' s := ite (fun _ => c) (fun _ _ _ => Iff.rfl) hm hm'

/-- The check of the output length against DST_CAP (R65), the length computed from SRC_LEN. -/
theorem fitting (len : Nat → Nat) (hm : EndsAlike i [] m) :
    EndsAlike i [] fun s => if s.tooLong (len s.sourceLen) then Machine.raise .memRange s else m s :=
  ite (fun s => s.tooLong (len s.sourceLen) = true) (fun s s' h => by rw [h.tooLong, h.sourceLen])
    (raise (by decide)) hm

/-- A check which the operands fix and which names the code it fails with. -/
theorem check (e : State → Option ErrCode) (same : ∀ s s', SameOperands s s' → e s' = e s)
    (hc : ∀ s c, e s = some c → c ≠ .none) (hm : EndsAlike i [] m) :
    EndsAlike i [] fun s => match e s with | some c => Machine.raise c s | none => m s := by
  intro s s' h
  have he' := same s s' h
  cases he : e s with
  | some c =>
    simp only [he', he]
    exact raise (hc s c he) s s' h
  | none =>
    simp only [he', he]
    exact hm s s' h

/-- A byte command, after the checks of its regions (R63, R64). -/
theorem regions (hi : i.usesRegions = true) (hm : EndsAlike i rs m) :
    EndsAlike i rs fun s => match s.regionError? with | some c => Machine.raise c s | none => m s := by
  intro s s' h
  have he' := h.regionError?
  cases he : s.regionError? with
  | some c =>
    have hc : c ≠ .none := by rcases regionError?_ne_none he with rfl | rfl <;> decide
    obtain ⟨t, t', ht, ht', e, -⟩ := raise (i := i) hc s s' h
    simp only [he', he]
    exact ⟨t, t', ht, ht', e, fun passed => absurd (passed hi) (by simp)⟩
  | none =>
    have ends := hm s s' h
    simp only [he', he] at ends ⊢
    exact ends

/-- A source register has one value in both states, and what it records comes before the rest (R97). -/
theorem withReg {r : Reg} {k : Nat → State → Result} (hk : ∀ v, EndsAlike i rs (k v)) :
    EndsAlike i (r :: rs) fun s => Machine.withReg s r k := by
  intro s s' h
  simp only [Machine.withReg, h.operand r]
  obtain ⟨t, t', ht, ht', e, regs⟩ := hk (s.operand r) _ _ (h.record (s.missingReg r) (s'.missingReg r))
  exact ⟨t, t', ht, ht', e.of_record, fun passed => (regs passed).cons⟩

/-- The source bytes are the same in both states, so `f` accepts as many of them. -/
theorem withSource {f : Byte → Option Byte} {c : ErrCode} {k : List Byte → State → Result}
    (hc : ∀ bs, mapBytes? f bs = none → c ≠ .none) (hk : ∀ out, EndsAlike i [] (k out)) :
    EndsAlike i [] fun s => Machine.withSource s f c k := of_sameEnd fun s s' h => by
  have recorded := h.record (s.missingBytes (readCount f s.sourceBytes))
    (s'.missingBytes (readCount f s.sourceBytes))
  simp only [Machine.withSource, h.sourceBytes]
  cases hb : mapBytes? f s.sourceBytes with
  | some out =>
    obtain ⟨t, t', ht, ht', e, -⟩ := hk out _ _ recorded
    exact ⟨t, t', ht, ht', e.of_record⟩
  | none =>
    obtain ⟨t, t', ht, ht', e, -⟩ := raise (i := i) (hc _ hb) _ _ recorded
    exact ⟨t, t', ht, ht', e.of_record⟩

end EndsAlike

/-! ### Every command ends alike on the same operands (R96) -/

section Cases

/-- The writes of KEYGEN for the drawn exponent `e`, in order (R141). -/
def keyWrites (n pub priv : Reg) (p q e : Nat) : List (Reg × Nat) :=
  [(n, p * q), (pub, inv e (keyPhi p q)), (priv, e)]

theorem State.writeKeys_eq_writeRegs (s : State) (n pub priv : Reg) (p q e : Nat) :
    s.writeKeys n pub priv p q e = s.writeRegs (keyWrites n pub priv p q e) := rfl

theorem execModexp_endsAlike (rd b e n : Reg) : EndsAlike (.modexp rd b e n) [b, e, n] (execModexp rd b e n) :=
  .withReg fun _ => .withReg fun _ => .withReg fun _ => .cond _ (.raise (by decide)) (.write _ rfl rfl)

theorem execModmul_endsAlike (rd a b n : Reg) : EndsAlike (.modmul rd a b n) [a, b, n] (execModmul rd a b n) :=
  .withReg fun _ => .withReg fun _ => .withReg fun _ => .cond _ (.raise (by decide)) (.write _ rfl rfl)

theorem execModred_endsAlike (rd a n : Reg) : EndsAlike (.modred rd a n) [a, n] (execModred rd a n) :=
  .withReg fun _ => .withReg fun _ => .cond _ (.raise (by decide)) (.write _ rfl rfl)

theorem execGcd_endsAlike (rd a b : Reg) : EndsAlike (.gcd rd a b) [a, b] (execGcd rd a b) :=
  .withReg fun _ => .withReg fun _ => .write _ rfl rfl

theorem execXgcd_endsAlike (g c a b : Reg) : EndsAlike (.xgcd g c a b) [a, b] (execXgcd g c a b) :=
  .withReg fun a => .withReg fun b => .cond _ (.raise (by decide))
    (.writes (fun _ => [(g, Nat.gcd a b), (c, xgcdCoeff a b)]) (fun _ _ _ => rfl) rfl fun _ => rfl)

theorem execModinv_endsAlike (rd a m : Reg) : EndsAlike (.modinv rd a m) [a, m] (execModinv rd a m) :=
  .withReg fun _ => .withReg fun _ => .cond _ (.raise (by decide)) <|
    .cond _ (.raise (by decide)) (.write _ rfl rfl)

theorem execPrime_endsAlike (rd a : Reg) : EndsAlike (.prime rd a) [a] (execPrime rd a) :=
  .withReg fun _ => .write _ rfl rfl

theorem execKeygen_endsAlike (n pub priv p q : Reg) :
    EndsAlike (.keygen n pub priv p q) [p, q] (execKeygen n pub priv p q) :=
  .withReg fun p => .withReg fun q => .check (fun s => keygenError? s.params.opw p q)
    (fun s s' h => by rw [h.params]) (fun s c => keygenError?_ne_none)
    (.writes (fun s => keyWrites n pub priv p q (pick (drawSet (keyPhi p q)) (Config.drawIndex s.draws)))
      (fun s s' h => by rw [h.draws]) rfl fun _ => rfl)

theorem execSplit_endsAlike (w : Nat) : EndsAlike (.split w) [] (execSplit w) :=
  .regions rfl <| .cond (badWidth w = true) (.raise (by decide)) <| .fitting (splitLen · w) <|
    .withSource (fun bs h => by simp at h) fun data => .commit (split data w) rfl

theorem execJoin_endsAlike (w : Nat) : EndsAlike (.join w) [] (execJoin w) :=
  .regions rfl <| .cond (badWidth w = true) (.raise (by decide)) <| .fitting (joinLen · w) <|
    .withSource (fun bs h => by simp at h) fun data => .commit (join data w) rfl

theorem execEncode_endsAlike (n k : Reg) : EndsAlike (.encode n k) [n, k] (execEncode n k) := by
  refine .regions rfl <| .withReg fun n => .withReg fun k => .cond (n < 2) (.raise (by decide)) <|
    .withSource (fun _ _ => by decide) fun msg => .cond (256 ≤ n)
      (.fitting (fun _ => msg.length) ?_)
      (.fitting (fun _ => encodePackedLen n msg.length) (.commit (encodePacked n k msg) rfl))
  cases mapBytes? (byteResult? k n) msg with
  | none => exact .raise (by decide)
  | some out => exact .commit out rfl

theorem execDecode_endsAlike (n k : Reg) : EndsAlike (.decode n k) [n, k] (execDecode n k) :=
  .regions rfl <| .withReg fun n => .withReg fun k => .cond (n < 2) (.raise (by decide)) <| .cond (256 ≤ n)
      (.fitting id <| .withSource (fun _ _ => by decide) fun out => .commit out rfl)
      (.ite (fun s => s.sourceLen % unitSize n ≠ 0) (fun s s' h => by rw [h.sourceLen]) (.raise (by decide)) <|
        .fitting (decodePackedLen n) <| .withSource (fun bs h => by simp at h) fun data =>
          .commit (decodePacked n k data) rfl)

/-- Every command depends on its operands alone, and reads its source registers. -/
theorem exec_endsAlike (i : Instr) : EndsAlike i i.sources (exec i) := by
  cases i with
  | nop => exact .writes (fun _ => []) (fun _ _ _ => rfl) rfl fun _ => rfl
  | modexp => exact execModexp_endsAlike _ _ _ _
  | modmul => exact execModmul_endsAlike _ _ _ _
  | modred => exact execModred_endsAlike _ _ _
  | gcd => exact execGcd_endsAlike _ _ _
  | xgcd => exact execXgcd_endsAlike _ _ _ _
  | modinv => exact execModinv_endsAlike _ _ _
  | prime => exact execPrime_endsAlike _ _
  | keygen => exact execKeygen_endsAlike _ _ _ _ _
  | split => exact execSplit_endsAlike _
  | join => exact execJoin_endsAlike _
  | encode => exact execEncode_endsAlike _ _
  | decode => exact execDecode_endsAlike _ _

end Cases

/-! ### What the same end leaves the same -/

/-- The same writes leave the same values in the registers they name. -/
theorem State.reg_writeRegs_congr (s s' : State) (ws : List (Reg × Nat)) (r : Reg) (h : r ∈ ws.map Prod.fst) :
    (s'.writeRegs ws).reg r = (s.writeRegs ws).reg r := by
  induction ws generalizing s s' with
  | nil => cases h
  | cons w ws ih =>
    rw [State.writeRegs_cons, State.writeRegs_cons]
    by_cases later : r ∈ ws.map Prod.fst
    · exact ih _ _ later
    · obtain rfl := (List.mem_cons.mp h).resolve_right later
      rw [State.reg_writeRegs_other _ ws _ later, State.reg_writeRegs_other _ ws _ later,
        State.reg_writeReg_same, State.reg_writeReg_same]

/-- The same writes to the same register file leave the same register file. -/
theorem State.writeRegs_x_congr {s s' : State} (h : s'.x = s.x) (ws : List (Reg × Nat)) :
    (s'.writeRegs ws).x = (s.writeRegs ws).x := by
  induction ws generalizing s s' with
  | nil => exact h
  | cons w ws ih => exact ih (by rw [State.writeReg_x, State.writeReg_x, h])

theorem dests_of_usesRegions {i : Instr} (h : i.usesRegions = true) : i.dests = [] := by
  cases i with
  | split | join | encode | decode => rfl
  | _ => cases h

theorem SameEnd.errcode {i : Instr} {s s' t t' : State} (e : SameEnd i s s' t t') :
    t'.status.errcode = t.status.errcode := by
  cases e <;> rfl

/-- On success the destination registers hold the same values (R96). -/
theorem SameEnd.dests {i : Instr} {s s' t t' : State} (e : SameEnd i s s' t t') (ok : t.status.err = false) :
    ∀ r ∈ i.dests, t'.reg r = t.reg r := by
  intro r hr
  cases e with
  | fails os os' c hc => cases (Status.completed_err_of_ne s.status hc).symm.trans ok
  | writes os os' ws hi hw => exact State.reg_writeRegs_congr _ _ ws r (hw ▸ hr)
  | outputs os os' out hi =>
    rw [dests_of_usesRegions hi] at hr
    cases hr

/-- On success a byte command gives the same output, and DST_LEN its length (R65, R96). -/
theorem SameEnd.output {i : Instr} {s s' t t' : State} (e : SameEnd i s s' t t') (ok : t.status.err = false)
    (hi : i.usesRegions = true) (hd : s'.source.dstAddr = s.source.dstAddr) :
    t'.dstLen = t.dstLen ∧ ∀ j, j < t.dstLen.toNat →
      Memory.read t'.dmem (s.source.dstAddr.toNat + j) = Memory.read t.dmem (s.source.dstAddr.toNat + j) := by
  cases e with
  | fails os os' c hc => cases (Status.completed_err_of_ne s.status hc).symm.trans ok
  | writes os os' ws hu => cases hi.symm.trans hu
  | outputs os os' out =>
    refine ⟨rfl, fun j hj => ?_⟩
    have inside : j < out.length := hj.trans_le (Nat.mod_le _ _)
    have read (u : State) : Memory.read (u.output out).dmem (u.source.dstAddr.toNat + j) = out[j]? :=
      Memory.read_writeBytes_inside out u.dmem _ j inside
    have written := read (s'.record os')
    rw [State.record_source, hd] at written
    exact written.trans (read (s.record os)).symm

/-- An output changes DMEM and DST_LEN alone (R65). -/
theorem State.output_frame (s : State) (out : List Byte) :
    s.output out = { s with dmem := (s.output out).dmem, dstLen := BitVec.ofNat 32 out.length } := rfl

/-- States that agree but for the command in flight end in states that agree but for the record. -/
theorem SameEnd.eq_but_record {i : Instr} {s s' t t' : State} (e : SameEnd i s s' t t')
    (hs : s' = { s with pending := s'.pending }) (hd : s'.source.dstAddr = s.source.dstAddr) :
    t = { t' with operandFaults := t.operandFaults } := by
  cases e with
  | fails =>
    rw [hs]
    rfl
  | writes os os' ws =>
    have x : ((s'.record os').writeRegs ws).x = ((s.record os).writeRegs ws).x :=
      State.writeRegs_x_congr (by rw [hs]; rfl) ws
    rw [State.writeRegs_frame (s'.record os'), x, State.writeRegs_frame (s.record os), hs]
    rfl
  | outputs os os' out =>
    have dmem : ((s'.record os').output out).dmem = ((s.record os).output out).dmem := by
      rw [State.output_dmem, State.output_dmem, State.record_source, State.record_source, hd, hs]
      rfl
    rw [State.output_frame (s'.record os'), dmem, State.output_frame (s.record os), hs]
    rfl

/-! ### The snapshot is all a command reads (R96) -/

/-- States with one command in flight, of one implementation and at the same draw, give it the same operands. -/
theorem sameOperands_of_pending {s s' : State} {p : Pending} (hp : s.pending = some p)
    (hp' : s'.pending = some p) (params : s'.params = s.params) (draws : s'.draws = s.draws) :
    SameOperands s s' := by
  have source : s'.source = s.source := by rw [s.source_of_pending p hp, s'.source_of_pending p hp']
  have byte : s'.sourceByte = s.sourceByte := by
    funext t
    rw [State.sourceByte, source, draws, State.sourceByte]
  refine ⟨params, draws, fun r => ?_, ?_, ?_, ?_, ?_, ?_⟩
  · rw [State.operand, source, draws, State.operand]
  · rw [State.sourceBytes, State.sourceLen, source, byte, State.sourceBytes, State.sourceLen]
  all_goals rw [source]

/-- Settles O14: the snapshot, the parameters and the draw fix the operands, and these how the command ends. -/
theorem operandsComeFromSnapshot : Obligations.OperandsComeFromSnapshot := by
  intro i s s' p t hp hp' params draws ht
  have same := sameOperands_of_pending hp hp' params draws
  obtain ⟨u, t', hu, ht', e, -⟩ := exec_endsAlike i s s' same
  cases hu.symm.trans ht
  refine ⟨t', ht', e.errcode, fun ok => ⟨e.dests ok, fun hi => ?_⟩⟩
  have out := e.output ok hi same.dstAddr
  rwa [s.source_of_pending p hp] at out

/-! ### A command computes with some value for an unspecified operand (R97) -/

/-- The operands the command computes with, the free values written in for what is unspecified. -/
def State.filledSource (s : State) : Snapshot :=
  { s.source with
    x := Vector.ofFn fun r => BigReg.ofNat (s.operand r)
    dmem := Memory.writeBytes s.source.dmem s.source.srcAddr.toNat s.sourceBytes }

@[simp] theorem State.filledSource_srcAddr (s : State) : s.filledSource.srcAddr = s.source.srcAddr := by
  simp only [State.filledSource]

@[simp] theorem State.filledSource_srcLen (s : State) : s.filledSource.srcLen = s.source.srcLen := by
  simp only [State.filledSource]

@[simp] theorem State.filledSource_dstAddr (s : State) : s.filledSource.dstAddr = s.source.dstAddr := by
  simp only [State.filledSource]

@[simp] theorem State.filledSource_dstCap (s : State) : s.filledSource.dstCap = s.source.dstCap := by
  simp only [State.filledSource]

@[simp] theorem State.value?_filledSource (s : State) (r : Reg) :
    s.filledSource.value? r = some (s.operand r) := by
  simp [State.filledSource, Snapshot.value?, Vector.get_eq_getElem]

theorem State.read_filledSource (s : State) {t : Nat} (h : t < s.sourceLen) :
    Memory.read s.filledSource.dmem (s.source.srcAddr.toNat + t) = some (s.sourceByte t) := by
  rw [← s.getElem?_sourceBytes h]
  exact Memory.read_writeBytes_inside _ _ _ t (by rwa [s.sourceBytes_length])

/-- A specified byte keeps its value. -/
theorem State.read_filledSource_of_some (s : State) {a : Nat} {b : Byte}
    (h : Memory.read s.source.dmem a = some b) : Memory.read s.filledSource.dmem a = some b := by
  by_cases inside : s.source.srcAddr.toNat ≤ a ∧ a < s.source.srcAddr.toNat + s.sourceLen
  · obtain ⟨t, rfl⟩ := Nat.exists_eq_add_of_le inside.1
    rw [s.read_filledSource (by omega), State.sourceByte_of_some h]
  · rw [← h]
    exact Memory.read_writeBytes_outside _ _ _ a (by rw [s.sourceBytes_length]; omega)

/-- The specified words of a register keep their bits. -/
theorem BigReg.testBit_fill (r : BigReg) (free : Nat → Word) {b : Nat} (h : b / 32 ∉ r.unspec) :
    (r.fill free).testBit b = r.val.testBit b := by
  have word := congrArg (fun w : Word => w.getLsbD (b % 32)) (r.word_fill free (b / 32) h)
  simpa only [BigReg.getLsbD_word, BigReg.val_ofNat, decide_eq_true (Nat.mod_lt b (by decide : 0 < 32)),
    Bool.true_and, Nat.div_add_mod] using word

/-- With the filled operands for a snapshot, the operands are the same. -/
theorem sameOperands_of_filledSource {s s' : State} (params : s'.params = s.params) (draws : s'.draws = s.draws)
    (source : s'.source = s.filledSource) : SameOperands s s' := by
  have len : s'.sourceLen = s.sourceLen := by
    rw [State.sourceLen, source, s.filledSource_srcLen, State.sourceLen]
  refine ⟨params, draws, fun r => State.operand_of_some ?_, ?_, by rw [source, s.filledSource_srcAddr],
    by rw [source, s.filledSource_srcLen], by rw [source, s.filledSource_dstAddr],
    by rw [source, s.filledSource_dstCap]⟩
  · rw [source, s.value?_filledSource]
  · refine (State.sourceBytes_of_specified (by rw [s.sourceBytes_length, len]) fun t ht => ?_).1
    rw [len] at ht
    rw [source, s.filledSource_srcAddr, s.getElem?_sourceBytes ht]
    exact s.read_filledSource ht

/-- Settles O13: with the free values written in for what is unspecified. -/
theorem unspecifiedOperandsComputeWithSomeValue : Obligations.UnspecifiedOperandsComputeWithSomeValue := by
  intro i s p hp
  have source : s.source = p.snap := s.source_of_pending p hp
  have same : SameOperands s { s with pending := some { cmd := p.cmd, snap := s.filledSource } } :=
    sameOperands_of_filledSource rfl rfl rfl
  obtain ⟨t, u, ht, hu, e, -⟩ := exec_endsAlike i _ _ same
  rw [← source]
  refine ⟨s.filledSource, fun r => ⟨s.operand r, s.value?_filledSource r, fun hw => ?_, fun b hb => ?_⟩,
    s.filledSource_srcAddr, s.filledSource_srcLen, s.filledSource_dstAddr, s.filledSource_dstCap,
    fun a b => s.read_filledSource_of_some, fun j hj => ⟨_, s.read_filledSource hj⟩,
    t, u, ht, hu, e.eq_but_record rfl same.dstAddr⟩
  · obtain ⟨regs, -, -, pending⟩ := (State.wf_iff s).mp hw
    exact operand_lt regs pending r
  · exact BigReg.testBit_fill _ _ hb

end Sys2Proof.Machine
end

section
/-! The model fault UNSPECIFIED_OPERAND (40_control.md R97, R99): which unspecified operands a command records.
Its source registers it records as it reads them, its source bytes as far as it reads them (logs 12, 13, 17). -/

namespace Sys2Proof.Machine

/-- With a command pending, the word the faults name is its word. -/
theorem State.commandInFlight_of_pending (s : State) {p : Pending} (h : s.pending = some p) :
    s.commandInFlight = p.cmd := by
  rw [State.commandInFlight, h]

/-! ### Reading the source bytes -/

/-- A meaning that goes on after the source is read and records nothing more. -/
def AddsNoRecord (k : List Byte → State → Result) : Prop :=
  ∀ out u, ∃ t, k out u = .next t ∧ t.operandFaults = u.operandFaults

/-- In state `s` command `i` passes every check that comes before the source bytes, and goes on to read them
in order up to the first one that `f` does not accept. -/
def ReadsSource (i : Instr) (s : State) (f : Byte → Option Byte) : Prop :=
  ∃ c k, AddsNoRecord k ∧ exec i s = withSource s f c k

/-- An unspecified source byte that is read is recorded (R97). -/
theorem ReadsSource.records {i : Instr} {s : State} {f : Byte → Option Byte} {n : Nat} (h : ReadsSource i s f)
    (read : n < readCount f s.sourceBytes)
    (unspecified : Memory.read s.source.dmem (s.source.srcAddr.toNat + n) = none) :
    Records i s s.commandInFlight (.byte (s.source.srcAddr.toNat + n)) := by
  obtain ⟨c, k, silent, he⟩ := h
  have missing : Operand.byte (s.source.srcAddr.toNat + n) ∈ s.missingBytes (readCount f s.sourceBytes) :=
    State.mem_missingBytes.mpr ⟨n, read, unspecified, rfl⟩
  obtain ⟨t, ht, faults⟩ : ∃ t, withSource s f c k = .next t ∧
      t.operandFaults = (s.record (s.missingBytes (readCount f s.sourceBytes))).operandFaults := by
    unfold withSource
    cases mapBytes? f s.sourceBytes with
    | some out => exact silent out _
    | none => exact ⟨_, rfl, rfl⟩
  exact ⟨t, _, he.trans ht, faults, List.mem_map_of_mem missing⟩

/-- A command that accepts every byte reads them all. -/
theorem ReadsSource.records_of_accept {i : Instr} {s : State} {n : Nat} (h : ReadsSource i s some)
    (hn : UnspecifiedByte s n) : Records i s s.commandInFlight (.byte (s.source.srcAddr.toNat + n)) := by
  obtain ⟨inside, unspecified⟩ := hn
  exact h.records (by rwa [readCount_accept, State.sourceBytes_length]) unspecified

/-- A command that accepts the bytes before the first unspecified one reads that one (logs 12, 13). -/
theorem ReadsSource.records_first {i : Instr} {s : State} {f : Byte → Option Byte} {n : Nat} {ok : Byte → Prop}
    (h : ReadsSource i s f) (accepts : ∀ b, ok b → (f b).isSome) (hn : FirstUnspecified s n ok) :
    Records i s s.commandInFlight (.byte (s.source.srcAddr.toNat + n)) := by
  obtain ⟨⟨inside, unspecified⟩, before⟩ := hn
  have read : n < readCount f s.sourceBytes := by
    refine lt_readCount f _ n (by rwa [State.sourceBytes_length]) fun t b ht hb => ?_
    obtain ⟨b', specified, hok⟩ := before t ht
    rw [State.getElem?_sourceBytes s (ht.trans inside), State.sourceByte_of_some specified] at hb
    cases hb
    exact accepts b hok
  exact h.records read unspecified

/-! ### The checks that come before the source bytes -/

theorem regionError?_of_fit {s : State} (fit : RegionsFit s) (apart : ¬ RegionsShare s) :
    s.regionError? = none := by
  obtain ⟨src, dst⟩ := fit
  unfold RegionsShare at apart
  exact (regionError?_eq_none s).mpr ⟨src, dst, by omega⟩

theorem badWidth_of_range {w : Nat} (h : 1 ≤ w) (h' : w ≤ 7) : badWidth w = false := by
  simp only [badWidth, Bool.or_eq_false_iff, decide_eq_false_iff_not]
  omega

theorem tooLong_of_le {s : State} {len : Nat} (h : len ≤ s.source.dstCap.toNat) : s.tooLong len = false :=
  decide_eq_false (Nat.not_lt.mpr h)

theorem addsNoRecord_commit (out : List Byte → List Byte) : AddsNoRecord fun data s => commit s (out data) :=
  fun _ _ => ⟨_, rfl, rfl⟩

section Checked

variable {s : State} (hr : s.regionError? = none)

include hr

/-- SPLIT past the checks of R105. -/
theorem readsSource_split {w : Nat} (hw : badWidth w = false) (hl : s.tooLong (splitLen s.sourceLen w) = false) :
    ReadsSource (.split w) s some :=
  ⟨.none, _, addsNoRecord_commit (split · w), by
    simp only [exec, execSplit, hr, hw, hl, Bool.false_eq_true, if_false]⟩

/-- JOIN past the checks of R107. -/
theorem readsSource_join {w : Nat} (hw : badWidth w = false) (hl : s.tooLong (joinLen s.sourceLen w) = false) :
    ReadsSource (.join w) s some :=
  ⟨.none, _, addsNoRecord_commit (join · w), by
    simp only [exec, execJoin, hr, hw, hl, Bool.false_eq_true, if_false]⟩

variable {rn rk : Reg} {n k : Nat} (hn : s.source.value? rn = some n) (hk : s.source.value? rk = some k)

include hn hk

/-- ENCODE past the checks of R155 on its registers: both branches begin with the check of the bytes. -/
theorem readsSource_encode (h2 : 2 ≤ n) : ReadsSource (.encode rn rk) s alnumByte? := by
  refine ⟨.invalidArg, ?rest, fun msg u => ?silent, ?run⟩
  case run =>
    simp only [exec, execEncode, hr, withReg_of_some hn, withReg_of_some hk, if_neg (Nat.not_lt.mpr h2)]
    rfl
  split
  · split
    · exact ⟨_, rfl, rfl⟩
    · split <;> exact ⟨_, rfl, rfl⟩
  · split <;> exact ⟨_, rfl, rfl⟩

/-- DECODE past the checks of R162, in its per-byte branch. -/
theorem readsSource_decode_bytes (h256 : 256 ≤ n) (hl : s.tooLong s.sourceLen = false) :
    ReadsSource (.decode rn rk) s (byteResult? k n) :=
  ⟨.byteOverflow, _, addsNoRecord_commit id, by
    simp only [exec, execDecode, hr, withReg_of_some hn, withReg_of_some hk, hl, if_pos h256,
      Bool.false_eq_true, if_false, if_neg (show ¬ n < 2 by omega), id]⟩

/-- DECODE past the checks of R162, in its packed branch, where a unit is one byte (R166). -/
theorem readsSource_decode_packed (h2 : 2 ≤ n) (h256 : n < 256)
    (hl : s.tooLong (joinLen s.sourceLen (unitWidth n)) = false) : ReadsSource (.decode rn rk) s some := by
  have whole : s.sourceLen % unitSize n = 0 := by rw [unitSize_of_lt n h256, Nat.mod_one]
  have short : s.tooLong (decodePackedLen n s.sourceLen) = false := by
    rwa [decodePackedLen, unitSize_of_lt n h256, Nat.div_one]
  exact ⟨.none, _, addsNoRecord_commit (decodePacked n k), by
    simp only [exec, execDecode, hr, withReg_of_some hn, withReg_of_some hk, short, whole, ne_eq,
      not_true_eq_false, Bool.false_eq_true, if_false, if_neg (Nat.not_lt.mpr h2), if_neg (Nat.not_le.mpr h256)]⟩

end Checked

/-! ### What the checks on bytes and on the modulus accept -/

theorem isSome_alnumByte? {b : Byte} (h : AlnumByte b) : (alnumByte? b).isSome := by
  have alnum : isAlnum b = true := by
    simp only [isAlnum, Bool.or_eq_true, Bool.and_eq_true, decide_eq_true_eq]
    exact or_assoc.mpr h
  rw [alnumByte?, if_pos alnum]
  rfl

theorem isSome_byteResult? {k n : Nat} {b : Byte} (hn : n ≠ 0) (h : b.toNat ^ k % n < 256) :
    (byteResult? k n b).isSome := by
  rw [Option.isSome_iff_ne_none]
  exact mt (byteResult?_eq_none k n b hn).mp (Nat.not_le.mpr h)

/-- The unit width is the one `w` with `2^w <= n < 2^(w+1)` (R153). -/
theorem unitWidth_eq {n w : Nat} (h2 : 2 ≤ n) (lo : 2 ^ w ≤ n) (hi : n < 2 ^ (w + 1)) : unitWidth n = w := by
  obtain ⟨lo', hi'⟩ := unitWidth_spec n h2
  have below := (Nat.pow_lt_pow_iff_right (by decide : 1 < 2)).mp (lo.trans_lt hi')
  have above := (Nat.pow_lt_pow_iff_right (by decide : 1 < 2)).mp (lo'.trans_lt hi)
  omega

/-! ### What a command records (R97) -/

/-- An unspecified source register is recorded, unless the region checks stop a byte command first. -/
theorem records_source {i : Instr} {s : State} {r : Reg} (hr : i.usesRegions = true → s.regionError? = none)
    (source : r ∈ i.sources) (unspecified : s.source.value? r = none) :
    Records i s s.commandInFlight (.reg r) := by
  obtain ⟨t, -, ht, -, -, regs⟩ := exec_endsAlike i s s ⟨rfl, rfl, fun _ => rfl, rfl, rfl, rfl, rfl, rfl⟩
  obtain ⟨os, faults, missing⟩ := regs hr
  exact ⟨t, _, ht, faults,
    List.mem_map_of_mem (missing r source (State.mem_missingReg.mpr ⟨unspecified, rfl⟩))⟩

/-- Settles O12: a register is recorded as it is read, a byte if it is among those read, and a completion
records nothing but unspecified operands of its command. -/
theorem unspecifiedOperandsRecorded : Obligations.UnspecifiedOperandsRecorded := by
  refine ⟨fun i s p r hp regions source unspecified => ?_, fun s p rs1 rs2 w n m k hp fit apart => ?_,
    fun i s t p hp ht => ?_⟩
  · rw [← s.commandInFlight_of_pending hp]
    exact records_source (fun hi => regionError?_of_fit (regions hi).1 (regions hi).2) source unspecified
  · have hr := regionError?_of_fit fit apart
    rw [← s.commandInFlight_of_pending hp]
    refine ⟨fun hn lo hi => ⟨fun hl => ?_, fun hl => ?_⟩,
      fun hm hk => ⟨fun h2 hn => ?_, fun h256 hl hn => ?_, fun h2 h256 lo hi hl hn => ?_⟩⟩
    · exact (readsSource_split hr (badWidth_of_range lo hi) (tooLong_of_le hl)).records_of_accept hn
    · exact (readsSource_join hr (badWidth_of_range lo hi) (tooLong_of_le hl)).records_of_accept hn
    · exact (readsSource_encode hr hm hk h2).records_first (fun _ => isSome_alnumByte?) hn
    · exact (readsSource_decode_bytes hr hm hk h256 (tooLong_of_le hl)).records_first
        (fun _ => isSome_byteResult? (by omega)) hn
    · have width : unitWidth m = w := unitWidth_eq h2 lo hi
      exact (readsSource_decode_packed hr hm hk h2 h256
        (tooLong_of_le (by rw [width]; exact hl))).records_of_accept hn
  · obtain ⟨code, u, os, rfl, -, faults, unspecified⟩ := (exec_cases i ht).ending
    refine ⟨_, faults, fun e he => ?_⟩
    obtain ⟨o, ho, rfl⟩ := List.mem_map.mp he
    exact ⟨s.commandInFlight_of_pending hp, unspecified o ho⟩

end Sys2Proof.Machine
end

section
/-! The BitPacker's functions bit by bit (41_bitpacker.md R102, R103), and that joining what has been split gives
the data back (R109): bit `i` of the string that `join` puts together is bit `i` of the string `split` cuts. -/

namespace Sys2Proof.Machine

/-! ### Bits of the strings (R14) -/

/-- Bit `i` of the concatenation of `bitsMSB(data[t], k)` is in byte `i div k`. -/
theorem bitString_getElem?_div (data : List Byte) {k i : Nat} (hi : i < k * data.length) :
    (bitString data k)[i]? = some ((data.getD (i / k) 0).toNat.testBit (k - 1 - i % k)) := by
  have hk : 0 < k := Nat.pos_of_mul_pos_right (Nat.zero_lt_of_lt hi)
  have byte : i / k < data.length := Nat.div_lt_of_lt_mul hi
  have bit := bitString_getElem? data k (i / k) (i % k) (Nat.mod_lt i hk) byte
  rwa [Nat.div_add_mod', ← List.getD_eq_getElem data 0 byte] at bit

/-- The bit string SPLIT cuts into groups: the bits of the data, then zeros up to whole groups (R102). -/
def paddedBits (data : List Byte) (w : Nat) : List Bool :=
  bitString data 8 ++ List.replicate (splitLen data.length w * w - 8 * data.length) false

theorem split_eq_groups (data : List Byte) (w : Nat) :
    split data w = groups (paddedBits data w) w (splitLen data.length w) := rfl

theorem paddedBits_length (data : List Byte) {w : Nat} (hw : 1 ≤ w) :
    (paddedBits data w).length = splitLen data.length w * w := padded_length data w hw

/-- Bit `i` of the padded string is a bit of the data, or 0 past its end. -/
theorem paddedBits_getElem? (data : List Byte) {w i : Nat} (hi : i < splitLen data.length w * w) :
    (paddedBits data w)[i]? =
      some (decide (i < 8 * data.length) && (data.getD (i / 8) 0).toNat.testBit (7 - i % 8)) := by
  unfold paddedBits
  by_cases inside : i < 8 * data.length
  · rw [List.getElem?_append_left (by rwa [bitString_length]), bitString_getElem?_div data inside,
      decide_eq_true inside, Bool.true_and]
  · rw [List.getElem?_append_right (by rw [bitString_length]; omega), bitString_length,
      List.getElem?_replicate_of_lt (by omega), decide_eq_false inside, Bool.false_and]

/-! ### Bits of the groups -/

/-- Bit `w - 1 - k` of group `j` is bit `j * w + k` of the string, if the string has all `n` groups. -/
theorem groups_testBit {S : List Bool} {w n j k : Nat} (hw : w ≤ 8) (hS : n * w ≤ S.length) (hj : j < n)
    (hk : k < w) : some (((groups S w n).getD j 0).toNat.testBit (w - 1 - k)) = S[j * w + k]? := by
  have whole : (j + 1) * w ≤ S.length := (Nat.mul_le_mul_right w hj).trans hS
  rw [List.getD_eq_getElem?_getD, groups_getElem? S w n j hj, Option.getD_some, group_toNat S w j hw,
    group_testBit S w j k hk whole]

/-- Bit `w - 1 - k` of group `j` of SPLIT (R102). -/
theorem split_testBit (data : List Byte) {w j k : Nat} (lo : 1 ≤ w) (hi : w ≤ 8)
    (hj : j < splitLen data.length w) (hk : k < w) :
    ((split data w).getD j 0).toNat.testBit (w - 1 - k) =
      (decide (j * w + k < 8 * data.length) &&
        (data.getD ((j * w + k) / 8) 0).toNat.testBit (7 - (j * w + k) % 8)) := by
  have inside : j * w + k < splitLen data.length w * w :=
    calc j * w + k < (j + 1) * w := by rw [Nat.succ_mul]; omega
      _ ≤ splitLen data.length w * w := Nat.mul_le_mul_right w hj
  rw [← Option.some_inj, split_eq_groups, groups_testBit hi (paddedBits_length data lo).ge hj hk,
    paddedBits_getElem? data inside]

/-- Bit `7 - b` of byte `k` of JOIN (R103). -/
theorem join_testBit (data : List Byte) {w k b : Nat} (hk : k < joinLen data.length w) (hb : b < 8) :
    ((join data w).getD k 0).toNat.testBit (7 - b) =
      (data.getD ((8 * k + b) / w) 0).toNat.testBit (w - 1 - (8 * k + b) % w) := by
  have whole : joinLen data.length w * 8 ≤ w * data.length := Nat.div_mul_le_self ..
  rw [← Option.some_inj, join, groups_testBit le_rfl (by rwa [bitString_length]) hk hb, Nat.mul_comm k 8,
    bitString_getElem?_div data (by omega)]

/-- Settles O25: a group is a part of the padded string. -/
theorem splitBits : Obligations.SplitBits := by
  intro data w lo hi
  refine ⟨split_length data w, fun j hj => ⟨?_, fun k hk => ?_⟩⟩
  · rw [List.getD_eq_getElem _ _ hj]
    exact split_lt data w j (by omega) hj
  · exact split_testBit data lo (by omega) (by rwa [split_length] at hj) hk

/-- Settles O26: a byte is eight bits of the concatenation of the low `w` bits. -/
theorem joinBits : Obligations.JoinBits := by
  intro data w _ _
  refine ⟨join_length data w, fun k hk b hb => join_testBit data ?_ hb⟩
  rwa [join_length] at hk

/-! ### The round trip (R109) -/

/-- The padding of SPLIT is shorter than a byte, so JOIN discards it. -/
theorem joinLen_splitLen (len : Nat) {w : Nat} (lo : 1 ≤ w) (hi : w ≤ 7) : joinLen (splitLen len w) w = len := by
  have ge := splitLen_mul_ge len w lo
  have lt := splitLen_mul_lt len w lo
  rw [joinLen, Nat.mul_comm]
  omega

/-- A bit that JOIN reads of the groups of SPLIT is the bit of the data that SPLIT put there. -/
theorem split_testBit_div (data : List Byte) {w i : Nat} (lo : 1 ≤ w) (hi : w ≤ 8) (h : i < 8 * data.length) :
    ((split data w).getD (i / w) 0).toNat.testBit (w - 1 - i % w) =
      (data.getD (i / 8) 0).toNat.testBit (7 - i % 8) := by
  have group : i / w < splitLen data.length w := by
    refine Nat.div_lt_of_lt_mul (h.trans_le ?_)
    rw [Nat.mul_comm w]
    exact splitLen_mul_ge data.length w lo
  rw [split_testBit data lo hi group (Nat.mod_lt i lo), Nat.div_add_mod', decide_eq_true h, Bool.true_and]

/-- Bytes are equal if their bits are, counted from the most significant one. -/
theorem byte_ext_msb {x y : Byte} (h : ∀ b, b < 8 → x.toNat.testBit (7 - b) = y.toNat.testBit (7 - b)) :
    x = y := by
  refine BitVec.eq_of_getLsbD_eq fun i hi => ?_
  have bit := h (7 - i) (by omega)
  rwa [Nat.sub_sub_self (by omega)] at bit

/-- Settles O27: the bits that are joined are those that were split, and the padding is discarded. -/
theorem splitJoinRoundTrip : Obligations.SplitJoinRoundTrip := by
  intro data w lo hi
  have len : joinLen (split data w).length w = data.length := by
    rw [split_length, joinLen_splitLen data.length lo hi]
  refine List.ext_getElem (by rw [join_length, len]) fun k hk hk' => byte_ext_msb fun b hb => ?_
  rw [← List.getD_eq_getElem _ 0 hk, join_testBit _ (by omega) hb, split_testBit_div data lo (by omega) (by omega),
    ← List.getD_eq_getElem data 0 hk', show (8 * k + b) / 8 = k by omega, show (8 * k + b) % 8 = b by omega]

end Sys2Proof.Machine
end

section
/-! SPLIT and JOIN (41_bitpacker.md R105, R107): their encoding, and how they end. What holds of every byte
command (20_memory.md R62 to R65) is said for all four: the region checks, a failure and an output. -/

namespace Sys2Proof.Machine

/-! ### The ends in the words of the statements -/

/-- The row of a mnemonic is its encoding (R81). -/
theorem encodedAs_row (op : Op) : EncodedAs op.row.pattern op.row.mask op.instr :=
  fun cmd h => decode_of_selects op cmd (beq_iff_eq.mpr h)

/-- A failure writes nothing (R176). -/
theorem raise_eq_failedWith {c : ErrCode} (hc : c ≠ .none) (s : State) :
    raise c s = .next (failedWith c.code s) := by
  have err : decide (c.code ≠ 0) = true := decide_eq_true (mt c.code_eq_zero.mp hc)
  rw [raise_eq, State.finish, Status.completed, err]
  rfl

/-- The output is written at DST_ADDR, and the command completes (R65). -/
theorem commit_outputIs (s : State) (out : List Byte) : ∃ t, commit s out = .next t ∧ OutputIs s out t :=
  ⟨_, rfl, rfl, fun j => Memory.read_writeBytes_inside out s.dmem _ j, s.read_output_outside out⟩

/-! ### The region checks (R63, R64) -/

theorem regionError?_of_not_fit {s : State} (h : ¬ RegionsFit s) : s.regionError? = some .memRange := by
  refine if_pos ?_
  simp only [Snapshot.outOfRange, Bool.or_eq_true, decide_eq_true_eq]
  unfold RegionsFit at h
  omega

theorem regionError?_of_share {s : State} (fit : RegionsFit s) (share : RegionsShare s) :
    s.regionError? = some .overlap := by
  obtain ⟨src, dst⟩ := fit
  have inside : ¬ s.source.outOfRange s.params.dmemSize = true := by
    simp only [Snapshot.outOfRange, Bool.or_eq_true, decide_eq_true_eq]
    omega
  have overlap : s.source.overlapping = true := by
    simp only [Snapshot.overlapping, Bool.and_eq_true, decide_eq_true_eq, and_assoc]
    exact share
  exact (if_neg inside).trans (if_pos overlap)

/-- Every byte command begins with the region checks (R105, R107, R155, R162). -/
theorem exec_of_regionError {i : Instr} {s : State} {c : ErrCode} (hi : i.usesRegions = true)
    (h : s.regionError? = some c) : exec i s = raise c s := by
  cases i with
  | split => simp only [exec, execSplit, h]
  | join => simp only [exec, execJoin, h]
  | encode => simp only [exec, execEncode, h]
  | decode => simp only [exec, execDecode, h]
  | _ => cases hi

theorem exec_of_not_fit {i : Instr} {s : State} (hi : i.usesRegions = true) (h : ¬ RegionsFit s) :
    exec i s = .next (failedWith 0xA s) :=
  (exec_of_regionError hi (regionError?_of_not_fit h)).trans (raise_eq_failedWith (by decide) s)

theorem exec_of_share {i : Instr} {s : State} (hi : i.usesRegions = true) (fit : RegionsFit s)
    (share : RegionsShare s) : exec i s = .next (failedWith 0xB s) :=
  (exec_of_regionError hi (regionError?_of_share fit share)).trans (raise_eq_failedWith (by decide) s)

/-! ### After the region checks -/

/-- What SPLIT and JOIN do after the region checks, with an output `out data` of `len` bytes (R105, R107). -/
def packerBody (w len : Nat) (out : List Byte → List Byte) (s : State) : Result :=
  if badWidth w then raise .invalidArg s
  else if s.tooLong len then raise .memRange s
  else withSource s some .none fun data s => commit s (out data)

theorem exec_split_eq_packerBody {s : State} (w : Nat) (h : s.regionError? = none) :
    exec (.split w) s = packerBody w (splitLen s.sourceLen w) (split · w) s := by
  simp only [exec, execSplit, h, packerBody]

theorem exec_join_eq_packerBody {s : State} (w : Nat) (h : s.regionError? = none) :
    exec (.join w) s = packerBody w (joinLen s.sourceLen w) (join · w) s := by
  simp only [exec, execJoin, h, packerBody]

section Body

variable {s : State} {w len : Nat} (out : List Byte → List Byte)

theorem packerBody_of_badWidth (h : w < 1 ∨ 7 < w) :
    packerBody w len out s = .next (failedWith 0x2 s) := by
  have bad : badWidth w = true := by
    simpa only [badWidth, Bool.or_eq_true, decide_eq_true_eq] using h
  exact (if_pos bad).trans (raise_eq_failedWith (by decide) s)

variable (lo : 1 ≤ w) (hi : w ≤ 7)

include lo hi

theorem packerBody_of_tooLong (h : s.source.dstCap.toNat < len) :
    packerBody w len out s = .next (failedWith 0xA s) := by
  rw [packerBody, badWidth_of_range lo hi, if_neg Bool.false_ne_true, if_pos ((tooLong_iff s len).mpr h)]
  exact raise_eq_failedWith (by decide) s

theorem packerBody_of_fits {data : List Byte} (h : len ≤ s.source.dstCap.toNat) (source : SourceIs s data) :
    packerBody w len out s = commit s (out data) := by
  obtain ⟨length, bytes⟩ := source
  rw [packerBody, badWidth_of_range lo hi, if_neg Bool.false_ne_true, tooLong_of_le h,
    if_neg Bool.false_ne_true, withSource_of_specified length bytes, mapBytes?_accept]

end Body

/-- How a byte command whose rest is `packerBody` ends: its errors in check order, and its output. -/
theorem packer_result {i : Instr} {s : State} {w len : Nat} {out : List Byte → List Byte}
    (hi : i.usesRegions = true) (body : s.regionError? = none → exec i s = packerBody w len out s)
    (data : List Byte) :
    (¬ RegionsFit s → exec i s = .next (failedWith 0xA s)) ∧
    (RegionsFit s → RegionsShare s → exec i s = .next (failedWith 0xB s)) ∧
    (RegionsFit s → ¬ RegionsShare s → w < 1 ∨ 7 < w → exec i s = .next (failedWith 0x2 s)) ∧
    (RegionsFit s → ¬ RegionsShare s → 1 ≤ w → w ≤ 7 → s.source.dstCap.toNat < len →
      exec i s = .next (failedWith 0xA s)) ∧
    (RegionsFit s → ¬ RegionsShare s → 1 ≤ w → w ≤ 7 → len ≤ s.source.dstCap.toNat → SourceIs s data →
      ∃ t, exec i s = .next t ∧ OutputIs s (out data) t) := by
  refine ⟨exec_of_not_fit hi, exec_of_share hi, fun fit apart bad => ?_, fun fit apart lo hi long => ?_,
    fun fit apart lo hi fits source => ?_⟩ <;> rw [body (regionError?_of_fit fit apart)]
  · exact packerBody_of_badWidth out bad
  · exact packerBody_of_tooLong out lo hi long
  · rw [packerBody_of_fits out lo hi fits source]
    exact commit_outputIs s (out data)

/-- Settles O28: the row of SPLIT, and `packerBody` with the groups of the data. -/
theorem splitResult : Obligations.SplitResult :=
  ⟨encodedAs_row .split, fun _ w => packer_result rfl (exec_split_eq_packerBody w)⟩

/-- Settles O29: the row of JOIN, and `packerBody` with the bytes put together. -/
theorem joinResult : Obligations.JoinResult :=
  ⟨encodedAs_row .join, fun _ w => packer_result rfl (exec_join_eq_packerBody w)⟩

end Sys2Proof.Machine
end

section
/-! Modular arithmetic and primality (42_arith.md R115 to R132): the encoding of the seven commands, and how each
ends once its source registers are specified: a check that fails, or its result in its destinations. -/

namespace Sys2Proof.Machine

/-! ### The shared shape of these commands -/

/-- An outcome that begins with a check: it fails with the check's code and writes nothing (R176), or goes on. -/
theorem result_of_check {s : State} {p : Prop} [Decidable p] {c : ErrCode} {outcome onward : Result}
    (hc : c ≠ .none) (h : outcome = if p then raise c s else onward) :
    (p → outcome = .next (failedWith c.code s)) ∧ (¬ p → outcome = onward) := by
  refine ⟨fun fails => ?_, fun passes => ?_⟩
  · rw [h, if_pos fails, raise_eq_failedWith hc]
  · rw [h, if_neg passes]

/-- A success that writes one register. -/
theorem complete_writeReg (s : State) (r : Reg) (v : Nat) :
    complete (s.writeReg r v) = .next (succeeded (withX r v s)) := rfl

/-- A success that writes two registers, the second one last (R96). -/
theorem complete_writeReg_writeReg (s : State) (r q : Reg) (v w : Nat) :
    complete ((s.writeReg r v).writeReg q w) = .next (succeeded (withX q w (withX r v s))) := rfl

/-! ### The commands on specified sources

A specified source is read as its value and nothing is recorded, so each meaning comes down to its checks and
its writes. -/

section Specified

variable {s : State} {ra rb rn : Reg} {a b n : Nat} (ha : s.source.value? ra = some a)
  (hb : s.source.value? rb = some b) (hn : s.source.value? rn = some n) (rd rs : Reg)

include ha

theorem exec_prime_of_specified :
    exec (.prime rd ra) s = .next (succeeded (withX rd (if isPrime a then 1 else 0) s)) := by
  simp only [exec, execPrime, withReg_of_some ha, complete_writeReg]

include hb

theorem exec_gcd_of_specified :
    exec (.gcd rd ra rb) s = .next (succeeded (withX rd (Nat.gcd a b) s)) := by
  simp only [exec, execGcd, withReg_of_some ha, withReg_of_some hb, complete_writeReg]

theorem exec_modred_of_specified :
    exec (.modred rd ra rb) s =
      if b = 0 then raise .divZero s else .next (succeeded (withX rd (a % b) s)) := by
  simp only [exec, execModred, withReg_of_some ha, withReg_of_some hb, complete_writeReg]

theorem exec_modinv_of_specified :
    exec (.modinv rd ra rb) s =
      if b = 0 then raise .divZero s
      else if Nat.gcd a b ≠ 1 then raise .noInverse s
      else .next (succeeded (withX rd (inv a b) s)) := by
  simp only [exec, execModinv, withReg_of_some ha, withReg_of_some hb, complete_writeReg]

theorem exec_xgcd_of_specified :
    exec (.xgcd rd rs ra rb) s =
      if b = 0 then raise .invalidArg s
      else .next (succeeded (withX rs (xgcdCoeff a b) (withX rd (Nat.gcd a b) s))) := by
  simp only [exec, execXgcd, withReg_of_some ha, withReg_of_some hb, complete_writeReg_writeReg]

include hn

theorem exec_modmul_of_specified :
    exec (.modmul rd ra rb rn) s =
      if n = 0 then raise .divZero s else .next (succeeded (withX rd (a * b % n) s)) := by
  simp only [exec, execModmul, withReg_of_some ha, withReg_of_some hb, withReg_of_some hn, complete_writeReg]

theorem exec_modexp_of_specified :
    exec (.modexp rd ra rb rn) s =
      if n = 0 then raise .divZero s else .next (succeeded (withX rd (powMod a b n) s)) := by
  simp only [exec, execModexp, withReg_of_some ha, withReg_of_some hb, withReg_of_some hn, complete_writeReg]

end Specified

/-! ### The results -/

/-- Settles O15: past the check, repeated squaring computes the exact power reduced. -/
theorem modexpResult : Obligations.ModexpResult := by
  refine ⟨encodedAs_row .modexp, fun s rd rs1 rs2 r3 b e n hb he hn => ?_⟩
  obtain ⟨zero, power⟩ := result_of_check (by decide) (exec_modexp_of_specified hb he hn rd)
  exact ⟨zero, fun h => powMod_eq b e n h ▸ power h⟩

/-- Settles O16: the row of MODMUL, and its one check. -/
theorem modmulResult : Obligations.ModmulResult :=
  ⟨encodedAs_row .modmul, fun _ rd _ _ _ _ _ _ ha hb hn =>
    result_of_check (by decide) (exec_modmul_of_specified ha hb hn rd)⟩

/-- Settles O17: the row of MODRED, and its one check. -/
theorem modredResult : Obligations.ModredResult :=
  ⟨encodedAs_row .modred, fun _ rd _ _ _ _ ha hn =>
    result_of_check (by decide) (exec_modred_of_specified ha hn rd)⟩

/-- Settles O18: the number written is the greatest common divisor. -/
theorem gcdResult : Obligations.GcdResult := by
  refine ⟨encodedAs_row .gcd, fun s rd rs1 rs2 a b ha hb => ?_⟩
  refine ⟨Nat.gcd a b, exec_gcd_of_specified ha hb rd, Nat.gcd_dvd_left a b, Nat.gcd_dvd_right a b,
    fun d => Nat.dvd_gcd, ?_⟩
  rintro rfl
  exact Nat.gcd_zero_right a

/-- Settles O19: `xgcdCoeff` is a coefficient of the gcd (R124), and no other number below `b div g` is (R125). -/
theorem xgcdResult : Obligations.XgcdResult := by
  refine ⟨encodedAs_row .xgcd, fun s rd r3 rs1 rs2 a b ha hb => ?_⟩
  obtain ⟨zero, coefficient⟩ := result_of_check (by decide) (exec_xgcd_of_specified ha hb rd r3)
  refine ⟨zero, fun h => ?_⟩
  obtain ⟨below, solves⟩ := xgcdCoeff_spec a b h
  exact ⟨xgcdCoeff a b, coefficient h, below, solves,
    fun c hc eq => coeff_unique a b c _ h hc below (eq.trans solves.symm)⟩

/-- Settles O20: the two checks in order, then `inv`, the only inverse below the modulus (R17). -/
theorem modinvResult : Obligations.ModinvResult := by
  refine ⟨encodedAs_row .modinv, fun s rd rs1 rs2 a m ha hm => ?_⟩
  obtain ⟨zero, nonzero⟩ := result_of_check (by decide) (exec_modinv_of_specified ha hm rd)
  have coprimality (h : m ≠ 0) := result_of_check (by decide) (nonzero h)
  refine ⟨zero, fun h => (coprimality h).1, fun h coprime => ?_⟩
  obtain ⟨below, inverse⟩ := inv_spec a m h coprime
  exact ⟨inv a m, (coprimality h).2 (not_not.mpr coprime), below, inverse,
    fun y => inv_unique a m y h coprime⟩

/-- Settles O21: `isPrime` is the predicate of trial division (R131), and both answers are results. -/
theorem primeResult : Obligations.PrimeResult := by
  refine ⟨encodedAs_row .prime, fun s rd rs1 v hv => ?_⟩
  rw [exec_prime_of_specified hv rd]
  refine ⟨fun prime => ?_, fun composite => ?_⟩
  · rw [if_pos ((isPrime_iff_trial v).mpr prime)]
  · rw [if_neg (mt (isPrime_iff_trial v).mp composite)]

end Sys2Proof.Machine
end

section
/-! The key generator (43_keygen.md R134 to R148): the set it draws from and the inverses of its elements, KEYGEN's
checks in their order, and the key pair of a success. -/

namespace Sys2Proof.Machine

/-! ### The candidates (R137, R143) -/

/-- Settles O24: from `phi = 3` on, `phi - 1` is a candidate. -/
theorem candidatesEmpty : Obligations.CandidatesEmpty := by
  intro phi
  rw [List.eq_nil_iff_forall_not_mem]
  constructor
  · intro empty
    by_contra large
    refine empty (phi - 1) ((mem_candidates _ _).mpr ⟨by omega, by omega, ?_⟩)
    exact (Nat.coprime_self_sub_left (by omega)).mpr (Nat.coprime_one_left phi)
  · intro small v hv
    obtain ⟨lo, hi, -⟩ := (mem_candidates _ _).mp hv
    omega

/-! ### The draw set and its inverses (R144) -/

/-- `v` is its own inverse exactly if its square is 1 modulo `phi`. -/
theorem mem_drawSet_iff_drawable (phi v : Nat) : v ∈ drawSet phi ↔ Drawable phi v := by
  rw [mem_drawSet, Drawable]
  refine and_congr_right fun _ => and_congr_right fun below => and_congr_right fun coprime => not_congr ?_
  have nonzero : phi ≠ 0 := Nat.ne_zero_of_lt below
  constructor
  · intro own
    have inverse := (inv_spec v phi nonzero coprime).2
    rwa [own] at inverse
  · exact fun square => (inv_unique v phi v nonzero coprime below square).symm

theorem drawSet_eq_nil_iff (phi : Nat) : drawSet phi = [] ↔ ∀ v, ¬ Drawable phi v := by
  simp only [List.eq_nil_iff_forall_not_mem, mem_drawSet_iff_drawable]

/-- The element a KEYGEN completion in state `s` draws (R46). -/
def State.drawnExponent (s : State) (phi : Nat) : Nat := pick (drawSet phi) (Config.drawIndex s.draws)

theorem drawable_drawnExponent (s : State) {phi : Nat} (h : drawSet phi ≠ []) :
    Drawable phi (s.drawnExponent phi) :=
  (mem_drawSet_iff_drawable _ _).mp (pick_mem _ _ h)

/-- The inverse of a drawable `v` is an inverse, and itself a unit in `[2, phi)` other than `v` (R145). -/
theorem Drawable.inv_spec {phi v : Nat} (h : Drawable phi v) :
    v * inv v phi % phi = 1 ∧ 2 ≤ inv v phi ∧ inv v phi < phi ∧ Nat.gcd (inv v phi) phi = 1 ∧
      inv v phi ≠ v := by
  have other : inv v phi ≠ v := ((mem_drawSet _ _).mp ((mem_drawSet_iff_drawable _ _).mpr h)).2.2.2
  obtain ⟨lo, hi, coprime, -⟩ := h
  obtain ⟨below, inverse⟩ := Machine.inv_spec v phi (by omega) coprime
  rw [Nat.mod_eq_of_lt (show 1 < phi by omega)] at inverse
  have unit : Nat.gcd (inv v phi) phi = 1 := by
    refine Nat.coprime_of_mul_modEq_one v ?_
    rw [Nat.ModEq, Nat.mul_comm, inverse, Nat.mod_eq_of_lt (by omega)]
  have ne_zero : inv v phi ≠ 0 := fun h0 => by
    rw [h0, Nat.mul_zero, Nat.zero_mod] at inverse
    cases inverse
  have ne_one : inv v phi ≠ 1 := fun h1 => by
    rw [h1, Nat.mul_one, Nat.mod_eq_of_lt hi] at inverse
    omega
  exact ⟨inverse, by omega, below, unit, other⟩

/-! ### The checks in their order (R141) -/

theorem isPrime_eq_false {v : Nat} (h : ¬ TrialPrime v) : isPrime v = false :=
  Bool.eq_false_iff.mpr (mt (isPrime_iff_trial v).mp h)

section Checks

variable {opw p q : Nat}

theorem keygenError?_of_not_prime_p (hp : ¬ TrialPrime p) : keygenError? opw p q = some .notPrimeP := by
  rw [keygenError?, isPrime_eq_false hp]
  rfl

variable (hp : TrialPrime p)

include hp

theorem keygenError?_of_not_prime_q (hq : ¬ TrialPrime q) : keygenError? opw p q = some .notPrimeQ := by
  rw [keygenError?, (isPrime_iff_trial p).mpr hp, isPrime_eq_false hq]
  rfl

variable (hq : TrialPrime q)

include hq

/-- Two primes pass the first two checks. -/
theorem keygenError?_of_primes :
    keygenError? opw p q =
      if 2 ^ opw ≤ p * q then some .widthOverflow
      else if drawSet (keyPhi p q) = [] then some .noCandidate
      else none := by
  have empty (h : candidates (keyPhi p q) = []) : drawSet (keyPhi p q) = [] := by rw [drawSet, h, List.filter_nil]
  simp only [keygenError?, (isPrime_iff_trial p).mpr hp, (isPrime_iff_trial q).mpr hq, Bool.not_true,
    Bool.false_eq_true, if_false]
  by_cases h : candidates (keyPhi p q) = []
  · rw [if_pos h, if_pos (empty h)]
  · rw [if_neg h]

end Checks

/-! ### KEYGEN on specified sources -/

section Specified

variable {s : State} {rp rq : Reg} {p q : Nat} (hp : s.source.value? rp = some p) (hq : s.source.value? rq = some q)
  (rn rpub rpriv : Reg)

include hp hq

theorem exec_keygen_of_error {c : ErrCode} (h : keygenError? s.params.opw p q = some c) :
    exec (.keygen rn rpub rpriv rp rq) s = .next (failedWith c.code s) := by
  simp only [exec, execKeygen, withReg_of_some hp, withReg_of_some hq, h]
  exact raise_eq_failedWith (keygenError?_ne_none h) s

theorem exec_keygen_of_no_error (h : keygenError? s.params.opw p q = none) :
    exec (.keygen rn rpub rpriv rp rq) s = .next (succeeded
      (withX rpriv (s.drawnExponent (keyPhi p q)) (withX rpub (inv (s.drawnExponent (keyPhi p q)) (keyPhi p q))
        (withX rn (p * q) s)))) := by
  simp only [exec, execKeygen, withReg_of_some hp, withReg_of_some hq, h]
  rfl

/-- A KEYGEN that ends with ERR = 0 found no error, wrote its keys, and had something to draw. -/
theorem keygen_succeeded {t : State} (ht : exec (.keygen rn rpub rpriv rp rq) s = .next t)
    (ok : t.status.err = false) :
    ∃ e, Drawable (keyPhi p q) e ∧
      t = succeeded (withX rpriv e (withX rpub (inv e (keyPhi p q)) (withX rn (p * q) s))) := by
  cases check : keygenError? s.params.opw p q with
  | some c =>
    rw [exec_keygen_of_error hp hq rn rpub rpriv check] at ht
    cases ht
    cases ok
  | none =>
    obtain ⟨-, -, -, nonempty⟩ := keygenError?_eq_none check
    rw [exec_keygen_of_no_error hp hq rn rpub rpriv check] at ht
    cases ht
    exact ⟨_, drawable_drawnExponent s nonempty, rfl⟩

end Specified

/-- Settles O22: the row of KEYGEN, its checks in order, and past them the drawn exponent with its inverse. -/
theorem keygenResult : Obligations.KeygenResult := by
  refine ⟨encodedAs_row .keygen, fun s rd r3 r4 rs1 rs2 p q hs1 hs2 => ?_⟩
  have fails {c : ErrCode} := exec_keygen_of_error hs1 hs2 rd r3 r4 (c := c)
  refine ⟨fun hp => fails (keygenError?_of_not_prime_p hp), fun hp hq => fails (keygenError?_of_not_prime_q hp hq),
    fun hp hq wide => fails (c := .widthOverflow) ?_, fun hp hq fits undrawable => fails (c := .noCandidate) ?_,
    fun hp hq fits ⟨v, hv⟩ => ?_⟩
  · rw [keygenError?_of_primes hp hq, if_pos wide]
  · rw [keygenError?_of_primes hp hq, if_neg (Nat.not_le.mpr fits),
      if_pos ((drawSet_eq_nil_iff (keyPhi p q)).mpr undrawable)]
  · have nonempty : drawSet (keyPhi p q) ≠ [] := fun h => (drawSet_eq_nil_iff _).mp h v hv
    have drawable := drawable_drawnExponent s nonempty
    obtain ⟨inverse, -, below, -⟩ := drawable.inv_spec
    refine ⟨_, _, drawable, below, inverse, exec_keygen_of_no_error hs1 hs2 rd r3 r4 ?_⟩
    rw [keygenError?_of_primes hp hq, if_neg (Nat.not_le.mpr fits), if_neg nonempty]

/-! ### The key pair (R145) -/

@[simp] theorem reg_succeeded (s : State) (r : Reg) : (succeeded s).reg r = s.reg r := rfl

@[simp] theorem reg_withX_same (s : State) (r : Reg) (v : Nat) : (withX r v s).reg r = BigReg.ofNat v :=
  s.reg_writeReg_same r v

theorem reg_withX_other (s : State) {r r' : Reg} (v : Nat) (h : r' ≠ r) : (withX r v s).reg r' = s.reg r' :=
  s.reg_writeReg_other r r' v h

/-- Settles O23: no destination is overwritten, and the keys are the drawn exponent and its inverse. -/
theorem keygenKeyRelation : Obligations.KeygenKeyRelation := by
  intro s t rd r3 r4 rs1 rs2 p q hs1 hs2 h3 h4 h34 ht ok
  obtain ⟨e, drawable, rfl⟩ := keygen_succeeded hs1 hs2 rd r3 r4 ht ok
  obtain ⟨inverse, lo', hi', coprime', other⟩ := drawable.inv_spec
  obtain ⟨lo, hi, coprime, -⟩ := drawable
  refine ⟨inv e (keyPhi p q), e, ?_, ?_, ?_, by rwa [Nat.mul_comm], lo', hi', lo, hi, coprime, coprime', other⟩
  · rw [reg_succeeded, reg_withX_other _ _ h4, reg_withX_other _ _ h3, reg_withX_same, BigReg.value?_ofNat]
  · rw [reg_succeeded, reg_withX_other _ _ h34, reg_withX_same, BigReg.value?_ofNat]
  · rw [reg_succeeded, reg_withX_same, BigReg.value?_ofNat]

end Sys2Proof.Machine
end

section
/-! ENCODE and DECODE (44_codec.md R155, R162): their encoding, and how they end on specified operands. Each meaning
comes down to its checks in order and, past them, the per-byte branch both commands share, or its packed branch. -/

namespace Sys2Proof.Machine

/-! ### What the checks make of the source bytes -/

theorem alnumByte_iff (b : Byte) : AlnumByte b ↔ isAlnum b = true := by
  simp only [AlnumByte, isAlnum, Bool.or_eq_true, Bool.and_eq_true, decide_eq_true_eq, or_assoc]

/-- ENCODE reads an alphanumeric message as it is (R155). -/
theorem mapBytes?_alnumByte?_of_alnum {msg : List Byte} (h : ∀ b ∈ msg, AlnumByte b) :
    mapBytes? alnumByte? msg = some msg := by
  refine (mapBytes?_eq_some _ _ _).mpr ⟨rfl, fun t b hb => ?_⟩
  rw [hb]
  exact (alnumByte?_eq_some b b).mpr ⟨(alnumByte_iff b).mp (h b (List.mem_of_getElem? hb)), rfl⟩

theorem mapBytes?_alnumByte?_of_not_alnum {msg : List Byte} (h : ∃ b ∈ msg, ¬ AlnumByte b) :
    mapBytes? alnumByte? msg = none := by
  obtain ⟨b, hb, other⟩ := h
  exact (mapBytes?_eq_none _ _).mpr ⟨b, hb, if_neg (mt (alnumByte_iff b).mpr other)⟩

/-! ### The per-byte branch (R156, R164) -/

/-- What both commands do with the source bytes for `n >= 256`, past their checks. -/
def bytesBody (k n : Nat) (data : List Byte) (s : State) : Result :=
  match mapBytes? (byteResult? k n) data with
  | some out => commit s out
  | none => raise .byteOverflow s

section Body

variable {k n : Nat} (hn : n ≠ 0) {data : List Byte} {s : State}

include hn

theorem bytesBody_of_overflow (h : ∃ b ∈ data, 256 ≤ b.toNat ^ k % n) :
    bytesBody k n data s = .next (failedWith 0x9 s) := by
  obtain ⟨b, hb, large⟩ := h
  have overflow : mapBytes? (byteResult? k n) data = none :=
    (mapBytes?_eq_none _ _).mpr ⟨b, hb, (byteResult?_eq_none k n b hn).mpr large⟩
  rw [bytesBody, overflow]
  exact raise_eq_failedWith (by decide) s

theorem bytesBody_of_fits (h : ∀ b ∈ data, b.toNat ^ k % n < 256) :
    bytesBody k n data s = commit s (data.map fun b => BitVec.ofNat 8 (b.toNat ^ k % n)) := by
  have fits : mapBytes? (byteResult? k n) data = some (data.map fun b => BitVec.ofNat 8 (b.toNat ^ k % n)) := by
    refine (mapBytes?_eq_some _ _ _).mpr ⟨List.length_map _, fun t b hb => ?_⟩
    rw [List.getElem?_map, hb]
    refine (byteResult?_eq_some k n b _ hn).mpr ?_
    rw [BitVec.toNat_ofNat, Nat.mod_eq_of_lt (h b (List.mem_of_getElem? hb))]
  rw [bytesBody, fits]

end Body

/-! ### The packed branch (R157, R163) -/

section Packed

variable {n w : Nat} (h2 : 2 ≤ n) (h256 : n < 256) (lo : 2 ^ w ≤ n) (hi : n < 2 ^ (w + 1))

include h2 h256 lo hi

theorem encodePacked_eq_map_split (k : Nat) (msg : List Byte) :
    encodePacked n k msg = (split msg w).map fun u => BitVec.ofNat 8 (u.toNat ^ k % n) := by
  simp only [encodePacked_eq n k msg h256, unitWidth_eq h2 lo hi, powMod_eq _ k n (by omega)]

theorem encodePackedLen_eq (len : Nat) : encodePackedLen n len = (8 * len + w - 1) / w := by
  rw [encodePackedLen, unitSize_of_lt n h256, unitWidth_eq h2 lo hi, Nat.mul_one, splitLen]

theorem decodePacked_eq_join_map (k : Nat) (data : List Byte) :
    decodePacked n k data = join (data.map fun c => BitVec.ofNat 8 (c.toNat ^ k % n)) w := by
  simp only [decodePacked_eq n k data h256, unitWidth_eq h2 lo hi, powMod_eq _ k n (by omega)]

theorem decodePackedLen_eq (len : Nat) : decodePackedLen n len = w * len / 8 := by
  rw [decodePackedLen, unitSize_of_lt n h256, unitWidth_eq h2 lo hi, Nat.div_one, joinLen]

end Packed

/-! ### The commands on specified registers, past the region checks -/

/-- The length check of an output (R65): it fails with MEM_RANGE, or the command goes on. -/
theorem result_of_lengthCheck {s : State} {len : Nat} {outcome onward : Result}
    (h : outcome = if s.tooLong len then raise .memRange s else onward) :
    (s.source.dstCap.toNat < len → outcome = .next (failedWith 0xA s)) ∧
      (len ≤ s.source.dstCap.toNat → outcome = onward) := by
  obtain ⟨long, fits⟩ := result_of_check (by decide) h
  exact ⟨fun hl => long ((tooLong_iff s len).mpr hl),
    fun hl => fits (mt (tooLong_iff s len).mp (Nat.not_lt.mpr hl))⟩

section Specified

variable {s : State} {rn rk : Reg} {n k : Nat} (hr : s.regionError? = none)
  (hn : s.source.value? rn = some n) (hk : s.source.value? rk = some k)

include hr hn hk

/-- Both commands refuse a modulus below 2 before they read a byte (R155, R162). -/
theorem exec_encode_of_small (h : n < 2) : exec (.encode rn rk) s = .next (failedWith 0x2 s) := by
  simp only [exec, execEncode, hr, withReg_of_some hn, withReg_of_some hk, if_pos h]
  exact raise_eq_failedWith (by decide) s

theorem exec_decode_of_small (h : n < 2) : exec (.decode rn rk) s = .next (failedWith 0x2 s) := by
  simp only [exec, execDecode, hr, withReg_of_some hn, withReg_of_some hk, if_pos h]
  exact raise_eq_failedWith (by decide) s

section Message

variable (h2 : 2 ≤ n) {msg : List Byte} (source : SourceIs s msg)

include h2 source

theorem exec_encode_of_not_alnum (h : ∃ b ∈ msg, ¬ AlnumByte b) :
    exec (.encode rn rk) s = .next (failedWith 0x2 s) := by
  obtain ⟨length, bytes⟩ := source
  simp only [exec, execEncode, hr, withReg_of_some hn, withReg_of_some hk, if_neg (Nat.not_lt.mpr h2),
    withSource_of_specified length bytes, mapBytes?_alnumByte?_of_not_alnum h]
  exact raise_eq_failedWith (by decide) s

/-- On an alphanumeric message ENCODE is one of its two branches, each behind its length check (R155). -/
theorem exec_encode_of_alnum (h : ∀ b ∈ msg, AlnumByte b) :
    exec (.encode rn rk) s =
      if 256 ≤ n then if s.tooLong msg.length then raise .memRange s else bytesBody k n msg s
      else if s.tooLong (encodePackedLen n msg.length) then raise .memRange s
      else commit s (encodePacked n k msg) := by
  obtain ⟨length, bytes⟩ := source
  simp only [exec, execEncode, hr, withReg_of_some hn, withReg_of_some hk, if_neg (Nat.not_lt.mpr h2),
    withSource_of_specified length bytes, mapBytes?_alnumByte?_of_alnum h, bytesBody]
  cases mapBytes? (byteResult? k n) msg <;> rfl

end Message

/-- The per-byte branch of DECODE (R162): the length check comes before the source is read. -/
theorem exec_decode_of_large (h256 : 256 ≤ n) :
    exec (.decode rn rk) s =
      if s.tooLong s.sourceLen then raise .memRange s
      else withSource s (byteResult? k n) .byteOverflow fun out s => commit s out := by
  simp only [exec, execDecode, hr, withReg_of_some hn, withReg_of_some hk, if_pos h256,
    if_neg (show ¬ n < 2 by omega)]

/-- The packed branch of DECODE (R162): with one byte a unit no byte is left over (R166). -/
theorem exec_decode_of_packed (h2 : 2 ≤ n) (h256 : n < 256) :
    exec (.decode rn rk) s =
      if s.tooLong (decodePackedLen n s.sourceLen) then raise .memRange s
      else withSource s some .none fun data s => commit s (decodePacked n k data) := by
  have whole : s.sourceLen % unitSize n = 0 := by rw [unitSize_of_lt n h256, Nat.mod_one]
  simp only [exec, execDecode, hr, withReg_of_some hn, withReg_of_some hk, if_neg (Nat.not_lt.mpr h2),
    if_neg (Nat.not_le.mpr h256), whole, ne_eq, not_true_eq_false, if_false]

end Specified

/-! ### The results -/

/-- Settles O30: the checks up to the reading of the message, then either branch behind its length check. -/
theorem encodeResult : Obligations.EncodeResult := by
  refine ⟨encodedAs_row .encode, fun s rs1 rs2 n k w msg => ⟨exec_of_not_fit rfl, exec_of_share rfl,
    fun fit apart hn hk => ?_⟩⟩
  have hr := regionError?_of_fit fit apart
  refine ⟨exec_encode_of_small hr hn hk, fun h2 source => ⟨exec_encode_of_not_alnum hr hn hk h2 source,
    fun alnum => ?_⟩⟩
  have run := exec_encode_of_alnum hr hn hk h2 source alnum
  have large (h : 256 ≤ n) := result_of_lengthCheck (run.trans (if_pos h))
  have packed (h : n < 256) := result_of_lengthCheck (run.trans (if_neg (Nat.not_le.mpr h)))
  refine ⟨fun h => (large h).1, fun h fits overflow => ?_, fun h fits below => ?_, fun h lo hi long => ?_,
    fun h lo hi fits => ?_⟩
  · rw [(large h).2 fits, bytesBody_of_overflow (by omega) overflow]
  · rw [(large h).2 fits, bytesBody_of_fits (by omega) below]
    exact commit_outputIs s _
  · exact (packed h).1 (by rwa [encodePackedLen_eq h2 h lo hi])
  · rw [(packed h).2 (by rwa [encodePackedLen_eq h2 h lo hi]), encodePacked_eq_map_split h2 h lo hi]
    exact commit_outputIs s _

/-- Settles O31: the check of the modulus, then either branch behind its length check. -/
theorem decodeResult : Obligations.DecodeResult := by
  refine ⟨encodedAs_row .decode, fun s rs1 rs2 n k w data => ⟨exec_of_not_fit rfl, exec_of_share rfl,
    fun fit apart hn hk => ?_⟩⟩
  have hr := regionError?_of_fit fit apart
  have large (h : 256 ≤ n) := result_of_lengthCheck (exec_decode_of_large hr hn hk h)
  refine ⟨exec_decode_of_small hr hn hk, fun h => (large h).1, fun h fits source => ?_, fun h2 h lo hi => ?_⟩
  · obtain ⟨length, bytes⟩ := source
    have run : exec (.decode rs1 rs2) s = bytesBody k n data s :=
      ((large h).2 fits).trans (withSource_of_specified length bytes ..)
    refine ⟨fun overflow => ?_, fun below => ?_⟩
    · rw [run, bytesBody_of_overflow (by omega) overflow]
    · rw [run, bytesBody_of_fits (by omega) below]
      exact commit_outputIs s _
  · have packed := result_of_lengthCheck (exec_decode_of_packed hr hn hk h2 h)
    rw [decodePackedLen_eq h2 h lo hi] at packed
    refine ⟨packed.1, fun fits source => ?_⟩
    obtain ⟨length, bytes⟩ := source
    rw [packed.2 fits, withSource_of_specified length bytes, mapBytes?_accept]
    exact decodePacked_eq_join_map h2 h lo hi k data ▸ commit_outputIs s _

end Sys2Proof.Machine
end

section
/-! The packed round trip (44_codec.md R167): raising to inverse exponents gives a unit back modulo a product of two
distinct primes, and joining the units that were split gives the message back. -/

namespace Sys2Proof.Machine

/-! ### Inverse exponents -/

/-- Fermat for every base: an exponent that is 1 modulo `p - 1` changes nothing modulo `p`. -/
theorem pow_modEq_self_of_prime {p e : Nat} (hp : p.Prime) (he : 1 ≤ e) (h : p - 1 ∣ e - 1) (u : Nat) :
    u ^ e ≡ u [MOD p] := by
  have fermat := Int.ModEq.pow_eq_pow hp h he one_pos u
  rw [pow_one] at fermat
  exact_mod_cast fermat

/-- Modulo `p * q` an exponent that is 1 modulo `phi` changes nothing, whether or not the base is a unit. -/
theorem pow_modEq_self_of_primes {p q e : Nat} (hp : p.Prime) (hq : q.Prime) (hpq : p ≠ q)
    (h : e ≡ 1 [MOD (p - 1) * (q - 1)]) (u : Nat) : u ^ e ≡ u [MOD p * q] := by
  have positive : 1 ≤ e := by
    by_contra zero
    obtain rfl : e = 0 := by omega
    obtain ⟨hp1, hq1⟩ := mul_eq_one.mp (Nat.dvd_one.mp (Nat.modEq_zero_iff_dvd.mp h.symm))
    omega
  have dvd : (p - 1) * (q - 1) ∣ e - 1 := (Nat.modEq_iff_dvd' positive).mp h.symm
  rw [← Nat.modEq_and_modEq_iff_modEq_mul ((Nat.coprime_primes hp hq).mpr hpq)]
  exact ⟨pow_modEq_self_of_prime hp positive (dvd_of_mul_right_dvd dvd) u,
    pow_modEq_self_of_prime hq positive (dvd_of_mul_left_dvd dvd) u⟩

/-! ### The units -/

/-- Every unit of the packed branch is below the modulus (R153, R167). -/
theorem toNat_lt_of_mem_split {n : Nat} (h2 : 2 ≤ n) (h256 : n < 256) {msg : List Byte} {u : Byte}
    (hu : u ∈ split msg (unitWidth n)) : u.toNat < n := by
  obtain ⟨j, hj, rfl⟩ := List.getElem_of_mem hu
  obtain ⟨-, narrow⟩ := unitWidth_range n h2 h256
  exact (split_lt msg _ j (by omega) hj).trans_le (unitWidth_spec n h2).1

/-- The packed branches undo each other if the two powers do on every number below the modulus. -/
theorem decodePacked_encodePacked {n P Q : Nat} (h2 : 2 ≤ n) (h256 : n < 256)
    (inverse : ∀ u, u < n → powMod (powMod u P n) Q n = u) (msg : List Byte) :
    decodePacked n Q (encodePacked n P msg) = msg := by
  obtain ⟨lo, hi⟩ := unitWidth_range n h2 h256
  have unit : ∀ u ∈ split msg (unitWidth n),
      BitVec.ofNat 8 (powMod (BitVec.ofNat 8 (powMod u.toNat P n)).toNat Q n) = u := by
    intro u hu
    have byte : powMod u.toNat P n < 2 ^ 8 := (powMod_lt _ P n (by omega)).trans h256
    rw [BitVec.toNat_ofNat, Nat.mod_eq_of_lt byte, inverse _ (toNat_lt_of_mem_split h2 h256 hu),
      BitVec.ofNat_toNat, BitVec.setWidth_eq]
  have units := (List.map_congr_left unit).trans (List.map_id _)
  rw [encodePacked_eq n P msg h256, decodePacked_eq n Q _ h256, List.map_map]
  exact (congrArg (join · _) units).trans (splitJoinRoundTrip msg _ lo hi)

/-- Settles O32: exponents inverse modulo `phi` undo each other on every unit. -/
theorem packedRoundTrip : Obligations.PackedRoundTrip := by
  intro p q P Q msg hp hq hpq h256 inverse
  have h2 : 2 ≤ p * q := hp.two_le.trans (Nat.le_mul_of_pos_right p hq.pos)
  refine decodePacked_encodePacked h2 h256 (fun u hu => ?_) msg
  have nonzero : p * q ≠ 0 := by omega
  calc powMod (powMod u P (p * q)) Q (p * q)
      = (u ^ P % (p * q)) ^ Q % (p * q) := by rw [powMod_eq _ _ _ nonzero, powMod_eq _ _ _ nonzero]
    _ = u ^ (P * Q) % (p * q) := by rw [← Nat.pow_mod, Nat.pow_mul]
    _ = u % (p * q) := pow_modEq_self_of_primes hp hq hpq inverse u
    _ = u := Nat.mod_eq_of_lt hu

end Sys2Proof.Machine
end

section
/-! Exceptions (60_exceptions.md): a failed command writes nothing (R176), the interrupt line (R183), the idle engine
(R192), and the two model-only outcomes: the stuck host and the record of unspecified operands (R193). -/

namespace Sys2Proof.Machine

/-! ### Failures (R176) -/

/-- Settles O33: of the three ways a command completes only the failure raises ERR, and it has only recorded. -/
theorem failedCommandWritesNothing : Obligations.FailedCommandWritesNothing := by
  intro i s t h he
  cases exec_cases i h with
  | fails os ho code hc => exact Host.Outcome.next.inj (raise_eq_failedWith hc (s.record os))
  | writes | outputs => cases he

/-! ### The interrupt line (R183) -/

/-- A completion keeps IRQ_EN (R52). -/
theorem Completion.irqEn_eq {i : Instr} {s t : State} (c : Completion i s t) : t.irqEn = s.irqEn := by
  cases c with
  | fails | outputs => rfl
  | writes os ho ws =>
    rw [State.finish_irqEn, State.writeRegs_frame]
    rfl

/-- After a completion the line is IRQ_EN, DONE being 1 (R95). -/
theorem Completion.irq_eq {i : Instr} {s t : State} (c : Completion i s t) : t.irq = s.irqEn := by
  have done : t.status.done = true := by
    obtain ⟨code, u, -, rfl, -⟩ := c.ending
    rfl
  rw [State.irq, done, Bool.true_and, c.irqEn_eq]

/-- Settles O36: the next states of the two writes are those of the register window. -/
theorem interruptLine : Obligations.InterruptLine := by
  refine ⟨fun s => rfl, fun i s t h => (exec_cases i h).irq_eq, fun s v rest h hv => ?_, fun s v rest h hv => ?_⟩
  · exact ⟨_, statusWriteClears s v rest h, by rw [State.irq, if_pos hv, Bool.false_and]⟩
  · exact ⟨_, ctrlWriteSetsIrqEnable s v rest h hv, rfl⟩

/-! ### The idle engine (R192) -/

/-- Settles O9: with nothing to come the engine moves, and an idle one holds its state. -/
theorem idleHoldsState : Obligations.IdleHoldsState := by
  intro s hp hi
  rw [step, takeInput, hi]
  exact engineStep_of_idle hp

/-! ### When a step stops (R55, R193) -/

/-- The engine always has a next state (R193). -/
theorem engineStep_next (s : State) : ∃ t, engineStep s = .next t := by
  cases hp : s.pending with
  | none => exact ⟨s, engineStep_of_idle hp⟩
  | some p =>
    cases hd : decode p.cmd with
    | error e => exact ⟨_, engineStep_of_error hp hd⟩
    | ok i => exact engineStep_of_ok hp hd ▸ exec_next i s

/-- The host is stuck: no command is pending, and its next access, `a`, is not admitted (R55). -/
def HostStuck (s : State) (a : Access) : Prop :=
  s.pending = none ∧ a.offset? s.params = none ∧ ∃ rest, s.inputs = .host a :: rest

/-- A step answers a next state, or the host is stuck. -/
theorem step_next_or_hostStuck (s : State) :
    (∃ t, step s = .next t) ∨ ∃ a, HostStuck s a ∧ step s = .fault (.hostStuck a) := by
  cases hi : s.inputs with
  | nil => exact .inl (step_engine (.inr ⟨hi, rfl⟩) ▸ engineStep_next _)
  | cons input rest =>
    cases input with
    | engine => exact .inl (step_engine (.inl hi) ▸ engineStep_next _)
    | powerOn => exact .inl ⟨_, by rw [step, takeInput, hi]⟩
    | host a =>
      cases ha : a.offset? s.params with
      | some off => exact .inl ⟨(s.withInputs rest).hostAccess off a, by simp [step, takeInput, hi, ha]⟩
      | none =>
        cases hp : s.pending with
        | none => exact .inr ⟨a, ⟨hp, ha, rest, hi⟩, step_of_unadmitted hp hi ha⟩
        | some p =>
          have turn : step s = engineStep s := by simp [step, takeInput, hi, ha, State.busy, hp]
          exact .inl (turn ▸ engineStep_next s)

/-- No step refuses (R193). -/
theorem step_ne_refused (s : State) (e : Refusal) : step s ≠ .refused e := by
  intro h
  obtain ⟨t, ht⟩ | ⟨a, -, ht⟩ := step_next_or_hostStuck s <;> cases ht.symm.trans h

/-- A step stops only with the host stuck at the access it names. -/
theorem hostStuck_of_fault {s : State} {a : Access} (h : step s = .fault (.hostStuck a)) : HostStuck s a := by
  obtain ⟨t, ht⟩ | ⟨b, stuck, ht⟩ := step_next_or_hostStuck s
  · cases ht.symm.trans h
  · cases ht.symm.trans h
    exact stuck

theorem State.hostAdmitted_of_host {s : State} {a : Access} {rest : List Input} (h : s.inputs = .host a :: rest) :
    s.hostAdmitted = (a.offset? s.params).isSome := by
  rw [State.hostAdmitted, h]

/-- A host is not stuck while a command is pending or the next access is admitted. -/
theorem HostStuck.not_pending_or_admitted {s : State} {a : Access} (h : HostStuck s a) :
    ¬ (s.pending ≠ none ∨ s.hostAdmitted = true) := by
  obtain ⟨idle, unadmitted, rest, hi⟩ := h
  rintro (pending | admitted)
  · exact pending idle
  · rw [State.hostAdmitted_of_host hi, unadmitted] at admitted
    cases admitted

/-! ### What a step records (R97, R193) -/

/-- A write that may be dropped keeps the record if its effect does (R203). -/
theorem State.unlessBusy_operandFaults (s t : State) (h : t.operandFaults = s.operandFaults) :
    (s.unlessBusy t).operandFaults = s.operandFaults := by
  unfold State.unlessBusy
  split
  · exact s.dropWrite_operandFaults
  · exact h

@[simp] theorem State.softReset_operandFaults (s : State) : s.softReset.operandFaults = s.operandFaults := by
  rw [State.softReset, State.clearControl_operandFaults, s.abort_frame]

/-- A host write records nothing, and no soft reset clears the record. -/
theorem State.writeTarget_operandFaults (s : State) (v : Word) (place : Target) :
    (s.writeTarget v place).operandFaults = s.operandFaults := by
  cases place with
  | id | version | paramOpw | paramDmem | lastCmd | dstLen | reserved | status => rfl
  | ctrl =>
    change (s.writeCtrl v).operandFaults = _
    unfold State.writeCtrl
    split
    · exact s.softReset_operandFaults
    · rfl
  | cmd | srcAddr | srcLen | dstAddr | dstCap => exact s.unlessBusy_operandFaults _ rfl
  | bigReg r j =>
    refine s.unlessBusy_operandFaults _ ?_
    unfold State.writeRegWord
    split <;> rfl
  | dmem k =>
    refine s.unlessBusy_operandFaults _ ?_
    unfold State.writeDmemWord
    split <;> rfl

theorem State.hostAccess_operandFaults (s : State) (off : Nat) (a : Access) :
    (s.hostAccess off a).operandFaults = s.operandFaults := by
  cases a with
  | read => rfl
  | write addr width v => exact s.writeTarget_operandFaults v (locate off)

/-- The record `e` names the word of the command in flight and an unspecified operand of it (R97). -/
def State.Names (s : State) (e : OperandFault) : Prop :=
  ∃ p i, s.pending = some p ∧ decode p.cmd = .ok i ∧ e.cmd = p.cmd ∧ s.Unspecified i e.operand

/-- From `s` to `t` the record is not cleared, and what is added names unspecified operands of the command in
flight. -/
def ExtendsRecord (s t : State) : Prop :=
  ∃ new, t.operandFaults = s.operandFaults ++ new ∧ ∀ e ∈ new, s.Names e

theorem ExtendsRecord.of_eq {s t : State} (h : t.operandFaults = s.operandFaults) : ExtendsRecord s t :=
  ⟨[], by rw [h, List.append_nil], by simp⟩

theorem engineStep_extendsRecord {s t : State} (h : engineStep s = .next t) : ExtendsRecord s t := by
  obtain ⟨-, rfl⟩ | ⟨p, hp, ⟨e, -, rfl⟩ | ⟨i, hd, c⟩⟩ := engineStep_cases h
  · exact .of_eq rfl
  · exact .of_eq rfl
  · obtain ⟨code, u, os, rfl, -, faults, unspecified⟩ := c.ending
    refine ⟨_, faults, fun e he => ?_⟩
    obtain ⟨o, ho, rfl⟩ := List.mem_map.mp he
    exact ⟨p, i, hp, hd, s.commandInFlight_of_pending hp, unspecified o ho⟩

/-- Of the three kinds of step only the engine's records (R97), and none clears the record (R193). -/
theorem step_extendsRecord {s t : State} (h : step s = .next t) : ExtendsRecord s t := by
  obtain ⟨rest, he⟩ | ⟨rest, -, rfl⟩ | ⟨a, rest, off, -, -, rfl⟩ := step_cases h
  · exact engineStep_extendsRecord (s := s.withInputs rest) he
  · exact .of_eq rfl
  · exact .of_eq ((s.withInputs rest).hostAccess_operandFaults off a)

/-- With every operand of the command in flight specified (R201), nothing is added to the record. -/
theorem ExtendsRecord.eq_of_specified {s t : State} (h : ExtendsRecord s t)
    (specified : ∀ p i, s.pending = some p → decode p.cmd = .ok i → ∀ o, ¬ s.Unspecified i o) :
    t.operandFaults = s.operandFaults := by
  obtain ⟨new, faults, names⟩ := h
  have empty : new = [] := List.eq_nil_iff_forall_not_mem.mpr fun e he =>
    have ⟨p, i, hp, hd, _, unspecified⟩ := names e he
    specified p i hp hd _ unspecified
  rw [faults, empty, List.append_nil]

/-- Settles O57: a step answers a next state or finds the host stuck, and it only extends the record. -/
theorem onlyTwoModelOutcomes : Obligations.OnlyTwoModelOutcomes := by
  refine ⟨step_ne_refused, fun s a h => hostStuck_of_fault h, fun s t h => step_extendsRecord h,
    fun s moves specified => ?_⟩
  obtain ⟨t, ht⟩ | ⟨a, stuck, -⟩ := step_next_or_hostStuck s
  · exact ⟨t, ht, (step_extendsRecord ht).eq_of_specified specified⟩
  · exact absurd moves stuck.not_pending_or_admitted

end Sys2Proof.Machine
end

section
/-! The resets (70_reset_and_hazards.md): what State.reset and the platform's power-on reset leave (R196, R197),
and what a soft reset makes of the command it aborts (R198, R199). -/

namespace Sys2Proof.Machine

/-- Settles O51: each of them is a field of State.reset, or made of fields that are 0 there. -/
theorem resetValues : Obligations.ResetValues :=
  ⟨rfl, rfl, rfl, rfl, rfl, rfl, rfl, rfl, rfl, rfl, Memory.read_nil⟩

/-- The words of an unspecified register of `n` words are all those below `n` (R49). -/
@[simp] theorem BigReg.mem_unspec_unspecified (n j : Nat) : j ∈ (BigReg.unspecified n).unspec ↔ j < n :=
  List.mem_range

/-! ### Power-on reset (R196, R197) -/

theorem step_powerOn {s : State} {rest : List Input} (h : s.inputs = .powerOn :: rest) :
    step s = .next (s.withInputs rest).powerOnReset := by
  rw [step, takeInput, h]

/-- Settles O52: every register is then an unspecified one, and DMEM is empty. -/
theorem powerOnReset : Obligations.PowerOnReset := by
  refine fun s rest h => ⟨_, step_powerOn h, rfl, fun r j hj => ?_, Memory.read_nil⟩
  rw [opw_div_eq_words] at hj
  rwa [State.reg_powerOnReset, BigReg.mem_unspec_unspecified]

/-! ### Soft reset (R198, R199) -/

/-- The host's write of CTRL with bit 1 = 1 is the soft reset, busy or not (R35, R203). -/
theorem step_softReset {s : State} {v : Word} {rest : List Input} (h : hostWrites s 0x0010 v rest)
    (hv : v.getLsbD 1 = true) : step s = .next (s.withInputs rest).softReset :=
  (step_hostWrites h (by decide) rfl).trans (congrArg Host.Outcome.next (if_pos hv))

/-- A soft reset clears control and status, and changes nothing else but big registers and DMEM (R198). -/
theorem State.softReset_frame (s : State) :
    s.softReset = { s.clearControl with x := s.softReset.x, dmem := s.softReset.dmem } :=
  congrArg State.clearControl s.abort_frame

/-- An abort without destinations leaves the big registers and DMEM of the soft reset as they are (R198). -/
theorem State.softReset_of_abort_eq {s : State} (h : s.abort = s) :
    s.softReset.x = s.x ∧ s.softReset.dmem = s.dmem := by
  rw [State.softReset, h]
  exact ⟨rfl, rfl⟩

/-- After a soft reset a big register is unspecified if it is a destination of the aborted command, and
otherwise as before (R199). -/
theorem State.reg_softReset (s : State) {p : Pending} {i : Instr} (h : s.pending = some p)
    (hd : decode p.cmd = .ok i) (r : Reg) :
    s.softReset.reg r = if r ∈ i.dests then BigReg.unspecified s.params.words else s.reg r :=
  s.reg_abort p i r h hd

/-- After a soft reset that aborts a register command DMEM is as before. -/
theorem State.dmem_softReset (s : State) {p : Pending} {i : Instr} (h : s.pending = some p)
    (hd : decode p.cmd = .ok i) (hi : i.usesRegions = false) : s.softReset.dmem = s.dmem :=
  (s.dmem_abort p i h hd).trans (by rw [hi]; rfl)

/-- After a soft reset that aborts a byte command a byte has no value if it is one of the destination region
of the issue, and otherwise reads as before (R199). -/
theorem State.read_softReset (s : State) {p : Pending} {i : Instr} (h : s.pending = some p)
    (hd : decode p.cmd = .ok i) (hi : i.usesRegions = true) (a : Nat) :
    Memory.read s.softReset.dmem a =
      if p.snap.dstAddr.toNat ≤ a ∧ a < p.snap.dstAddr.toNat + p.snap.dstCap.toNat then none
      else Memory.read s.dmem a := by
  rw [← Memory.read_forget]
  exact congrArg (Memory.read · a) ((s.dmem_abort p i h hd).trans (if_pos hi))

/-- Settles O53, by what is pending: nothing, an illegal word, or a command, whose destinations are then
unspecified. -/
theorem softReset : Obligations.SoftReset := by
  intro s v rest h hv
  refine ⟨_, step_softReset h hv, (s.withInputs rest).softReset_frame, fun idle => ?_, fun p e hp hd => ?_,
    fun p i hp hd => ⟨fun r kept => ?_, fun r dest j hj => ?_, fun hi => ?_,
      fun hi a => ⟨fun above below => ?_, fun outside => ?_⟩⟩⟩
  · exact State.softReset_of_abort_eq (State.abort_of_idle _ idle)
  · exact State.softReset_of_abort_eq (State.abort_of_illegal _ p e hp hd)
  · exact ((s.withInputs rest).reg_softReset hp hd r).trans (if_neg kept)
  · rw [opw_div_eq_words] at hj
    rwa [(s.withInputs rest).reg_softReset hp hd, if_pos dest, BigReg.mem_unspec_unspecified]
  · exact (s.withInputs rest).dmem_softReset hp hd hi
  · exact ((s.withInputs rest).read_softReset hp hd hi a).trans (if_pos ⟨above, below⟩)
  · exact ((s.withInputs rest).read_softReset hp hd hi a).trans (if_neg (by omega))

end Sys2Proof.Machine
end
